-- ==== Sys2Proof/Word.lean ====
section
/-! DEFINITION. The word types of the core (spec 00_scope.md R5, R6): a byte is 8 bits, a halfword 16 bits,
a word 32 bits. Registers, addresses under computation and instruction words are words. -/

namespace Sys2Proof

/-- A byte (R62). -/
abbrev Byte := BitVec 8

/-- A halfword (R62), also one Thumb instruction (R90). -/
abbrev Half := BitVec 16

/-- A word (R5, R62): a register, an address, one ARM instruction. -/
abbrev Word := BitVec 32

end Sys2Proof
end

