-- ==== Sys2Proof/Config.lean ====
section
/-! DEFINITION. The parameters of spec 00_scope.md R5 that are one value for this hardware, the source of the
free values (R7 "unspecified"), and the timing figures of R236, which no rule of the model uses. The OPEN
parameters BIGEND, MemMap, AbortOracle and the three request inputs are fields of State. -/

namespace Sys2Proof.Config

/-- The `n`-th free draw of a run: an uninterpreted value, for whatever the spec calls unspecified
(R7: "a free draw (any 32-bit value, or any bit), never as zero"). Log entry 4. -/
opaque freeWord (n : Nat) : BitVec 32

/-- The memory format State.reset carries. DESIGN CHOICE, log entry 3: BIGEND is an open parameter (R63), no
statement rests on this value, and `State.resetWith` gives the state for either format. -/
def resetBigEndian : Bool := true

/-- The first byte address above the address space (R61: byte addresses are 0 to 2^32 - 1). -/
abbrev addressEnd : Nat := 4294967296

/-- Clock cycles for the FIQ request to pass the input synchroniser, at worst (R236). Timing only. -/
def tSyncMax : Nat := 5

/-- Clock cycles of the longest instruction, the LDM (R236). Timing only. -/
def tLdm : Nat := 23

/-- Clock cycles of FIQ entry (R236). Timing only. -/
def tFiq : Nat := 2

/-- The worst-case FIQ latency in clock cycles, `TD = Tsyncmax + Tldm + Tfiq` (R236). Timing only. -/
def fiqLatency : Nat := tSyncMax + tLdm + tFiq

/-- The clock of the source's latency example, in MHz (R236). Timing only. -/
def exampleClockMHz : Nat := 44

end Sys2Proof.Config
end

