-- ==== Sys2Proof/Syntax.lean ====
section
/-! DEFINITION. The instructions: one constructor of `Instr` for each row of spec/opcode_table.json, with the
row's fields as arguments. Register numbers, conditions, shift types, addressing modes and PSR names are types
of their own, so that the machine never sees a raw encoding. -/

namespace Sys2Proof

/-- A register number of a 4-bit field, 0 to 15 (R122): 13 is SP, 14 is LR, 15 is PC (R25). -/
abbrev Reg := Fin 16

/-- A register number of a 3-bit Thumb field, R0 to R7 (R122). -/
abbrev LowReg := Fin 8

/-- The fifteen conditions of R92; the value 1111 is refused by the decoder and has no constructor. -/
inductive Cond where
  | eq | ne | cs | cc | mi | pl | vs | vc | hi | ls | ge | lt | gt | le | al
deriving DecidableEq, Repr

/-- The shift types of operand 2 (R97, R98). -/
inductive ShiftType where
  | lsl | lsr | asr | ror
deriving DecidableEq, Repr

/-- The addressing modes of load multiple, the bits P and U (R102, R181). -/
inductive AddrMode where
  /-- decrement after, P = 0 and U = 0 -/
  | da
  /-- increment after, P = 0 and U = 1 -/
  | ia
  /-- decrement before, P = 1 and U = 0 -/
  | db
  /-- increment before, P = 1 and U = 1 -/
  | ib
deriving DecidableEq, Repr

/-- Which PSR a transfer names, the bit R (R103): `spsr` is the SPSR of the current mode. -/
inductive PsrName where
  | cpsr | spsr
deriving DecidableEq, Repr

/-- The field mask of MSR (R103): `f` selects bits 31:24, `s` 23:16, `x` 15:8, `c` 7:0. -/
structure PsrFields where
  f : Bool
  s : Bool
  x : Bool
  c : Bool
deriving DecidableEq, Repr

/-- The instructions, in the order of spec/opcode_table.json. `wb` is the write-back bit W, `setFlags` the bit S. -/
inductive Instr where
  /-- BX, R132 -/
  | bx (cond : Cond) (rm : Reg)
  /-- MRS, R172 -/
  | mrs (cond : Cond) (psr : PsrName) (rd : Reg)
  /-- MSR_reg, R173 -/
  | msrReg (cond : Cond) (psr : PsrName) (fields : PsrFields) (rm : Reg)
  /-- MSR_imm, R174 -/
  | msrImm (cond : Cond) (psr : PsrName) (fields : PsrFields) (rot : BitVec 4) (imm8 : BitVec 8)
  /-- MOV_imm, R144 -/
  | movImm (cond : Cond) (setFlags : Bool) (rd : Reg) (rot : BitVec 4) (imm8 : BitVec 8)
  /-- MOV_reg, R144 -/
  | movReg (cond : Cond) (setFlags : Bool) (rd : Reg) (shiftImm : BitVec 5) (type : ShiftType) (rm : Reg)
  /-- MOV_rsr, R144 -/
  | movRsr (cond : Cond) (setFlags : Bool) (rd rs : Reg) (type : ShiftType) (rm : Reg)
  /-- ADD_imm, R145 -/
  | addImm (cond : Cond) (setFlags : Bool) (rn rd : Reg) (rot : BitVec 4) (imm8 : BitVec 8)
  /-- ADD_reg, R145 -/
  | addReg (cond : Cond) (setFlags : Bool) (rn rd : Reg) (shiftImm : BitVec 5) (type : ShiftType) (rm : Reg)
  /-- ADD_rsr, R145 -/
  | addRsr (cond : Cond) (setFlags : Bool) (rn rd rs : Reg) (type : ShiftType) (rm : Reg)
  /-- SUB_imm, R146 -/
  | subImm (cond : Cond) (setFlags : Bool) (rn rd : Reg) (rot : BitVec 4) (imm8 : BitVec 8)
  /-- SUB_reg, R146 -/
  | subReg (cond : Cond) (setFlags : Bool) (rn rd : Reg) (shiftImm : BitVec 5) (type : ShiftType) (rm : Reg)
  /-- SUB_rsr, R146 -/
  | subRsr (cond : Cond) (setFlags : Bool) (rn rd rs : Reg) (type : ShiftType) (rm : Reg)
  /-- CMP_imm, R147 -/
  | cmpImm (cond : Cond) (rn : Reg) (rot : BitVec 4) (imm8 : BitVec 8)
  /-- CMP_reg, R147 -/
  | cmpReg (cond : Cond) (rn : Reg) (shiftImm : BitVec 5) (type : ShiftType) (rm : Reg)
  /-- CMP_rsr, R147 -/
  | cmpRsr (cond : Cond) (rn rs : Reg) (type : ShiftType) (rm : Reg)
  /-- UNDEFINED, R176: the free bits 24:5 and 3:0 of R104 -/
  | undefined (cond : Cond) (hi : BitVec 20) (lo : BitVec 4)
  /-- LDM_pc_spsr, R182: `list` is bits 14:0 of the register list, bit 15 (the PC) is set -/
  | ldmPcSpsr (cond : Cond) (mode : AddrMode) (wb : Bool) (rn : Reg) (list : BitVec 15)
  /-- LDM_user, R183: `list` is bits 14:0 of the register list, bit 15 (the PC) is clear -/
  | ldmUser (cond : Cond) (mode : AddrMode) (wb : Bool) (rn : Reg) (list : BitVec 15)
  /-- LDM, R180 -/
  | ldm (cond : Cond) (mode : AddrMode) (wb : Bool) (rn : Reg) (list : BitVec 16)
  /-- B, R130 -/
  | b (cond : Cond) (imm24 : BitVec 24)
  /-- BL, R131 -/
  | bl (cond : Cond) (imm24 : BitVec 24)
  /-- SWI, R170 -/
  | swi (cond : Cond) (imm24 : BitVec 24)
  /-- T_ADD_reg, R152 -/
  | tAddReg (rn rs rd : LowReg)
  /-- T_ADD_imm3, R153 -/
  | tAddImm3 (imm3 : BitVec 3) (rs rd : LowReg)
  /-- T_MOV_imm8, R150 -/
  | tMovImm8 (rd : LowReg) (imm8 : BitVec 8)
  /-- T_CMP_imm8, R159 -/
  | tCmpImm8 (rd : LowReg) (imm8 : BitVec 8)
  /-- T_ADD_imm8, R154 -/
  | tAddImm8 (rd : LowReg) (imm8 : BitVec 8)
  /-- T_CMP_reg, R160 -/
  | tCmpReg (rs rd : LowReg)
  /-- T_ADD_hi, R155: `s` is H2 : Rs and `d` is H1 : Rd (R110) -/
  | tAddHi (s d : Reg)
  /-- T_CMP_hi, R161: `s` is H2 : Rs and `d` is H1 : Rd (R110) -/
  | tCmpHi (s d : Reg)
  /-- T_MOV_hi, R151: `s` is H2 : Rs and `d` is H1 : Rd (R110) -/
  | tMovHi (s d : Reg)
  /-- T_BX, R137: `s` is H2 : Rs (R110) -/
  | tBx (s : Reg)
  /-- T_ADD_pc, R156 -/
  | tAddPc (rd : LowReg) (imm8 : BitVec 8)
  /-- T_ADD_sp, R157 -/
  | tAddSp (rd : LowReg) (imm8 : BitVec 8)
  /-- T_ADD_sp_imm7, R158: `subtract` is the bit S of R112 -/
  | tAddSpImm7 (subtract : Bool) (imm7 : BitVec 7)
  /-- T_LDMIA, R186 -/
  | tLdmia (rb : LowReg) (list : BitVec 8)
  /-- T_UNDEFINED, R177: the free bits 7:0 -/
  | tUndefined (imm8 : BitVec 8)
  /-- T_SWI, R171 -/
  | tSwi (imm8 : BitVec 8)
  /-- T_Bcond, R133 -/
  | tBcond (cond : Cond) (soffset8 : BitVec 8)
  /-- T_B, R134 -/
  | tB (offset11 : BitVec 11)
  /-- T_BL_hi, R135 -/
  | tBlHi (offset11 : BitVec 11)
  /-- T_BL_lo, R136 -/
  | tBlLo (offset11 : BitVec 11)
deriving DecidableEq, Repr

/-- An instruction's bits in the state that executes them (R90, R91): a word in ARM state, a halfword in
Thumb state. -/
inductive Code where
  | arm (w : Word)
  | thumb (h : Half)
deriving DecidableEq, Repr

end Sys2Proof
end

