-- ==== Sys2Proof/Machine/State.lean ====
section
/-! DEFINITION. The state of the core as plain data: the 31 general registers and 6 status registers of
10_state.md (R20, R21), the memory of 20_memory.md, and the model's own fields for the spec's open parameters
and inputs (00_scope.md R5, R10); the reasons a step stops; the state after reset (R41). -/

namespace Sys2Proof.Machine

/-- The seven operating modes (R33). -/
inductive Mode where
  | user | fiq | irq | supervisor | abort | undefined | system
deriving DecidableEq, Repr

/-- The five exception modes, those with banked R13, R14 and an SPSR (R9, R21, R36). -/
inductive Bank where
  | fiq | svc | abt | irq | und
deriving DecidableEq, Repr

/-- The 31 physical general registers (R21). -/
inductive PhysReg where
  | r0 | r1 | r2 | r3 | r4 | r5 | r6 | r7
  | r8 | r9 | r10 | r11 | r12
  | r8Fiq | r9Fiq | r10Fiq | r11Fiq | r12Fiq
  | r13 | r14
  | r13Fiq | r14Fiq
  | r13Svc | r14Svc
  | r13Abt | r14Abt
  | r13Irq | r14Irq
  | r13Und | r14Und
  | pc
deriving DecidableEq, Repr

/-- The contents of the 31 physical general registers (R21); `pc` is R15, the address of the instruction being
executed (R26). -/
structure Regs where
  r0 : Word
  r1 : Word
  r2 : Word
  r3 : Word
  r4 : Word
  r5 : Word
  r6 : Word
  r7 : Word
  r8 : Word
  r9 : Word
  r10 : Word
  r11 : Word
  r12 : Word
  r8Fiq : Word
  r9Fiq : Word
  r10Fiq : Word
  r11Fiq : Word
  r12Fiq : Word
  r13 : Word
  r14 : Word
  r13Fiq : Word
  r14Fiq : Word
  r13Svc : Word
  r14Svc : Word
  r13Abt : Word
  r14Abt : Word
  r13Irq : Word
  r14Irq : Word
  r13Und : Word
  r14Und : Word
  pc : Word
deriving DecidableEq, Repr

/-- The five saved program status registers (R21, R36). -/
structure Spsrs where
  fiq : Word
  svc : Word
  abt : Word
  irq : Word
  und : Word
deriving DecidableEq, Repr

/-- Memory: the bytes the platform holds, as pairs of address and byte with addresses strictly rising below
2^32. An address that is not listed has no memory behind it (the parameter MemMap of R75 says "which addresses
exist"; log entry 7). -/
abbrev Memory := List Host.Cell

/-- The canonical form: addresses strictly rising and inside the address space (R61). An unlisted address reads
as no value, so no entry can equal what it reads as. -/
abbrev Memory.wf (mem : Memory) : Prop :=
  mem.Pairwise (fun c d => c.1 < d.1) ∧ ∀ c ∈ mem, c.1 < Config.addressEnd

/-- The three request inputs of one step (R5, R10, R11, R208). -/
structure Pins where
  /-- `reset_request` (R230) -/
  reset : Bool
  /-- `fiq_request` (R206) -/
  fiq : Bool
  /-- `irq_request` (R205) -/
  irq : Bool
deriving DecidableEq, Repr

/-- No request. -/
def Pins.idle : Pins := { reset := false, fiq := false, irq := false }

/-- What the memory system does at one access of the core. -/
structure BusEvent where
  /-- The access is aborted: the answer of AbortOracle to it (R82). -/
  abort : Bool
  /-- What other bus masters put into memory since the access before (R73, R77), oldest first. -/
  writes : List (Word × Byte)
deriving DecidableEq, Repr

/-- No abort, no foreign write. -/
def BusEvent.quiet : BusEvent := { abort := false, writes := [] }

/-- The state. The first four fields are the spec's (R10); the last four are the model's own (log entries 3, 5,
6, 4), one for each open parameter or input of R5 and one for the free values of R7. -/
structure State where
  /-- The 31 general registers (R21), R15 among them. -/
  regs : Regs
  /-- The current program status register (R29). -/
  cpsr : Word
  /-- The five saved program status registers (R36). -/
  spsrs : Spsrs
  /-- Memory (R60, R75). -/
  mem : Memory
  /-- The parameter BIGEND (R63): no step changes it. Log entry 3. -/
  bigEndian : Bool
  /-- The requests of the coming steps, one entry a step; no entry is no request (R11, R208). Log entry 5. -/
  pins : List Pins
  /-- The memory system at the coming accesses, one entry an access; no entry is quiet (R77, R82). Log entry 6. -/
  bus : List BusEvent
  /-- How many free values the run has drawn (R7). Log entry 4. -/
  freeIndex : Nat
deriving DecidableEq, Repr

/-- Why the machine stops with a fault. -/
inductive Fault where
  /-- `stuck(illegal_mode)`: CPSR[4:0] holds none of the seven modes. Raised by a step with no reset request and
  by every meaning (R34). Safe: no step but Reset is enabled in that state. -/
  | illegalMode
  /-- A fetch or a load reads a byte that memory does not list, with no abort. Raised by `memRead` (R75; log
  entry 7). Safe: the platform says which addresses exist. -/
  | absentMemory
deriving DecidableEq, Repr

/-- Why the model gives a case no meaning: `refuse(reason)` of R7, and the host's own reason. All are safe: the
model stops where hardware may go on. -/
inductive Refusal where
  /-- No meaning has been written for the instruction. Raised by exec's refused arms alone. -/
  | notModelled (mnemonic : String)
  /-- `refuse(unspecified_encoding)`: no row of the opcode table matches. Raised by the fetch (R105, R118). -/
  | unspecifiedEncoding
  /-- `refuse(cond_1111)`. Raised by the fetch (R92). -/
  | cond1111
  /-- `refuse(undefined_combination)`: a Thumb high-register operation with two low registers (R110). -/
  | undefinedCombination
  /-- `refuse(unpredictable)`: the cases of D29 (R98, R132, R161, R172, R173, R175, R180, R183, R185, R186). -/
  | unpredictable
  /-- `refuse(misaligned_access)`: a data access (R70, R180, R186). -/
  | misalignedAccess
  /-- `refuse(misaligned_pc)`: a fetch or a value written to the PC (R26, R70, R132, R138, R142, R143). -/
  | misalignedPc
  /-- `refuse(no_spsr)`: the SPSR of User or System mode (R36, R143, R172, R175, R182). -/
  | noSpsr
  /-- `refuse(pc_wrap)`: an advance or a branch past an end of the address space (R28, R130). -/
  | pcWrap
  /-- `refuse(address_wrap)`: a data access past an end of the address space (R61, R181). -/
  | addressWrap
deriving DecidableEq, Repr

/-- Registers all zero: the pc by R41, every other by log entry 1 (DESIGN CHOICE: R41 leaves them unspecified). -/
def Regs.zero : Regs :=
  { r0 := 0, r1 := 0, r2 := 0, r3 := 0, r4 := 0, r5 := 0, r6 := 0, r7 := 0,
    r8 := 0, r9 := 0, r10 := 0, r11 := 0, r12 := 0,
    r8Fiq := 0, r9Fiq := 0, r10Fiq := 0, r11Fiq := 0, r12Fiq := 0,
    r13 := 0, r14 := 0, r13Fiq := 0, r14Fiq := 0, r13Svc := 0, r14Svc := 0,
    r13Abt := 0, r14Abt := 0, r13Irq := 0, r14Irq := 0, r13Und := 0, r14Und := 0,
    pc := 0 }

/-- The state after Reset under a memory format: pc 0, ARM state, Supervisor mode, I and F set (R41, R231);
flags, reserved bits and SPSRs zero by log entry 2 (DESIGN CHOICE); memory with nothing listed (R41: "whatever
the platform holds"; log entry 7); no request, a quiet bus, no free value drawn. -/
def State.resetWith (bigEndian : Bool) : State :=
  { regs := Regs.zero
    cpsr := 0x000000D3#32
    spsrs := { fiq := 0, svc := 0, abt := 0, irq := 0, und := 0 }
    mem := []
    bigEndian := bigEndian
    pins := []
    bus := []
    freeIndex := 0 }

/-- The machine right after reset (R41), in the memory format of log entry 3. -/
def State.reset : State := State.resetWith Config.resetBigEndian

end Sys2Proof.Machine
end

