-- ==== Sys2Proof/Machine/Flags.lean ====
section
/-! DEFINITION. The condition code flags: the flag formulas of 00_scope.md R8 and 41_data_processing.md R141,
and the condition table of 30_encoding.md R92. -/

namespace Sys2Proof.Machine

/-- The condition code flags, PSR bits 31 to 28 (R29, R30). -/
structure Flags where
  n : Bool
  z : Bool
  c : Bool
  v : Bool
deriving DecidableEq, Repr

/-- AddWithFlags (R8): the sum modulo 2^32, C the carry out of bit 31, V signed overflow. -/
def addWithFlags (a b : Word) : Word × Flags :=
  let r := a + b
  (r, { n := r.getLsbD 31
        z := r == 0
        c := decide (2 ^ 32 ≤ a.toNat + b.toNat)
        v := (a.getLsbD 31 == b.getLsbD 31) && (r.getLsbD 31 != a.getLsbD 31) })

/-- SubWithFlags (R8): `a - b` modulo 2^32, C the inverse of the borrow, V signed overflow. -/
def subWithFlags (a b : Word) : Word × Flags :=
  let r := a - b
  (r, { n := r.getLsbD 31
        z := r == 0
        c := decide (b.toNat ≤ a.toNat)
        v := (a.getLsbD 31 != b.getLsbD 31) && (r.getLsbD 31 != a.getLsbD 31) })

/-- The flags of a move (R141, R144): N and Z of the result, C the shifter carry, V unchanged. -/
def moveFlags (result : Word) (shifterCarry : Bool) (old : Flags) : Flags :=
  { n := result.getLsbD 31, z := result == 0, c := shifterCarry, v := old.v }

/-- Whether a condition passes (R92). -/
def condPasses (cond : Cond) (f : Flags) : Bool :=
  match cond with
  | .eq => f.z
  | .ne => !f.z
  | .cs => f.c
  | .cc => !f.c
  | .mi => f.n
  | .pl => !f.n
  | .vs => f.v
  | .vc => !f.v
  | .hi => f.c && !f.z
  | .ls => !f.c || f.z
  | .ge => f.n == f.v
  | .lt => f.n != f.v
  | .gt => !f.z && (f.n == f.v)
  | .le => f.z || (f.n != f.v)
  | .al => true

end Sys2Proof.Machine
end

