-- ==== Sys2Proof/Machine/Operands.lean ====
section
/-! DEFINITION. Operand 2 of the ARM data-processing instructions and the immediates of the branch, MSR and
Thumb formats (30_encoding.md R96 to R99, R103, R111, R112, R114, R116, R117). Each shifter function answers the
operand and the shifter carry. -/

namespace Sys2Proof.Machine

/-- Rotate right by `n` modulo 32 (R8, ROR32). -/
def ror32 (v : Word) (n : Nat) : Word := v.rotateRight (n % 32)

/-- Arithmetic shift right (R8, ASR32). -/
def asr32 (v : Word) (n : Nat) : Word := v.sshiftRight n

/-- Bit 31 copied to every bit: the result of an arithmetic shift by 32 or more (R97, R98). -/
def signFill (v : Word) : Word := if v.getLsbD 31 then 0xFFFFFFFF#32 else 0#32

/-- An 8-bit immediate rotated right by twice the 4-bit field (R96, R103). -/
def rotatedImm (rot : BitVec 4) (imm8 : BitVec 8) : Word := ror32 (imm8.setWidth 32) (2 * rot.toNat)

/-- Operand 2, immediate form (R96). -/
def operandImm (rot : BitVec 4) (imm8 : BitVec 8) (c : Bool) : Word × Bool :=
  let v := rotatedImm rot imm8
  (v, if rot = 0 then c else v.getLsbD 31)

/-- Operand 2, register shifted by an immediate amount (R97). -/
def operandShiftImm (type : ShiftType) (shiftImm : BitVec 5) (m : Word) (c : Bool) : Word × Bool :=
  let n := shiftImm.toNat
  match type with
  | .lsl => if n = 0 then (m, c) else (m <<< n, m.getLsbD (32 - n))
  | .lsr => if n = 0 then (0#32, m.getLsbD 31) else (m >>> n, m.getLsbD (n - 1))
  | .asr => if n = 0 then (signFill m, m.getLsbD 31) else (asr32 m n, m.getLsbD (n - 1))
  | .ror =>
    if n = 0 then (((BitVec.ofBool c).setWidth 32 <<< 31) ||| (m >>> 1), m.getLsbD 0)
    else (ror32 m n, m.getLsbD (n - 1))

/-- Operand 2, register shifted by a register amount: only the low byte `s` of Rs counts (R98). -/
def operandShiftReg (type : ShiftType) (rs : Word) (m : Word) (c : Bool) : Word × Bool :=
  let s := (rs.extractLsb 7 0).toNat
  if s = 0 then (m, c)
  else
    match type with
    | .lsl =>
      if s < 32 then (m <<< s, m.getLsbD (32 - s))
      else if s = 32 then (0#32, m.getLsbD 0)
      else (0#32, false)
    | .lsr =>
      if s < 32 then (m >>> s, m.getLsbD (s - 1))
      else if s = 32 then (0#32, m.getLsbD 31)
      else (0#32, false)
    | .asr => if s < 32 then (asr32 m s, m.getLsbD (s - 1)) else (signFill m, m.getLsbD 31)
    | .ror => if s % 32 = 0 then (m, m.getLsbD 31) else (ror32 m (s % 32), m.getLsbD (s % 32 - 1))

/-- The byte offset of an ARM branch, `sext_26(imm24 : 0b00)` (R99). -/
def armBranchOffset (imm24 : BitVec 24) : Int := (imm24 ++ 0#2).toInt

/-- The byte offset of a Thumb conditional branch, `sext_9(soffset8 : 0b0)` (R114). -/
def thumbCondOffset (soffset8 : BitVec 8) : Int := (soffset8 ++ 0#1).toInt

/-- The byte offset of a Thumb branch, `sext_12(offset11 : 0b0)` (R116). -/
def thumbBranchOffset (offset11 : BitVec 11) : Int := (offset11 ++ 0#1).toInt

/-- The part of a Thumb BL offset in its first half, `sext_11(offset11) << 12` (R117, R135). -/
def thumbBlHigh (offset11 : BitVec 11) : Word := offset11.signExtend 32 <<< 12

/-- The part of a Thumb BL offset in its second half, `zext_11(offset11) << 1` (R117, R136). -/
def thumbBlLow (offset11 : BitVec 11) : Word := offset11.setWidth 32 <<< 1

/-- `zext_10(imm8 : 0b00)` (R111). -/
def wordImm8 (imm8 : BitVec 8) : Word := (imm8 ++ 0#2).setWidth 32

/-- `zext_9(imm7 : 0b00)` (R112). -/
def wordImm7 (imm7 : BitVec 7) : Word := (imm7 ++ 0#2).setWidth 32

/-- The register number of a low register (R122). -/
def low (r : LowReg) : Reg := ⟨r.val, by have := r.isLt; omega⟩

end Sys2Proof.Machine
end

