-- ==== Sys2Proof/WellFormed.lean ====
section
/-! DEFINITION. Two checks on instructions as syntax. `Instr.wellFormed`: the fields fit the row's encoding, so
that the instruction has a word of its own. `Instr.predictable`: the constraints column of spec/opcode_table.json
so far as it speaks of the fields alone; a form that breaks it still decodes, and its meaning refuses it by the
name the spec gives when (in ARM state) its condition passes. -/

namespace Sys2Proof

/-- An ARM row's condition is one of the fifteen of R92 by its type; a Thumb conditional branch holds only
0000 to 1101, since 1110 is the undefined instruction and 1111 the SWI (R114). -/
def Cond.isThumbBranchCond : Cond → Bool
  | .al => false
  | .eq | .ne | .cs | .cc | .mi | .pl | .vs | .vc | .hi | .ls | .ge | .lt | .gt | .le => true

/-- The fields fit the encoding of the instruction's row. -/
def Instr.wellFormed : Instr → Bool
  | .bx _ _ => true
  | .mrs _ _ _ => true
  | .msrReg _ _ _ _ => true
  | .msrImm _ _ _ _ _ => true
  | .movImm _ _ _ _ _ => true
  | .movReg _ _ _ _ _ _ => true
  | .movRsr _ _ _ _ _ _ => true
  | .addImm _ _ _ _ _ _ => true
  | .addReg _ _ _ _ _ _ _ => true
  | .addRsr _ _ _ _ _ _ _ => true
  | .subImm _ _ _ _ _ _ => true
  | .subReg _ _ _ _ _ _ _ => true
  | .subRsr _ _ _ _ _ _ _ => true
  | .cmpImm _ _ _ _ => true
  | .cmpReg _ _ _ _ _ => true
  | .cmpRsr _ _ _ _ _ => true
  | .undefined _ _ _ => true
  | .ldmPcSpsr _ _ _ _ _ => true
  | .ldmUser _ _ _ _ _ => true
  | .ldm _ _ _ _ _ => true
  | .b _ _ => true
  | .bl _ _ => true
  | .swi _ _ => true
  | .tAddReg _ _ _ => true
  | .tAddImm3 _ _ _ => true
  | .tMovImm8 _ _ => true
  | .tCmpImm8 _ _ => true
  | .tAddImm8 _ _ => true
  | .tCmpReg _ _ => true
  | .tAddHi _ _ => true
  | .tCmpHi _ _ => true
  | .tMovHi _ _ => true
  | .tBx _ => true
  | .tAddPc _ _ => true
  | .tAddSp _ _ => true
  | .tAddSpImm7 _ _ => true
  | .tLdmia _ _ => true
  | .tUndefined _ => true
  | .tSwi _ => true
  | .tBcond c _ => c.isThumbBranchCond
  | .tB _ => true
  | .tBlHi _ => true
  | .tBlLo _ => true

/-- Not both operands of a Thumb high-register operation are low (R110: "documented as undefined and must not
be used"). -/
def highPair (s d : Reg) : Bool := decide (8 ≤ s.val ∨ 8 ≤ d.val)

/-- The constraints column of spec/opcode_table.json on the fields alone (R185 and file 93, P2, P5, P7, P11,
P12, P14, P15, P16). -/
def Instr.predictable : Instr → Bool
  | .bx _ rm => rm ≠ 15
  | .mrs _ _ rd => rd ≠ 15
  | .msrReg _ _ _ rm => rm ≠ 15
  | .msrImm _ _ _ _ _ => true
  | .movImm _ _ _ _ _ => true
  | .movReg _ _ _ _ _ _ => true
  | .movRsr _ _ _ rs _ _ => rs ≠ 15
  | .addImm _ _ _ _ _ _ => true
  | .addReg _ _ _ _ _ _ _ => true
  | .addRsr _ _ _ _ rs _ _ => rs ≠ 15
  | .subImm _ _ _ _ _ _ => true
  | .subReg _ _ _ _ _ _ _ => true
  | .subRsr _ _ _ _ rs _ _ => rs ≠ 15
  | .cmpImm _ _ _ _ => true
  | .cmpReg _ _ _ _ _ => true
  | .cmpRsr _ _ rs _ _ => rs ≠ 15
  | .undefined _ _ _ => true
  | .ldmPcSpsr _ _ wb rn list => rn ≠ 15 && !(wb && list.getLsbD rn.val)
  | .ldmUser _ _ wb rn list => rn ≠ 15 && !wb && list ≠ 0
  | .ldm _ _ wb rn list => rn ≠ 15 && !(wb && list.getLsbD rn.val) && list ≠ 0
  | .b _ _ => true
  | .bl _ _ => true
  | .swi _ _ => true
  | .tAddReg _ _ _ => true
  | .tAddImm3 _ _ _ => true
  | .tMovImm8 _ _ => true
  | .tCmpImm8 _ _ => true
  | .tAddImm8 _ _ => true
  | .tCmpReg _ _ => true
  | .tAddHi s d => highPair s d
  | .tCmpHi s d => highPair s d && d ≠ 15
  | .tMovHi s d => highPair s d
  | .tBx _ => true
  | .tAddPc _ _ => true
  | .tAddSp _ _ => true
  | .tAddSpImm7 _ _ => true
  | .tLdmia _ list => list ≠ 0
  | .tUndefined _ => true
  | .tSwi _ => true
  | .tBcond _ _ => true
  | .tB _ => true
  | .tBlHi _ => true
  | .tBlLo _ => true

/-- The operating state whose instruction set the row belongs to (the table's "state"; R91). -/
def Instr.isThumb : Instr → Bool
  | .bx _ _ | .mrs _ _ _ | .msrReg _ _ _ _ | .msrImm _ _ _ _ _ | .movImm _ _ _ _ _ | .movReg _ _ _ _ _ _
  | .movRsr _ _ _ _ _ _ | .addImm _ _ _ _ _ _ | .addReg _ _ _ _ _ _ _ | .addRsr _ _ _ _ _ _ _
  | .subImm _ _ _ _ _ _ | .subReg _ _ _ _ _ _ _ | .subRsr _ _ _ _ _ _ _ | .cmpImm _ _ _ _
  | .cmpReg _ _ _ _ _ | .cmpRsr _ _ _ _ _ | .undefined _ _ _ | .ldmPcSpsr _ _ _ _ _ | .ldmUser _ _ _ _ _
  | .ldm _ _ _ _ _ | .b _ _ | .bl _ _ | .swi _ _ => false
  | .tAddReg _ _ _ | .tAddImm3 _ _ _ | .tMovImm8 _ _ | .tCmpImm8 _ _ | .tAddImm8 _ _ | .tCmpReg _ _
  | .tAddHi _ _ | .tCmpHi _ _ | .tMovHi _ _ | .tBx _ | .tAddPc _ _ | .tAddSp _ _ | .tAddSpImm7 _ _
  | .tLdmia _ _ | .tUndefined _ | .tSwi _ | .tBcond _ _ | .tB _ | .tBlHi _ | .tBlLo _ => true

/-- The condition field of an ARM instruction; a Thumb instruction has none (R92, R114: the condition of a
Thumb branch is an operand of it). -/
def Instr.armCond : Instr → Option Cond
  | .bx c _ | .mrs c _ _ | .msrReg c _ _ _ | .msrImm c _ _ _ _ | .movImm c _ _ _ _ | .movReg c _ _ _ _ _
  | .movRsr c _ _ _ _ _ | .addImm c _ _ _ _ _ | .addReg c _ _ _ _ _ _ | .addRsr c _ _ _ _ _ _
  | .subImm c _ _ _ _ _ | .subReg c _ _ _ _ _ _ | .subRsr c _ _ _ _ _ _ | .cmpImm c _ _ _
  | .cmpReg c _ _ _ _ | .cmpRsr c _ _ _ _ | .undefined c _ _ | .ldmPcSpsr c _ _ _ _ | .ldmUser c _ _ _ _
  | .ldm c _ _ _ _ | .b c _ | .bl c _ | .swi c _ => some c
  | .tAddReg _ _ _ | .tAddImm3 _ _ _ | .tMovImm8 _ _ | .tCmpImm8 _ _ | .tAddImm8 _ _ | .tCmpReg _ _
  | .tAddHi _ _ | .tCmpHi _ _ | .tMovHi _ _ | .tBx _ | .tAddPc _ _ | .tAddSp _ _ | .tAddSpImm7 _ _
  | .tLdmia _ _ | .tUndefined _ | .tSwi _ | .tBcond _ _ | .tB _ | .tBlHi _ | .tBlLo _ => none

end Sys2Proof
end

