-- ==== Sys2Proof/Decode.lean ====
section
/-! DEFINITION. The decoder and the encoder (spec 30_encoding.md). The decoder tries the rows of R94 and R106 in
the order of spec/opcode_table.json; each row's test is the fixed fields of its format rule, written with the
spec's own bit numbers, and every word no row matches is rejected by name (R105, R118). -/

namespace Sys2Proof

/-- Why a word is not an instruction of the admitted subset. -/
inductive DecodeError where
  /-- No row of R94 or R106 matches: `refuse(unspecified_encoding)`, never a trap (R105, R118). Safe. -/
  | unspecifiedEncoding
  /-- ARM condition field 1111: `refuse(cond_1111)` (R92). Safe. -/
  | cond1111
  /-- Fewer bytes than an instruction has. Raised by no step: a fetch reads whole instructions. Safe. -/
  | truncated
deriving DecidableEq, Repr

/-! ## Fields -/

/-- The condition of a 4-bit field (R92). -/
def Cond.ofBits (v : BitVec 4) : Option Cond :=
  match v.toNat with
  | 0 => some .eq | 1 => some .ne | 2 => some .cs | 3 => some .cc | 4 => some .mi
  | 5 => some .pl | 6 => some .vs | 7 => some .vc | 8 => some .hi | 9 => some .ls
  | 10 => some .ge | 11 => some .lt | 12 => some .gt | 13 => some .le | 14 => some .al
  | _ => none

/-- The 4-bit field of a condition (R92). -/
def Cond.bits : Cond → BitVec 4
  | .eq => 0b0000#4 | .ne => 0b0001#4 | .cs => 0b0010#4 | .cc => 0b0011#4 | .mi => 0b0100#4
  | .pl => 0b0101#4 | .vs => 0b0110#4 | .vc => 0b0111#4 | .hi => 0b1000#4 | .ls => 0b1001#4
  | .ge => 0b1010#4 | .lt => 0b1011#4 | .gt => 0b1100#4 | .le => 0b1101#4 | .al => 0b1110#4

/-- The shift type of a 2-bit field (R97). -/
def ShiftType.ofBits (v : BitVec 2) : ShiftType :=
  match v.toNat with
  | 0 => .lsl | 1 => .lsr | 2 => .asr | _ => .ror

/-- The 2-bit field of a shift type (R97). -/
def ShiftType.bits : ShiftType → BitVec 2
  | .lsl => 0b00#2 | .lsr => 0b01#2 | .asr => 0b10#2 | .ror => 0b11#2

/-- The addressing mode of the bits P and U, in this order (R102). -/
def AddrMode.ofBits (v : BitVec 2) : AddrMode :=
  match v.toNat with
  | 0 => .da | 1 => .ia | 2 => .db | _ => .ib

/-- The bits P and U of an addressing mode (R102). -/
def AddrMode.bits : AddrMode → BitVec 2
  | .da => 0b00#2 | .ia => 0b01#2 | .db => 0b10#2 | .ib => 0b11#2

/-- The PSR of the bit R (R103). -/
def PsrName.ofBit : Bool → PsrName
  | false => .cpsr
  | true => .spsr

/-- The bit R of a PSR (R103). -/
def PsrName.bit : PsrName → Bool
  | .cpsr => false
  | .spsr => true

/-- The MSR field mask of bits 19:16, `f s x c` from the top (R103). -/
def PsrFields.ofBits (v : BitVec 4) : PsrFields :=
  { f := v.getLsbD 3, s := v.getLsbD 2, x := v.getLsbD 1, c := v.getLsbD 0 }

/-- Bits 19:16 of an MSR field mask (R103). -/
def PsrFields.bits (p : PsrFields) : BitVec 4 :=
  BitVec.ofBool p.f ++ BitVec.ofBool p.s ++ BitVec.ofBool p.x ++ BitVec.ofBool p.c

/-- The register number in the four bits of a word whose lowest is bit `lo` (R122). -/
def regAt (w : Word) (lo : Nat) : Reg := (w.extractLsb' lo 4).toFin

/-- The register number R0 to R7 in the three bits of a halfword whose lowest is bit `lo` (R122). -/
def lowAt (h : Half) (lo : Nat) : LowReg := (h.extractLsb' lo 3).toFin

/-- The full register number `H1 : Rd` of a Thumb format 5 halfword, bits 7 and 2:0 (R110). -/
def hiDest (h : Half) : Reg := (h.extractLsb' 7 1 ++ h.extractLsb' 0 3 : BitVec 4).toFin

/-- The full register number `H2 : Rs` of a Thumb format 5 halfword, bits 6:3 (R110). -/
def hiSource (h : Half) : Reg := (h.extractLsb' 3 4).toFin

/-- The 4-bit field of a register number (R122). -/
def regBits (r : Reg) : BitVec 4 := BitVec.ofFin r

/-- The 3-bit field of a low register number (R122). -/
def lowBits (r : LowReg) : BitVec 3 := BitVec.ofFin r

/-! ## Decoding -/

/-- ARM state: the rows of R94 for a word whose condition is `c`, in the order of the opcode table. -/
def decodeArmRow (c : Cond) (w : Word) : Except DecodeError Instr :=
  if w.extractLsb 27 4 = 0b000100101111111111110001#24 then .ok (.bx c (regAt w 0))
  else if w.extractLsb 27 23 = 0b00010#5 ∧ w.extractLsb 21 16 = 0b001111#6 ∧ w.extractLsb 11 0 = 0#12 then
    .ok (.mrs c (PsrName.ofBit (w.getLsbD 22)) (regAt w 12))
  else if w.extractLsb 27 23 = 0b00010#5 ∧ w.extractLsb 21 20 = 0b10#2 ∧ w.extractLsb 15 12 = 0b1111#4
      ∧ w.extractLsb 11 4 = 0#8 then
    .ok (.msrReg c (PsrName.ofBit (w.getLsbD 22)) (PsrFields.ofBits (w.extractLsb 19 16)) (regAt w 0))
  else if w.extractLsb 27 23 = 0b00110#5 ∧ w.extractLsb 21 20 = 0b10#2 ∧ w.extractLsb 15 12 = 0b1111#4 then
    .ok (.msrImm c (PsrName.ofBit (w.getLsbD 22)) (PsrFields.ofBits (w.extractLsb 19 16)) (w.extractLsb 11 8)
      (w.extractLsb 7 0))
  else if w.extractLsb 27 21 = 0b0011101#7 ∧ w.extractLsb 19 16 = 0#4 then
    .ok (.movImm c (w.getLsbD 20) (regAt w 12) (w.extractLsb 11 8) (w.extractLsb 7 0))
  else if w.extractLsb 27 21 = 0b0001101#7 ∧ w.extractLsb 19 16 = 0#4 ∧ w.getLsbD 4 = false then
    .ok (.movReg c (w.getLsbD 20) (regAt w 12) (w.extractLsb 11 7) (ShiftType.ofBits (w.extractLsb 6 5))
      (regAt w 0))
  else if w.extractLsb 27 21 = 0b0001101#7 ∧ w.extractLsb 19 16 = 0#4 ∧ w.getLsbD 7 = false
      ∧ w.getLsbD 4 = true then
    .ok (.movRsr c (w.getLsbD 20) (regAt w 12) (regAt w 8) (ShiftType.ofBits (w.extractLsb 6 5)) (regAt w 0))
  else if w.extractLsb 27 21 = 0b0010100#7 then
    .ok (.addImm c (w.getLsbD 20) (regAt w 16) (regAt w 12) (w.extractLsb 11 8) (w.extractLsb 7 0))
  else if w.extractLsb 27 21 = 0b0000100#7 ∧ w.getLsbD 4 = false then
    .ok (.addReg c (w.getLsbD 20) (regAt w 16) (regAt w 12) (w.extractLsb 11 7)
      (ShiftType.ofBits (w.extractLsb 6 5)) (regAt w 0))
  else if w.extractLsb 27 21 = 0b0000100#7 ∧ w.getLsbD 7 = false ∧ w.getLsbD 4 = true then
    .ok (.addRsr c (w.getLsbD 20) (regAt w 16) (regAt w 12) (regAt w 8) (ShiftType.ofBits (w.extractLsb 6 5))
      (regAt w 0))
  else if w.extractLsb 27 21 = 0b0010010#7 then
    .ok (.subImm c (w.getLsbD 20) (regAt w 16) (regAt w 12) (w.extractLsb 11 8) (w.extractLsb 7 0))
  else if w.extractLsb 27 21 = 0b0000010#7 ∧ w.getLsbD 4 = false then
    .ok (.subReg c (w.getLsbD 20) (regAt w 16) (regAt w 12) (w.extractLsb 11 7)
      (ShiftType.ofBits (w.extractLsb 6 5)) (regAt w 0))
  else if w.extractLsb 27 21 = 0b0000010#7 ∧ w.getLsbD 7 = false ∧ w.getLsbD 4 = true then
    .ok (.subRsr c (w.getLsbD 20) (regAt w 16) (regAt w 12) (regAt w 8) (ShiftType.ofBits (w.extractLsb 6 5))
      (regAt w 0))
  else if w.extractLsb 27 20 = 0b00110101#8 ∧ w.extractLsb 15 12 = 0#4 then
    .ok (.cmpImm c (regAt w 16) (w.extractLsb 11 8) (w.extractLsb 7 0))
  else if w.extractLsb 27 20 = 0b00010101#8 ∧ w.extractLsb 15 12 = 0#4 ∧ w.getLsbD 4 = false then
    .ok (.cmpReg c (regAt w 16) (w.extractLsb 11 7) (ShiftType.ofBits (w.extractLsb 6 5)) (regAt w 0))
  else if w.extractLsb 27 20 = 0b00010101#8 ∧ w.extractLsb 15 12 = 0#4 ∧ w.getLsbD 7 = false
      ∧ w.getLsbD 4 = true then
    .ok (.cmpRsr c (regAt w 16) (regAt w 8) (ShiftType.ofBits (w.extractLsb 6 5)) (regAt w 0))
  else if w.extractLsb 27 25 = 0b011#3 ∧ w.getLsbD 4 = true then
    .ok (.undefined c (w.extractLsb 24 5) (w.extractLsb 3 0))
  else if w.extractLsb 27 25 = 0b100#3 ∧ w.getLsbD 22 = true ∧ w.getLsbD 20 = true ∧ w.getLsbD 15 = true then
    .ok (.ldmPcSpsr c (AddrMode.ofBits (w.extractLsb 24 23)) (w.getLsbD 21) (regAt w 16) (w.extractLsb 14 0))
  else if w.extractLsb 27 25 = 0b100#3 ∧ w.getLsbD 22 = true ∧ w.getLsbD 20 = true ∧ w.getLsbD 15 = false then
    .ok (.ldmUser c (AddrMode.ofBits (w.extractLsb 24 23)) (w.getLsbD 21) (regAt w 16) (w.extractLsb 14 0))
  else if w.extractLsb 27 25 = 0b100#3 ∧ w.getLsbD 22 = false ∧ w.getLsbD 20 = true then
    .ok (.ldm c (AddrMode.ofBits (w.extractLsb 24 23)) (w.getLsbD 21) (regAt w 16) (w.extractLsb 15 0))
  else if w.extractLsb 27 24 = 0b1010#4 then .ok (.b c (w.extractLsb 23 0))
  else if w.extractLsb 27 24 = 0b1011#4 then .ok (.bl c (w.extractLsb 23 0))
  else if w.extractLsb 27 24 = 0b1111#4 then .ok (.swi c (w.extractLsb 23 0))
  else .error .unspecifiedEncoding

/-- ARM state: the condition field first (R123: "a decoder must apply rule R92 first"), then the rows. -/
def decodeArm (w : Word) : Except DecodeError Instr :=
  match Cond.ofBits (w.extractLsb 31 28) with
  | none => .error .cond1111
  | some c => decodeArmRow c w

/-- Thumb state: the rows of R106 in the order of the opcode table. -/
def decodeThumb (h : Half) : Except DecodeError Instr :=
  if h.extractLsb 15 9 = 0b0001100#7 then .ok (.tAddReg (lowAt h 6) (lowAt h 3) (lowAt h 0))
  else if h.extractLsb 15 9 = 0b0001110#7 then .ok (.tAddImm3 (h.extractLsb 8 6) (lowAt h 3) (lowAt h 0))
  else if h.extractLsb 15 11 = 0b00100#5 then .ok (.tMovImm8 (lowAt h 8) (h.extractLsb 7 0))
  else if h.extractLsb 15 11 = 0b00101#5 then .ok (.tCmpImm8 (lowAt h 8) (h.extractLsb 7 0))
  else if h.extractLsb 15 11 = 0b00110#5 then .ok (.tAddImm8 (lowAt h 8) (h.extractLsb 7 0))
  else if h.extractLsb 15 6 = 0b0100001010#10 then .ok (.tCmpReg (lowAt h 3) (lowAt h 0))
  else if h.extractLsb 15 8 = 0b01000100#8 then .ok (.tAddHi (hiSource h) (hiDest h))
  else if h.extractLsb 15 8 = 0b01000101#8 then .ok (.tCmpHi (hiSource h) (hiDest h))
  else if h.extractLsb 15 8 = 0b01000110#8 then .ok (.tMovHi (hiSource h) (hiDest h))
  else if h.extractLsb 15 7 = 0b010001110#9 ∧ h.extractLsb 2 0 = 0#3 then .ok (.tBx (hiSource h))
  else if h.extractLsb 15 11 = 0b10100#5 then .ok (.tAddPc (lowAt h 8) (h.extractLsb 7 0))
  else if h.extractLsb 15 11 = 0b10101#5 then .ok (.tAddSp (lowAt h 8) (h.extractLsb 7 0))
  else if h.extractLsb 15 8 = 0b10110000#8 then .ok (.tAddSpImm7 (h.getLsbD 7) (h.extractLsb 6 0))
  else if h.extractLsb 15 11 = 0b11001#5 then .ok (.tLdmia (lowAt h 8) (h.extractLsb 7 0))
  else if h.extractLsb 15 8 = 0b11011110#8 then .ok (.tUndefined (h.extractLsb 7 0))
  else if h.extractLsb 15 8 = 0b11011111#8 then .ok (.tSwi (h.extractLsb 7 0))
  else if h.extractLsb 15 12 = 0b1101#4 then
    match Cond.ofBits (h.extractLsb 11 8) with
    | none => .error .unspecifiedEncoding
    | some c => .ok (.tBcond c (h.extractLsb 7 0))
  else if h.extractLsb 15 11 = 0b11100#5 then .ok (.tB (h.extractLsb 10 0))
  else if h.extractLsb 15 11 = 0b11110#5 then .ok (.tBlHi (h.extractLsb 10 0))
  else if h.extractLsb 15 11 = 0b11111#5 then .ok (.tBlLo (h.extractLsb 10 0))
  else .error .unspecifiedEncoding

/-- The instruction of a word or a halfword; which of the two the core decodes is the T bit's (R91). -/
def decode : Code → Except DecodeError Instr
  | .arm w => decodeArm w
  | .thumb h => decodeThumb h

/-! ## Bytes -/

/-- The number whose bytes stand at ascending addresses (R67): the first byte is the most significant in the
big-endian format (R64), the least significant in the little-endian one (R65). -/
def assembleBytes (bigEndian : Bool) (bytes : List Byte) : Nat :=
  (if bigEndian then bytes else bytes.reverse).foldl (fun acc b => acc * 256 + b.toNat) 0

/-- The low `n` bytes of `v` as they stand at ascending addresses, the inverse layout (R68). -/
def layoutBytes (bigEndian : Bool) (n : Nat) (v : Word) : List Byte :=
  (List.range n).map fun i => v.extractLsb' (8 * (if bigEndian then n - 1 - i else i)) 8

/-- The instruction whose bytes stand at ascending addresses (R71): four in ARM state, two in Thumb state; bytes
after them are not looked at. -/
def decodeBytes (bigEndian thumb : Bool) (bytes : List Byte) : Except DecodeError Instr :=
  let n := if thumb then 2 else 4
  if bytes.length < n then .error .truncated
  else
    let v := assembleBytes bigEndian (bytes.take n)
    decode (if thumb then .thumb (BitVec.ofNat 16 v) else .arm (BitVec.ofNat 32 v))

/-- The instruction this decoder reads from the opcode table's bits: 16 bits are a Thumb halfword, 32 an ARM
word. The bits are laid out as bytes and given to `decodeBytes`. The byte order laid out with is the one read
with, so either would do; 30_encoding.md gives instructions none of their own (R71). -/
def decodeTableWord (nbits w : Nat) : Option Instr :=
  let thumb := decide (nbits ≤ 16)
  let bytes := layoutBytes true (if thumb then 2 else 4) (BitVec.ofNat 32 w)
  (decodeBytes true thumb bytes).toOption

/-! ## Encoding -/

/-- The word or halfword of an instruction, written from the format rules R95 to R104 and R107 to R117. -/
def encode : Instr → Code
  | .bx c rm => .arm (c.bits ++ 0b000100101111111111110001#24 ++ regBits rm)
  | .mrs c p rd => .arm (c.bits ++ 0b00010#5 ++ BitVec.ofBool p.bit ++ 0b001111#6 ++ regBits rd ++ 0#12)
  | .msrReg c p f rm =>
    .arm (c.bits ++ 0b00010#5 ++ BitVec.ofBool p.bit ++ 0b10#2 ++ f.bits ++ 0b1111#4 ++ 0#8 ++ regBits rm)
  | .msrImm c p f rot imm8 =>
    .arm (c.bits ++ 0b00110#5 ++ BitVec.ofBool p.bit ++ 0b10#2 ++ f.bits ++ 0b1111#4 ++ rot ++ imm8)
  | .movImm c s rd rot imm8 =>
    .arm (c.bits ++ 0b0011101#7 ++ BitVec.ofBool s ++ 0#4 ++ regBits rd ++ rot ++ imm8)
  | .movReg c s rd n t rm =>
    .arm (c.bits ++ 0b0001101#7 ++ BitVec.ofBool s ++ 0#4 ++ regBits rd ++ n ++ t.bits ++ 0#1 ++ regBits rm)
  | .movRsr c s rd rs t rm =>
    .arm (c.bits ++ 0b0001101#7 ++ BitVec.ofBool s ++ 0#4 ++ regBits rd ++ regBits rs ++ 0#1 ++ t.bits ++ 1#1
      ++ regBits rm)
  | .addImm c s rn rd rot imm8 =>
    .arm (c.bits ++ 0b0010100#7 ++ BitVec.ofBool s ++ regBits rn ++ regBits rd ++ rot ++ imm8)
  | .addReg c s rn rd n t rm =>
    .arm (c.bits ++ 0b0000100#7 ++ BitVec.ofBool s ++ regBits rn ++ regBits rd ++ n ++ t.bits ++ 0#1
      ++ regBits rm)
  | .addRsr c s rn rd rs t rm =>
    .arm (c.bits ++ 0b0000100#7 ++ BitVec.ofBool s ++ regBits rn ++ regBits rd ++ regBits rs ++ 0#1 ++ t.bits
      ++ 1#1 ++ regBits rm)
  | .subImm c s rn rd rot imm8 =>
    .arm (c.bits ++ 0b0010010#7 ++ BitVec.ofBool s ++ regBits rn ++ regBits rd ++ rot ++ imm8)
  | .subReg c s rn rd n t rm =>
    .arm (c.bits ++ 0b0000010#7 ++ BitVec.ofBool s ++ regBits rn ++ regBits rd ++ n ++ t.bits ++ 0#1
      ++ regBits rm)
  | .subRsr c s rn rd rs t rm =>
    .arm (c.bits ++ 0b0000010#7 ++ BitVec.ofBool s ++ regBits rn ++ regBits rd ++ regBits rs ++ 0#1 ++ t.bits
      ++ 1#1 ++ regBits rm)
  | .cmpImm c rn rot imm8 => .arm (c.bits ++ 0b00110101#8 ++ regBits rn ++ 0#4 ++ rot ++ imm8)
  | .cmpReg c rn n t rm =>
    .arm (c.bits ++ 0b00010101#8 ++ regBits rn ++ 0#4 ++ n ++ t.bits ++ 0#1 ++ regBits rm)
  | .cmpRsr c rn rs t rm =>
    .arm (c.bits ++ 0b00010101#8 ++ regBits rn ++ 0#4 ++ regBits rs ++ 0#1 ++ t.bits ++ 1#1 ++ regBits rm)
  | .undefined c hi lo => .arm (c.bits ++ 0b011#3 ++ hi ++ 1#1 ++ lo)
  | .ldmPcSpsr c m w rn list =>
    .arm (c.bits ++ 0b100#3 ++ m.bits ++ 1#1 ++ BitVec.ofBool w ++ 1#1 ++ regBits rn ++ 1#1 ++ list)
  | .ldmUser c m w rn list =>
    .arm (c.bits ++ 0b100#3 ++ m.bits ++ 1#1 ++ BitVec.ofBool w ++ 1#1 ++ regBits rn ++ 0#1 ++ list)
  | .ldm c m w rn list =>
    .arm (c.bits ++ 0b100#3 ++ m.bits ++ 0#1 ++ BitVec.ofBool w ++ 1#1 ++ regBits rn ++ list)
  | .b c imm24 => .arm (c.bits ++ 0b1010#4 ++ imm24)
  | .bl c imm24 => .arm (c.bits ++ 0b1011#4 ++ imm24)
  | .swi c imm24 => .arm (c.bits ++ 0b1111#4 ++ imm24)
  | .tAddReg rn rs rd => .thumb (0b0001100#7 ++ lowBits rn ++ lowBits rs ++ lowBits rd)
  | .tAddImm3 imm3 rs rd => .thumb (0b0001110#7 ++ imm3 ++ lowBits rs ++ lowBits rd)
  | .tMovImm8 rd imm8 => .thumb (0b00100#5 ++ lowBits rd ++ imm8)
  | .tCmpImm8 rd imm8 => .thumb (0b00101#5 ++ lowBits rd ++ imm8)
  | .tAddImm8 rd imm8 => .thumb (0b00110#5 ++ lowBits rd ++ imm8)
  | .tCmpReg rs rd => .thumb (0b0100001010#10 ++ lowBits rs ++ lowBits rd)
  | .tAddHi s d => .thumb (0b01000100#8 ++ (regBits d).extractLsb 3 3 ++ regBits s ++ (regBits d).extractLsb 2 0)
  | .tCmpHi s d => .thumb (0b01000101#8 ++ (regBits d).extractLsb 3 3 ++ regBits s ++ (regBits d).extractLsb 2 0)
  | .tMovHi s d => .thumb (0b01000110#8 ++ (regBits d).extractLsb 3 3 ++ regBits s ++ (regBits d).extractLsb 2 0)
  | .tBx s => .thumb (0b010001110#9 ++ regBits s ++ 0#3)
  | .tAddPc rd imm8 => .thumb (0b10100#5 ++ lowBits rd ++ imm8)
  | .tAddSp rd imm8 => .thumb (0b10101#5 ++ lowBits rd ++ imm8)
  | .tAddSpImm7 s imm7 => .thumb (0b10110000#8 ++ BitVec.ofBool s ++ imm7)
  | .tLdmia rb list => .thumb (0b11001#5 ++ lowBits rb ++ list)
  | .tUndefined imm8 => .thumb (0b11011110#8 ++ imm8)
  | .tSwi imm8 => .thumb (0b11011111#8 ++ imm8)
  | .tBcond c off => .thumb (0b1101#4 ++ c.bits ++ off)
  | .tB off => .thumb (0b11100#5 ++ off)
  | .tBlHi off => .thumb (0b11110#5 ++ off)
  | .tBlLo off => .thumb (0b11111#5 ++ off)

/-- The bytes of an instruction at ascending addresses (R68, R71). -/
def Code.bytes (bigEndian : Bool) : Code → List Byte
  | .arm w => layoutBytes bigEndian 4 w
  | .thumb h => layoutBytes bigEndian 2 (h.setWidth 32)

end Sys2Proof
end

