-- ==== Sys2Proof/Machine/Ops.lean ====
section
/-! DEFINITION. The named operations every meaning is written over: memory and the bus (20_memory.md), the banked
registers (10_state.md R21, R22), the PSRs (R29), advancing and writing the pc (R28, 40_branch.md R138), taking an
exception (60_exceptions.md R193, R230) and returning from one (41_data_processing.md R143). -/

namespace Sys2Proof.Machine

/-- What a meaning or a step answers. -/
abbrev Out := Host.Outcome State Fault Refusal

/-! ## Memory -/

/-- The byte at an address, or none where memory lists none (R60, R75). -/
def Memory.read : Memory → Nat → Option Byte
  | [], _ => none
  | (k, v) :: rest, a => if k = a then some v else Memory.read rest a

/-- The memory after a byte is put at an address; keeps the canonical form. -/
def Memory.write : Memory → Nat → Byte → Memory
  | [], a, b => [(a, b)]
  | (k, v) :: rest, a, b =>
    if a < k then (a, b) :: (k, v) :: rest
    else if a = k then (a, b) :: rest
    else (k, v) :: Memory.write rest a b

/-- The `n` bytes from an address up, if memory lists them all. -/
def Memory.readBytes (mem : Memory) : Nat → Nat → Option (List Byte)
  | _, 0 => some []
  | a, n + 1 =>
    match mem.read a, Memory.readBytes mem (a + 1) n with
    | some b, some bs => some (b :: bs)
    | _, _ => none

/-- The memory after bytes are put at ascending addresses. -/
def Memory.writeBytes : Memory → Nat → List Byte → Memory
  | mem, _, [] => mem
  | mem, a, b :: bs => Memory.writeBytes (mem.write a b) (a + 1) bs

/-- The memory after other bus masters wrote to it, oldest write first (R77). DESIGN CHOICE (log entry 6): R75 leaves
open whether memory can be remapped; here a foreign write changes a byte or adds one, and nothing removes an address. -/
def Memory.foreignWrites (mem : Memory) (writes : List (Word × Byte)) : Memory :=
  writes.foldl (fun m w => m.write w.1.toNat w.2) mem

/-! ## Accesses -/

/-- Why memory is accessed: the `kind` of R67. -/
inductive AccessKind where
  | fetch | data
deriving DecidableEq, Repr

/-- The access widths (R62). -/
inductive Width where
  | byte | halfword | word
deriving DecidableEq, Repr

/-- How many bytes a width has (R62). -/
def Width.bytes : Width → Nat
  | .byte => 1
  | .halfword => 2
  | .word => 4

/-- What a read answers: a value, the memory system's abort, or a stop. -/
inductive ReadResult where
  | value (v : Word) (s : State)
  | abort (s : State)
  | fault (r : Fault)
  | refused (r : Refusal)
deriving DecidableEq, Repr

/-- What a write answers. -/
inductive WriteResult where
  | written (s : State)
  | abort (s : State)
  | fault (r : Fault)
  | refused (r : Refusal)
deriving DecidableEq, Repr

/-- The refusal of a misaligned access (R70). -/
def AccessKind.misaligned : AccessKind → Refusal
  | .fetch => .misalignedPc
  | .data => .misalignedAccess

/-- One access meets the memory system: the foreign writes made before it land (R77), and the memory system says
whether it aborts the access (R82). -/
def State.busAccess (s : State) : Bool × State :=
  match s.bus with
  | [] => (false, s)
  | e :: rest => (e.abort, { s with bus := rest, mem := s.mem.foreignWrites e.writes })

/-- MemRead (R67), with the alignment refusal of R70, the end of the address space of R61, the abort of R82 and
the byte order of R64 and R65. A byte memory does not list faults (log entry 7). -/
def memRead (kind : AccessKind) (addr : Word) (width : Width) (s : State) : ReadResult :=
  if addr.toNat % width.bytes ≠ 0 then .refused kind.misaligned
  else if Config.addressEnd < addr.toNat + width.bytes then .refused .addressWrap
  else if s.busAccess.1 then .abort s.busAccess.2
  else
    match s.busAccess.2.mem.readBytes addr.toNat width.bytes with
    | none => .fault .absentMemory
    | some bs => .value (BitVec.ofNat 32 (assembleBytes s.bigEndian bs)) s.busAccess.2

/-- MemWrite (R68): the inverse layout, with the same alignment and abort checks as MemRead. No admitted
instruction uses it. A byte memory does not list faults, as in `memRead`; an aborted or faulting write changes no
byte (log entry 20). -/
def memWrite (addr : Word) (width : Width) (v : Word) (s : State) : WriteResult :=
  if addr.toNat % width.bytes ≠ 0 then .refused .misalignedAccess
  else if Config.addressEnd < addr.toNat + width.bytes then .refused .addressWrap
  else if s.busAccess.1 then .abort s.busAccess.2
  else
    match s.busAccess.2.mem.readBytes addr.toNat width.bytes with
    | none => .fault .absentMemory
    | some _ =>
      let s1 := s.busAccess.2
      .written { s1 with mem := s1.mem.writeBytes addr.toNat (layoutBytes s.bigEndian width.bytes v) }

/-! ## The general registers -/

/-- The contents of a physical register. -/
def Regs.get (r : Regs) : PhysReg → Word
  | .r0 => r.r0 | .r1 => r.r1 | .r2 => r.r2 | .r3 => r.r3 | .r4 => r.r4 | .r5 => r.r5 | .r6 => r.r6 | .r7 => r.r7
  | .r8 => r.r8 | .r9 => r.r9 | .r10 => r.r10 | .r11 => r.r11 | .r12 => r.r12
  | .r8Fiq => r.r8Fiq | .r9Fiq => r.r9Fiq | .r10Fiq => r.r10Fiq | .r11Fiq => r.r11Fiq | .r12Fiq => r.r12Fiq
  | .r13 => r.r13 | .r14 => r.r14
  | .r13Fiq => r.r13Fiq | .r14Fiq => r.r14Fiq
  | .r13Svc => r.r13Svc | .r14Svc => r.r14Svc
  | .r13Abt => r.r13Abt | .r14Abt => r.r14Abt
  | .r13Irq => r.r13Irq | .r14Irq => r.r14Irq
  | .r13Und => r.r13Und | .r14Und => r.r14Und
  | .pc => r.pc

/-- The registers after a physical register is written. -/
def Regs.set (r : Regs) (p : PhysReg) (v : Word) : Regs :=
  match p with
  | .r0 => { r with r0 := v } | .r1 => { r with r1 := v } | .r2 => { r with r2 := v } | .r3 => { r with r3 := v }
  | .r4 => { r with r4 := v } | .r5 => { r with r5 := v } | .r6 => { r with r6 := v } | .r7 => { r with r7 := v }
  | .r8 => { r with r8 := v } | .r9 => { r with r9 := v } | .r10 => { r with r10 := v }
  | .r11 => { r with r11 := v } | .r12 => { r with r12 := v }
  | .r8Fiq => { r with r8Fiq := v } | .r9Fiq => { r with r9Fiq := v } | .r10Fiq => { r with r10Fiq := v }
  | .r11Fiq => { r with r11Fiq := v } | .r12Fiq => { r with r12Fiq := v }
  | .r13 => { r with r13 := v } | .r14 => { r with r14 := v }
  | .r13Fiq => { r with r13Fiq := v } | .r14Fiq => { r with r14Fiq := v }
  | .r13Svc => { r with r13Svc := v } | .r14Svc => { r with r14Svc := v }
  | .r13Abt => { r with r13Abt := v } | .r14Abt => { r with r14Abt := v }
  | .r13Irq => { r with r13Irq := v } | .r14Irq => { r with r14Irq := v }
  | .r13Und => { r with r13Und := v } | .r14Und => { r with r14Und := v }
  | .pc => { r with pc := v }

/-- The R13 that exception mode `b` sees (R21). -/
def Bank.sp : Bank → PhysReg
  | .fiq => .r13Fiq | .svc => .r13Svc | .abt => .r13Abt | .irq => .r13Irq | .und => .r13Und

/-- The R14 that exception mode `b` sees, "R14_x" of R194 (R21). -/
def Bank.lr : Bank → PhysReg
  | .fiq => .r14Fiq | .svc => .r14Svc | .abt => .r14Abt | .irq => .r14Irq | .und => .r14Und

/-- The exception mode a bank belongs to (R21). -/
def Bank.mode : Bank → Mode
  | .fiq => .fiq | .svc => .supervisor | .abt => .abort | .irq => .irq | .und => .undefined

/-- The bank of a mode; User and System have none (R22, R36). -/
def Mode.bank? : Mode → Option Bank
  | .user => none | .fiq => some .fiq | .irq => some .irq | .supervisor => some .svc
  | .abort => some .abt | .undefined => some .und | .system => none

/-- The physical register a number names in a mode (R22, R23: the same in both operating states). -/
def phys (m : Mode) (i : Reg) : PhysReg :=
  match i.val with
  | 0 => .r0 | 1 => .r1 | 2 => .r2 | 3 => .r3 | 4 => .r4 | 5 => .r5 | 6 => .r6 | 7 => .r7
  | 8 => if m = .fiq then .r8Fiq else .r8
  | 9 => if m = .fiq then .r9Fiq else .r9
  | 10 => if m = .fiq then .r10Fiq else .r10
  | 11 => if m = .fiq then .r11Fiq else .r11
  | 12 => if m = .fiq then .r12Fiq else .r12
  | 13 => match m.bank? with
    | none => .r13
    | some b => b.sp
  | 14 => match m.bank? with
    | none => .r14
    | some b => b.lr
  | _ => .pc

/-- The contents of a physical register of the state. -/
def State.get (s : State) (p : PhysReg) : Word := s.regs.get p

/-- The state after a physical register is written. -/
def State.set (s : State) (p : PhysReg) (v : Word) : State := { s with regs := s.regs.set p v }

/-- The address of the instruction being executed (R26). -/
def State.pc (s : State) : Word := s.regs.pc

/-- The state with another pc. -/
def State.withPc (s : State) (v : Word) : State := { s with regs := { s.regs with pc := v } }

/-- Where the instruction being executed reads R15 from (R27): `pc + 8` in ARM state. -/
def armAhead : Word := 8#32

/-- R27: `pc + 12` in an ARM data-processing instruction with a register-specified shift amount. -/
def armShiftAhead : Word := 12#32

/-- R27: `pc + 4` in Thumb state. -/
def thumbAhead : Word := 4#32

/-- `x[i]` read as an operand (R7, R22, R27): register 15 reads ahead of the pc. -/
def State.x (s : State) (m : Mode) (ahead : Word) (i : Reg) : Word :=
  if i = 15 then s.pc + ahead else s.get (phys m i)

/-- `x[i] <- v` for a register other than 15 (R7: "`x[15] <- v` is never written this way"). -/
def State.setX (s : State) (m : Mode) (i : Reg) (v : Word) : State := s.set (phys m i) v

/-! ## The program status registers -/

/-- The mode of the bits M4..M0 (R33); the other 25 values are illegal (R34). -/
def Mode.ofBits (v : BitVec 5) : Option Mode :=
  match v.toNat with
  | 16 => some .user | 17 => some .fiq | 18 => some .irq | 19 => some .supervisor
  | 23 => some .abort | 27 => some .undefined | 31 => some .system
  | _ => none

/-- The bits M4..M0 of a mode (R33). -/
def Mode.bits : Mode → BitVec 5
  | .user => 0b10000#5 | .fiq => 0b10001#5 | .irq => 0b10010#5 | .supervisor => 0b10011#5
  | .abort => 0b10111#5 | .undefined => 0b11011#5 | .system => 0b11111#5

/-- The privileged modes: every mode but User (R33, R217). -/
def Mode.privileged : Mode → Bool
  | .user => false
  | .fiq | .irq | .supervisor | .abort | .undefined | .system => true

/-- The flags of a PSR, bits 31 to 28 (R29). -/
def psrFlags (p : Word) : Flags :=
  { n := p.getLsbD 31, z := p.getLsbD 30, c := p.getLsbD 29, v := p.getLsbD 28 }

/-- A PSR with other flags; bits 27:0 stay. -/
def psrWithFlags (p : Word) (f : Flags) : Word :=
  BitVec.ofBool f.n ++ BitVec.ofBool f.z ++ BitVec.ofBool f.c ++ BitVec.ofBool f.v ++ p.extractLsb 27 0

/-- The I bit, IRQ disable (R29, R31). -/
def psrI (p : Word) : Bool := p.getLsbD 7

/-- The F bit, FIQ disable (R29, R31). -/
def psrF (p : Word) : Bool := p.getLsbD 6

/-- The T bit, set in Thumb state (R29, R32). -/
def psrT (p : Word) : Bool := p.getLsbD 5

/-- The mode of a PSR, if its mode bits are legal (R29, R33). -/
def psrMode (p : Word) : Option Mode := Mode.ofBits (p.extractLsb 4 0)

/-- A PSR with another T bit; the other bits stay. -/
def psrWithT (p : Word) (t : Bool) : Word := p.extractLsb 31 6 ++ BitVec.ofBool t ++ p.extractLsb 4 0

/-- A PSR with its control bits written; bits 31:8 stay (R29). -/
def psrWithControl (p : Word) (i f t : Bool) (m : Mode) : Word :=
  p.extractLsb 31 8 ++ BitVec.ofBool i ++ BitVec.ofBool f ++ BitVec.ofBool t ++ m.bits

/-- The current mode, if legal (R33, R34). -/
def State.mode? (s : State) : Option Mode := psrMode s.cpsr

/-- The flags of the CPSR. -/
def State.flags (s : State) : Flags := psrFlags s.cpsr

/-- The state with another CPSR. -/
def State.withCpsr (s : State) (p : Word) : State := { s with cpsr := p }

/-- The state with other flags in its CPSR. -/
def State.withFlags (s : State) (f : Flags) : State := s.withCpsr (psrWithFlags s.cpsr f)

/-- The SPSR of an exception mode (R22, R36). -/
def State.spsr (s : State) : Bank → Word
  | .fiq => s.spsrs.fiq | .svc => s.spsrs.svc | .abt => s.spsrs.abt | .irq => s.spsrs.irq | .und => s.spsrs.und

/-- The state after the SPSR of an exception mode is written. -/
def State.setSpsr (s : State) (b : Bank) (v : Word) : State :=
  match b with
  | .fiq => { s with spsrs := { s.spsrs with fiq := v } }
  | .svc => { s with spsrs := { s.spsrs with svc := v } }
  | .abt => { s with spsrs := { s.spsrs with abt := v } }
  | .irq => { s with spsrs := { s.spsrs with irq := v } }
  | .und => { s with spsrs := { s.spsrs with und := v } }

/-- The state after `k` free values were drawn (log entry 4). -/
def State.drawn (s : State) (k : Nat) : State := { s with freeIndex := s.freeIndex + k }

/-! ## Where a meaning runs, and the pc -/

/-- Every meaning runs in the mode of the CPSR; with an illegal one no instruction executes (R34). -/
def inMode (s : State) (body : Mode → Out) : Out :=
  match s.mode? with
  | none => .fault .illegalMode
  | some m => body m

/-- R28: the pc moves past an instruction of `len` bytes, and is refused past the top of the address space. -/
def State.advance (s : State) (len : Nat) : Out :=
  if s.pc.toNat + len < Config.addressEnd then .next (s.withPc (s.pc + BitVec.ofNat 32 len))
  else .refused .pcWrap

/-- An ARM instruction (R93): the flags before it are tested; a failed condition only advances the pc. -/
def armInstr (cond : Cond) (s : State) (body : Mode → Out) : Out :=
  inMode s fun m => if condPasses cond s.flags then body m else s.advance 4

/-- A relative branch to `pc + offset`, computed as an unbounded integer and refused outside 0 to the last
instruction address (R130; Thumb: log entry 10). -/
def State.branchTo (s : State) (target : Int) (len : Nat) : Out :=
  if 0 ≤ target ∧ target ≤ Config.addressEnd - len then .next (s.withPc (BitVec.ofInt 32 target))
  else .refused .pcWrap

/-- A value written to the PC in ARM state: refused unless word-aligned (R138, R142). -/
def State.jumpArm (s : State) (target : Word) : Out :=
  if target.extractLsb 1 0 ≠ 0#2 then .refused .misalignedPc else .next (s.withPc target)

/-- A value written to the PC in Thumb state: bit 0 is cleared silently (R138). -/
def State.jumpThumb (s : State) (target : Word) : Out := .next (s.withPc (target &&& 0xFFFFFFFE#32))

/-- Branch and exchange to the value `v` (R132, R137): bit 0 becomes T, the rest is the target. -/
def State.branchExchange (s : State) (v : Word) : Out :=
  if v.getLsbD 0 = false ∧ v.getLsbD 1 = true then .refused .misalignedPc
  else .next ((s.withCpsr (psrWithT s.cpsr (v.getLsbD 0))).withPc (v &&& 0xFFFFFFFE#32))

/-! ## Exceptions -/

/-- The seven exceptions (R190). -/
inductive ExcKind where
  | reset | undef | swi | pabt | dabt | irq | fiq
deriving DecidableEq, Repr

/-- The vector of an exception (R191). -/
def ExcKind.vector : ExcKind → Word
  | .reset => 0x00#32 | .undef => 0x04#32 | .swi => 0x08#32 | .pabt => 0x0C#32 | .dabt => 0x10#32
  | .irq => 0x18#32 | .fiq => 0x1C#32

/-- The exception mode an exception enters (R192). -/
def ExcKind.bank : ExcKind → Bank
  | .reset => .svc | .undef => .und | .swi => .svc | .pabt => .abt | .dabt => .abt | .irq => .irq | .fiq => .fiq

/-- The priority of an exception, 1 the highest (R197). -/
def ExcKind.priority : ExcKind → Nat
  | .reset => 1 | .dabt => 2 | .fiq => 3 | .irq => 4 | .pabt => 5 | .undef => 6 | .swi => 6

/-- Whether entry sets the F bit (R195): Reset and FIQ do, the others leave it. -/
def ExcKind.setsF : ExcKind → Bool
  | .reset => true | .fiq => true
  | .undef => false | .swi => false | .pabt => false | .dabt => false | .irq => false

/-- What entry adds to the pc for the saved return address, by the previous operating state (R194). Reset has no
defined value there and uses none. -/
def ExcKind.linkOffset (e : ExcKind) (thumb : Bool) : Word :=
  match e with
  | .swi => if thumb then 2#32 else 4#32
  | .undef => if thumb then 2#32 else 4#32
  | .fiq => 4#32
  | .irq => 4#32
  | .pabt => 4#32
  | .dabt => 8#32
  | .reset => 0#32

/-- The CPSR after entry (R193, R195, R196): the mode of the exception, T clear, I set, F set for Reset and FIQ;
flags and reserved bits stay. -/
def ExcKind.entryPsr (e : ExcKind) (old : Word) : Word :=
  psrWithControl old true (e.setsF || psrF old) false e.bank.mode

/-- TakeException (R193): the return address into the banked R14 of the mode entered, the CPSR into its SPSR,
the new CPSR, the pc at the vector. Nothing else changes. -/
def State.takeException (s : State) (e : ExcKind) (link : Word) : State :=
  (((s.set e.bank.lr link).setSpsr e.bank s.cpsr).withCpsr (e.entryPsr s.cpsr)).withPc e.vector

/-- An exception raised by the instruction at the pc, or taken in front of it, with the link value of R194. -/
def State.raise (s : State) (e : ExcKind) (thumb : Bool) : State :=
  s.takeException e (s.pc + e.linkOffset thumb)

/-- TakeReset (R230): R14_svc, SPSR_svc, the flags and the reserved bits are unspecified, three free draws;
Supervisor mode, ARM state, I and F set, pc 0; every other register and memory stay. -/
def State.takeReset (s : State) : State :=
  ((((s.set Bank.svc.lr (Config.freeWord s.freeIndex)).setSpsr .svc (Config.freeWord (s.freeIndex + 1))).withCpsr
    (psrWithControl (Config.freeWord (s.freeIndex + 2)) true true false .supervisor)).withPc
    ExcKind.reset.vector).drawn 3

/-- Exception return (R143, R182, R210): the CPSR becomes the SPSR of the current mode, all 32 bits, and the pc
the target, which is tested in the state returned to. Refused in a mode with no SPSR. -/
def State.exceptionReturn (s : State) (m : Mode) (target : Word) : Out :=
  match m.bank? with
  | none => .refused .noSpsr
  | some b =>
    if psrT (s.spsr b) then .next ((s.withCpsr (s.spsr b)).withPc (target &&& 0xFFFFFFFE#32))
    else if target.extractLsb 1 0 ≠ 0#2 then .refused .misalignedPc
    else .next ((s.withCpsr (s.spsr b)).withPc target)

end Sys2Proof.Machine
end

