-- ==== Sys2Proof/Machine/Branch.lean ====
section
/-! DEFINITION. The branches: B, BL and BX in ARM state, B<cond>, B, the two halves of BL and BX in Thumb state
(40_branch.md R130 to R138). -/

namespace Sys2Proof.Machine

/-- BX (R132): R15 as the operand register is refused. -/
def execBx (cond : Cond) (rm : Reg) (s : State) : Out :=
  armInstr cond s fun m =>
    if rm = 15 then .refused .unpredictable else s.branchExchange (s.x m armAhead rm)

/-- B (R130). -/
def execB (cond : Cond) (imm24 : BitVec 24) (s : State) : Out :=
  armInstr cond s fun _ => s.branchTo (s.pc.toNat + 8 + armBranchOffset imm24) 4

/-- BL (R131): R14 receives `pc + 4`. -/
def execBl (cond : Cond) (imm24 : BitVec 24) (s : State) : Out :=
  armInstr cond s fun m =>
    (s.setX m 14 (s.pc + 4#32)).branchTo (s.pc.toNat + 8 + armBranchOffset imm24) 4

/-- T_Bcond (R133). -/
def execTBcond (cond : Cond) (soffset8 : BitVec 8) (s : State) : Out :=
  inMode s fun _ =>
    if condPasses cond s.flags then s.branchTo (s.pc.toNat + 4 + thumbCondOffset soffset8) 2
    else s.advance 2

/-- T_B (R134). -/
def execTB (offset11 : BitVec 11) (s : State) : Out :=
  inMode s fun _ => s.branchTo (s.pc.toNat + 4 + thumbBranchOffset offset11) 2

/-- T_BL_hi (R135): the first half only writes R14. DESIGN CHOICE (log entry 27): a sum outside the address space is
taken modulo 2^32, not refused. -/
def execTBlHi (offset11 : BitVec 11) (s : State) : Out :=
  inMode s fun m => (s.setX m 14 (s.pc + 4#32 + thumbBlHigh offset11)).advance 2

/-- T_BL_lo (R136): the second half branches relative to R14 and leaves `(pc + 2) OR 1` in it. DESIGN CHOICE (log
entry 27): R14 is unsigned in the range test, so an in-range call whose first half fell below 0 is refused. -/
def execTBlLo (offset11 : BitVec 11) (s : State) : Out :=
  inMode s fun m =>
    if (s.x m thumbAhead 14).getLsbD 0 then .refused .misalignedPc
    else
      (s.setX m 14 ((s.pc + 2#32) ||| 1#32)).branchTo
        ((s.x m thumbAhead 14).toNat + (thumbBlLow offset11).toNat) 2

/-- T_BX (R137): R15 reads `pc + 4`. -/
def execTBx (sreg : Reg) (s : State) : Out :=
  inMode s fun m => s.branchExchange (s.x m thumbAhead sreg)

end Sys2Proof.Machine
end

