-- ==== Sys2Proof/Machine/DataProcessing.lean ====
section
/-! DEFINITION. ARM data processing: MOV, ADD, SUB and CMP, each with an immediate, a register shifted by an
immediate amount, and a register shifted by a register amount (41_data_processing.md R140 to R147). -/

namespace Sys2Proof.Machine

/-- The destination of MOV, ADD and SUB (R140): a register other than R15, with the flags if S (R141); R15
without S, a branch (R142); R15 with S, an exception return (R143). -/
def writeResult (s : State) (m : Mode) (setFlags : Bool) (rd : Reg) (result : Word) (f : Flags) : Out :=
  if rd = 15 then
    if setFlags then s.exceptionReturn m result else s.jumpArm result
  else if setFlags then ((s.setX m rd result).withFlags f).advance 4
  else (s.setX m rd result).advance 4

/-- MOV of operand 2 (R144). -/
def movOp (s : State) (m : Mode) (setFlags : Bool) (rd : Reg) (op2 : Word × Bool) : Out :=
  writeResult s m setFlags rd op2.1 (moveFlags op2.1 op2.2 s.flags)

/-- ADD of a first operand and operand 2 (R145). -/
def addOp (s : State) (m : Mode) (setFlags : Bool) (rd : Reg) (a op2 : Word) : Out :=
  writeResult s m setFlags rd (addWithFlags a op2).1 (addWithFlags a op2).2

/-- SUB of operand 2 from a first operand (R146). -/
def subOp (s : State) (m : Mode) (setFlags : Bool) (rd : Reg) (a op2 : Word) : Out :=
  writeResult s m setFlags rd (subWithFlags a op2).1 (subWithFlags a op2).2

/-- CMP of a first operand with operand 2: the flags of the difference, no register (R147). -/
def cmpOp (s : State) (a op2 : Word) : Out := (s.withFlags (subWithFlags a op2).2).advance 4

/-- Operand 2 of the immediate form, with the carry of the CPSR (R96). -/
def State.op2Imm (s : State) (rot : BitVec 4) (imm8 : BitVec 8) : Word × Bool := operandImm rot imm8 s.flags.c

/-- Operand 2 of the register form: R15 reads `pc + 8` (R97). -/
def State.op2Reg (s : State) (m : Mode) (type : ShiftType) (shiftImm : BitVec 5) (rm : Reg) : Word × Bool :=
  operandShiftImm type shiftImm (s.x m armAhead rm) s.flags.c

/-- Operand 2 of the register-shifted form: R15 reads `pc + 12` (R98). -/
def State.op2Rsr (s : State) (m : Mode) (type : ShiftType) (rs rm : Reg) : Word × Bool :=
  operandShiftReg type (s.x m armShiftAhead rs) (s.x m armShiftAhead rm) s.flags.c

/-- The register-shifted form with R15 as the amount register is refused (R98). -/
def unlessPcAmount (rs : Reg) (body : Out) : Out := if rs = 15 then .refused .unpredictable else body

/-- MOV_imm (R144). -/
def execMovImm (cond : Cond) (setFlags : Bool) (rd : Reg) (rot : BitVec 4) (imm8 : BitVec 8) (s : State) : Out :=
  armInstr cond s fun m => movOp s m setFlags rd (s.op2Imm rot imm8)

/-- MOV_reg (R144). -/
def execMovReg (cond : Cond) (setFlags : Bool) (rd : Reg) (shiftImm : BitVec 5) (type : ShiftType) (rm : Reg)
    (s : State) : Out :=
  armInstr cond s fun m => movOp s m setFlags rd (s.op2Reg m type shiftImm rm)

/-- MOV_rsr (R144). -/
def execMovRsr (cond : Cond) (setFlags : Bool) (rd rs : Reg) (type : ShiftType) (rm : Reg) (s : State) : Out :=
  armInstr cond s fun m => unlessPcAmount rs (movOp s m setFlags rd (s.op2Rsr m type rs rm))

/-- ADD_imm (R145). -/
def execAddImm (cond : Cond) (setFlags : Bool) (rn rd : Reg) (rot : BitVec 4) (imm8 : BitVec 8)
    (s : State) : Out :=
  armInstr cond s fun m => addOp s m setFlags rd (s.x m armAhead rn) (s.op2Imm rot imm8).1

/-- ADD_reg (R145). -/
def execAddReg (cond : Cond) (setFlags : Bool) (rn rd : Reg) (shiftImm : BitVec 5) (type : ShiftType) (rm : Reg)
    (s : State) : Out :=
  armInstr cond s fun m => addOp s m setFlags rd (s.x m armAhead rn) (s.op2Reg m type shiftImm rm).1

/-- ADD_rsr (R145). -/
def execAddRsr (cond : Cond) (setFlags : Bool) (rn rd rs : Reg) (type : ShiftType) (rm : Reg) (s : State) : Out :=
  armInstr cond s fun m =>
    unlessPcAmount rs (addOp s m setFlags rd (s.x m armShiftAhead rn) (s.op2Rsr m type rs rm).1)

/-- SUB_imm (R146). -/
def execSubImm (cond : Cond) (setFlags : Bool) (rn rd : Reg) (rot : BitVec 4) (imm8 : BitVec 8)
    (s : State) : Out :=
  armInstr cond s fun m => subOp s m setFlags rd (s.x m armAhead rn) (s.op2Imm rot imm8).1

/-- SUB_reg (R146). -/
def execSubReg (cond : Cond) (setFlags : Bool) (rn rd : Reg) (shiftImm : BitVec 5) (type : ShiftType) (rm : Reg)
    (s : State) : Out :=
  armInstr cond s fun m => subOp s m setFlags rd (s.x m armAhead rn) (s.op2Reg m type shiftImm rm).1

/-- SUB_rsr (R146). -/
def execSubRsr (cond : Cond) (setFlags : Bool) (rn rd rs : Reg) (type : ShiftType) (rm : Reg) (s : State) : Out :=
  armInstr cond s fun m =>
    unlessPcAmount rs (subOp s m setFlags rd (s.x m armShiftAhead rn) (s.op2Rsr m type rs rm).1)

/-- CMP_imm (R147). -/
def execCmpImm (cond : Cond) (rn : Reg) (rot : BitVec 4) (imm8 : BitVec 8) (s : State) : Out :=
  armInstr cond s fun m => cmpOp s (s.x m armAhead rn) (s.op2Imm rot imm8).1

/-- CMP_reg (R147). -/
def execCmpReg (cond : Cond) (rn : Reg) (shiftImm : BitVec 5) (type : ShiftType) (rm : Reg) (s : State) : Out :=
  armInstr cond s fun m => cmpOp s (s.x m armAhead rn) (s.op2Reg m type shiftImm rm).1

/-- CMP_rsr (R147). -/
def execCmpRsr (cond : Cond) (rn rs : Reg) (type : ShiftType) (rm : Reg) (s : State) : Out :=
  armInstr cond s fun m => unlessPcAmount rs (cmpOp s (s.x m armShiftAhead rn) (s.op2Rsr m type rs rm).1)

end Sys2Proof.Machine
end

