-- ==== Sys2Proof/Machine/LoadMultiple.lean ====
section
/-! DEFINITION. Load multiple: LDM with S = 0, LDM with S = 1 and the PC (load and exception return), LDM with
S = 1 and no PC (load the User bank), and Thumb LDMIA (43_load_multiple.md R180 to R186). -/

namespace Sys2Proof.Machine

/-- The sixteen register numbers in ascending order. -/
def allRegs : List Reg := [0, 1, 2, 3, 4, 5, 6, 7, 8, 9, 10, 11, 12, 13, 14, 15]

/-- The registers of a list in ascending order (R102, R113, R180). -/
def regsOf (list : BitVec 16) : List Reg := allRegs.filter fun i => list.getLsbD i.val

/-- The lowest address read and the address written back, as unbounded integers, for `n` registers (R181). -/
def ldmRange (mode : AddrMode) (base : Word) (n : Nat) : Int × Int :=
  match mode with
  | .ia => (base.toNat, base.toNat + 4 * n)
  | .ib => (base.toNat + 4, base.toNat + 4 * n)
  | .da => (base.toNat - 4 * n + 4, base.toNat - 4 * n)
  | .db => (base.toNat - 4 * n, base.toNat - 4 * n)

/-- What the reads of a load multiple answer: the registers with their words, in ascending order; those read
before an abort; or a stop. -/
inductive LoadResult where
  | loaded (vals : List (Reg × Word)) (s : State)
  | aborted (vals : List (Reg × Word)) (s : State)
  | fault (r : Fault)
  | refused (r : Refusal)
deriving DecidableEq, Repr

/-- The word reads of a load multiple, one access a register at ascending addresses (R73, R180). -/
def loadWords : List Reg → Word → State → LoadResult
  | [], _, s => .loaded [] s
  | i :: rest, addr, s =>
    match memRead .data addr .word s with
    | .value v s1 =>
      match loadWords rest (addr + 4#32) s1 with
      | .loaded vals s2 => .loaded ((i, v) :: vals) s2
      | .aborted vals s2 => .aborted ((i, v) :: vals) s2
      | .fault r => .fault r
      | .refused r => .refused r
    | .abort s1 => .aborted [] s1
    | .fault r => .fault r
    | .refused r => .refused r

/-- Write the loaded words to their registers, R15 apart; `dest` says which physical register a number is. -/
def writeLoaded (dest : Reg → PhysReg) : List (Reg × Word) → State → State
  | [], s => s
  | (i, v) :: rest, s => writeLoaded dest rest (if i = 15 then s else s.set (dest i) v)

/-- After an abort, each register read before it holds the loaded or the old value, chosen by a bit of a free
value (R184, D24). -/
def writeSome (dest : Reg → PhysReg) (choice : Word) : List (Reg × Word) → State → State
  | [], s => s
  | (i, v) :: rest, s =>
    writeSome dest choice rest (if i ≠ 15 ∧ choice.getLsbD i.val = true then s.set (dest i) v else s)

/-- The word loaded for R15, if the list has it. -/
def loadedPc : List (Reg × Word) → Option Word
  | [] => none
  | (i, v) :: rest => if i = 15 then some v else loadedPc rest

/-- A data abort in a load multiple (R184): registers read before it unspecified, the base written back or put
back to `base` whatever was loaded into it, the CPSR not restored, then the Data Abort exception (R204). -/
def ldmAbort (s : State) (dest : Reg → PhysReg) (vals : List (Reg × Word)) (baseReg : PhysReg) (baseAfter : Word)
    (thumb : Bool) : State :=
  (((writeSome dest (Config.freeWord s.freeIndex) vals s).set baseReg baseAfter).drawn 1).raise .dabt thumb

/-- The part every load multiple shares (R180, R186): alignment of the base, the range of R181, the reads, the
abort, the write-back; `finish` gets the loaded words and the state with the write-back done. -/
def loadMultiple (s : State) (m : Mode) (mode : AddrMode) (wb : Bool) (rn : Reg) (regs : List Reg)
    (dest : Reg → PhysReg) (thumb : Bool) (finish : List (Reg × Word) → State → Out) : Out :=
  let base := s.get (phys m rn)
  let start := (ldmRange mode base regs.length).1
  let final := BitVec.ofInt 32 (ldmRange mode base regs.length).2
  if base.extractLsb 1 0 ≠ 0#2 then .refused .misalignedAccess
  else if start < 0 ∨ (Config.addressEnd : Int) < start + 4 * regs.length then .refused .addressWrap
  else
    match loadWords regs (BitVec.ofInt 32 start) s with
    | .loaded vals s1 => finish vals (if wb then s1.set (phys m rn) final else s1)
    | .aborted vals s1 => .next (ldmAbort s1 dest vals (phys m rn) (if wb then final else base) thumb)
    | .fault r => .fault r
    | .refused r => .refused r

/-- The refusals of R180 and R185 that the ARM forms share: an empty list, R15 as the base, write-back with the
base in the list. -/
def ldmRefused (wb : Bool) (rn : Reg) (list : BitVec 16) : Bool :=
  list == 0 || rn == 15 || (wb && list.getLsbD rn.val)

/-- LDM with S = 0 (R180): the loaded registers in the current mode, and a branch if R15 is loaded. -/
def execLdm (cond : Cond) (mode : AddrMode) (wb : Bool) (rn : Reg) (list : BitVec 16) (s : State) : Out :=
  armInstr cond s fun m =>
    if ldmRefused wb rn list then .refused .unpredictable
    else
      loadMultiple s m mode wb rn (regsOf list) (phys m) false fun vals s1 =>
        match loadedPc vals with
        | none => (writeLoaded (phys m) vals s1).advance 4
        | some target => (writeLoaded (phys m) vals s1).jumpArm target

/-- LDM with S = 1 and R15 in the list (R182): load and exception return. The list has R15 by its encoding, so the
words loaded always have one for it and the arm for none is never reached. -/
def execLdmPcSpsr (cond : Cond) (mode : AddrMode) (wb : Bool) (rn : Reg) (list : BitVec 15) (s : State) : Out :=
  armInstr cond s fun m =>
    if m.bank?.isNone then .refused .noSpsr
    else if ldmRefused wb rn (1#1 ++ list) then .refused .unpredictable
    else
      loadMultiple s m mode wb rn (regsOf (1#1 ++ list)) (phys m) false fun vals s1 =>
        match loadedPc vals with
        | none => .refused .unpredictable
        | some target => (writeLoaded (phys m) vals s1).exceptionReturn m target

/-- LDM with S = 1 and R15 not in the list (R183): the loaded words go to the User bank. -/
def execLdmUser (cond : Cond) (mode : AddrMode) (wb : Bool) (rn : Reg) (list : BitVec 15) (s : State) : Out :=
  armInstr cond s fun m =>
    if m.bank?.isNone || wb || ldmRefused wb rn (0#1 ++ list) then .refused .unpredictable
    else
      loadMultiple s m mode false rn (regsOf (0#1 ++ list)) (phys .user) false fun vals s1 =>
        (writeLoaded (phys .user) vals s1).advance 4

/-- T_LDMIA (R186): increment after with write-back; a loaded base keeps the loaded word. -/
def execTLdmia (rb : LowReg) (list : BitVec 8) (s : State) : Out :=
  inMode s fun m =>
    if list = 0 then .refused .unpredictable
    else
      loadMultiple s m .ia true (low rb) (regsOf (list.setWidth 16)) (phys m) true fun vals s1 =>
        (writeLoaded (phys m) vals s1).advance 2

end Sys2Proof.Machine
end

