-- ==== Sys2Proof/Machine/System.lean ====
section
/-! DEFINITION. The system instructions: MRS, MSR, SWI and the undefined instructions in both states
(42_system.md R170 to R177). -/

namespace Sys2Proof.Machine

/-- The bits an MSR writes (R175): `f` selects 31:28 and `c` 7:0; `s`, `x` and bits 27:24 select only reserved
bits, which are never written. -/
def msrMask (fields : PsrFields) : Word :=
  (if fields.f then 0xF0000000#32 else 0#32) ||| (if fields.c then 0x000000FF#32 else 0#32)

/-- The bits an MSR to the CPSR writes in a mode (R175): User mode cannot change the control bits. -/
def cpsrMask (m : Mode) (fields : PsrFields) : Word :=
  if m.privileged then msrMask fields else msrMask fields &&& 0xF0000000#32

/-- The bits of `new` under a mask, the bits of `old` elsewhere (R175). -/
def mergeBits (mask old new : Word) : Word := (old &&& ~~~mask) ||| (new &&& mask)

/-- The PSR write of R175. -/
def writePsr (s : State) (m : Mode) (psr : PsrName) (fields : PsrFields) (operand : Word) : Out :=
  match psr with
  | .cpsr =>
    if psrT (mergeBits (cpsrMask m fields) s.cpsr operand) ≠ psrT s.cpsr then .refused .unpredictable
    else (s.withCpsr (mergeBits (cpsrMask m fields) s.cpsr operand)).advance 4
  | .spsr =>
    match m.bank? with
    | none => .refused .noSpsr
    | some b => (s.setSpsr b (mergeBits (msrMask fields) (s.spsr b) operand)).advance 4

/-- MRS (R172). -/
def execMrs (cond : Cond) (psr : PsrName) (rd : Reg) (s : State) : Out :=
  armInstr cond s fun m =>
    if rd = 15 then .refused .unpredictable
    else
      match psr with
      | .cpsr => (s.setX m rd s.cpsr).advance 4
      | .spsr =>
        match m.bank? with
        | none => .refused .noSpsr
        | some b => (s.setX m rd (s.spsr b)).advance 4

/-- MSR_reg (R173). -/
def execMsrReg (cond : Cond) (psr : PsrName) (fields : PsrFields) (rm : Reg) (s : State) : Out :=
  armInstr cond s fun m =>
    if rm = 15 then .refused .unpredictable else writePsr s m psr fields (s.x m armAhead rm)

/-- MSR_imm (R174). -/
def execMsrImm (cond : Cond) (psr : PsrName) (fields : PsrFields) (rot : BitVec 4) (imm8 : BitVec 8)
    (s : State) : Out :=
  armInstr cond s fun m => writePsr s m psr fields (rotatedImm rot imm8)

/-- SWI (R170): the comment field reaches no register. -/
def execSwi (cond : Cond) (_imm24 : BitVec 24) (s : State) : Out :=
  armInstr cond s fun _ => .next (s.raise .swi false)

/-- UNDEFINED (R176): traps whatever the free bits are. -/
def execUndefined (cond : Cond) (_hi : BitVec 20) (_lo : BitVec 4) (s : State) : Out :=
  armInstr cond s fun _ => .next (s.raise .undef false)

/-- T_SWI (R171). -/
def execTSwi (_imm8 : BitVec 8) (s : State) : Out := inMode s fun _ => .next (s.raise .swi true)

/-- T_UNDEFINED (R177). -/
def execTUndefined (_imm8 : BitVec 8) (s : State) : Out := inMode s fun _ => .next (s.raise .undef true)

end Sys2Proof.Machine
end

