-- ==== Sys2Proof/Machine/ThumbData.lean ====
section
/-! DEFINITION. Thumb data processing: MOV, ADD and CMP in the forms of 41_data_processing.md R150 to R161. There
is no condition field and no S bit; each form says whether it writes the flags. -/

namespace Sys2Proof.Machine

/-- Write a low register and all four flags, then advance (R152, R153, R154). -/
def thumbResult (s : State) (m : Mode) (rd : LowReg) (r : Word × Flags) : Out :=
  ((s.setX m (low rd) r.1).withFlags r.2).advance 2

/-- Write the flags of a comparison, then advance (R159, R160, R161). -/
def thumbCompare (s : State) (a b : Word) : Out := (s.withFlags (subWithFlags a b).2).advance 2

/-- A high-register operation with two low registers is refused (R110). -/
def unlessLowPair (sreg d : Reg) (body : Out) : Out :=
  if highPair sreg d then body else .refused .undefinedCombination

/-- Write a register 0 to 15 of a high-register operation without flags (R151, R155): R15 is a branch in Thumb
state. -/
def thumbHighWrite (s : State) (m : Mode) (d : Reg) (v : Word) : Out :=
  if d = 15 then s.jumpThumb v else (s.setX m d v).advance 2

/-- T_ADD_reg (R152). -/
def execTAddReg (rn rs rd : LowReg) (s : State) : Out :=
  inMode s fun m => thumbResult s m rd (addWithFlags (s.x m thumbAhead (low rs)) (s.x m thumbAhead (low rn)))

/-- T_ADD_imm3 (R153). -/
def execTAddImm3 (imm3 : BitVec 3) (rs rd : LowReg) (s : State) : Out :=
  inMode s fun m => thumbResult s m rd (addWithFlags (s.x m thumbAhead (low rs)) (imm3.setWidth 32))

/-- T_MOV_imm8 (R150): N and Z are written, C and V stay. -/
def execTMovImm8 (rd : LowReg) (imm8 : BitVec 8) (s : State) : Out :=
  inMode s fun m =>
    thumbResult s m rd (imm8.setWidth 32, { s.flags with n := false, z := imm8 == 0 })

/-- T_CMP_imm8 (R159). -/
def execTCmpImm8 (rd : LowReg) (imm8 : BitVec 8) (s : State) : Out :=
  inMode s fun m => thumbCompare s (s.x m thumbAhead (low rd)) (imm8.setWidth 32)

/-- T_ADD_imm8 (R154). -/
def execTAddImm8 (rd : LowReg) (imm8 : BitVec 8) (s : State) : Out :=
  inMode s fun m => thumbResult s m rd (addWithFlags (s.x m thumbAhead (low rd)) (imm8.setWidth 32))

/-- T_CMP_reg (R160). -/
def execTCmpReg (rs rd : LowReg) (s : State) : Out :=
  inMode s fun m => thumbCompare s (s.x m thumbAhead (low rd)) (s.x m thumbAhead (low rs))

/-- T_ADD_hi (R155). -/
def execTAddHi (sreg d : Reg) (s : State) : Out :=
  inMode s fun m =>
    unlessLowPair sreg d (thumbHighWrite s m d (s.x m thumbAhead d + s.x m thumbAhead sreg))

/-- T_CMP_hi (R161). -/
def execTCmpHi (sreg d : Reg) (s : State) : Out :=
  inMode s fun m =>
    unlessLowPair sreg d
      (if d = 15 then .refused .unpredictable
       else thumbCompare s (s.x m thumbAhead d) (s.x m thumbAhead sreg))

/-- T_MOV_hi (R151). -/
def execTMovHi (sreg d : Reg) (s : State) : Out :=
  inMode s fun m => unlessLowPair sreg d (thumbHighWrite s m d (s.x m thumbAhead sreg))

/-- T_ADD_pc (R156): the pc read has bits 1:0 cleared. -/
def execTAddPc (rd : LowReg) (imm8 : BitVec 8) (s : State) : Out :=
  inMode s fun m =>
    (s.setX m (low rd) (((s.pc + thumbAhead) &&& 0xFFFFFFFC#32) + wordImm8 imm8)).advance 2

/-- T_ADD_sp (R157). -/
def execTAddSp (rd : LowReg) (imm8 : BitVec 8) (s : State) : Out :=
  inMode s fun m => (s.setX m (low rd) (s.x m thumbAhead 13 + wordImm8 imm8)).advance 2

/-- T_ADD_sp_imm7 (R158). -/
def execTAddSpImm7 (subtract : Bool) (imm7 : BitVec 7) (s : State) : Out :=
  inMode s fun m =>
    (s.setX m 13 (if subtract then s.x m thumbAhead 13 - wordImm7 imm7 else s.x m thumbAhead 13 + wordImm7 imm7)).advance 2

end Sys2Proof.Machine
end

