-- ==== Sys2Proof/Machine/Dispatch.lean ====
section
/-! DEFINITION. Executing an instruction: one direct call of its meaning for each constructor of Instr. -/

namespace Sys2Proof.Machine

def exec (i : Instr) (s : State) : Host.Outcome State Fault Refusal :=
  match i with
  | .bx cond rm => Sys2Proof.Machine.execBx cond rm s
  | .mrs cond psr rd => Sys2Proof.Machine.execMrs cond psr rd s
  | .msrReg cond psr fields rm => Sys2Proof.Machine.execMsrReg cond psr fields rm s
  | .msrImm cond psr fields rot imm8 => Sys2Proof.Machine.execMsrImm cond psr fields rot imm8 s
  | .movImm cond setFlags rd rot imm8 => Sys2Proof.Machine.execMovImm cond setFlags rd rot imm8 s
  | .movReg cond setFlags rd shiftImm type rm => Sys2Proof.Machine.execMovReg cond setFlags rd shiftImm type rm s
  | .movRsr cond setFlags rd rs type rm => Sys2Proof.Machine.execMovRsr cond setFlags rd rs type rm s
  | .addImm cond setFlags rn rd rot imm8 => Sys2Proof.Machine.execAddImm cond setFlags rn rd rot imm8 s
  | .addReg cond setFlags rn rd shiftImm type rm => Sys2Proof.Machine.execAddReg cond setFlags rn rd shiftImm type rm s
  | .addRsr cond setFlags rn rd rs type rm => Sys2Proof.Machine.execAddRsr cond setFlags rn rd rs type rm s
  | .subImm cond setFlags rn rd rot imm8 => Sys2Proof.Machine.execSubImm cond setFlags rn rd rot imm8 s
  | .subReg cond setFlags rn rd shiftImm type rm => Sys2Proof.Machine.execSubReg cond setFlags rn rd shiftImm type rm s
  | .subRsr cond setFlags rn rd rs type rm => Sys2Proof.Machine.execSubRsr cond setFlags rn rd rs type rm s
  | .cmpImm cond rn rot imm8 => Sys2Proof.Machine.execCmpImm cond rn rot imm8 s
  | .cmpReg cond rn shiftImm type rm => Sys2Proof.Machine.execCmpReg cond rn shiftImm type rm s
  | .cmpRsr cond rn rs type rm => Sys2Proof.Machine.execCmpRsr cond rn rs type rm s
  | .undefined cond hi lo => Sys2Proof.Machine.execUndefined cond hi lo s
  | .ldmPcSpsr cond mode wb rn list => Sys2Proof.Machine.execLdmPcSpsr cond mode wb rn list s
  | .ldmUser cond mode wb rn list => Sys2Proof.Machine.execLdmUser cond mode wb rn list s
  | .ldm cond mode wb rn list => Sys2Proof.Machine.execLdm cond mode wb rn list s
  | .b cond imm24 => Sys2Proof.Machine.execB cond imm24 s
  | .bl cond imm24 => Sys2Proof.Machine.execBl cond imm24 s
  | .swi cond imm24 => Sys2Proof.Machine.execSwi cond imm24 s
  | .tAddReg rn rs rd => Sys2Proof.Machine.execTAddReg rn rs rd s
  | .tAddImm3 imm3 rs rd => Sys2Proof.Machine.execTAddImm3 imm3 rs rd s
  | .tMovImm8 rd imm8 => Sys2Proof.Machine.execTMovImm8 rd imm8 s
  | .tCmpImm8 rd imm8 => Sys2Proof.Machine.execTCmpImm8 rd imm8 s
  | .tAddImm8 rd imm8 => Sys2Proof.Machine.execTAddImm8 rd imm8 s
  | .tCmpReg rs rd => Sys2Proof.Machine.execTCmpReg rs rd s
  | .tAddHi sreg d => Sys2Proof.Machine.execTAddHi sreg d s
  | .tCmpHi sreg d => Sys2Proof.Machine.execTCmpHi sreg d s
  | .tMovHi sreg d => Sys2Proof.Machine.execTMovHi sreg d s
  | .tBx sreg => Sys2Proof.Machine.execTBx sreg s
  | .tAddPc rd imm8 => Sys2Proof.Machine.execTAddPc rd imm8 s
  | .tAddSp rd imm8 => Sys2Proof.Machine.execTAddSp rd imm8 s
  | .tAddSpImm7 subtract imm7 => Sys2Proof.Machine.execTAddSpImm7 subtract imm7 s
  | .tLdmia rb list => Sys2Proof.Machine.execTLdmia rb list s
  | .tUndefined imm8 => Sys2Proof.Machine.execTUndefined imm8 s
  | .tSwi imm8 => Sys2Proof.Machine.execTSwi imm8 s
  | .tBcond cond soffset8 => Sys2Proof.Machine.execTBcond cond soffset8 s
  | .tB offset11 => Sys2Proof.Machine.execTB offset11 s
  | .tBlHi offset11 => Sys2Proof.Machine.execTBlHi offset11 s
  | .tBlLo offset11 => Sys2Proof.Machine.execTBlLo offset11 s

end Sys2Proof.Machine
end

