-- ==== Sys2Proof/Machine/Fetch.lean ====
section
/-! DEFINITION. The front of a step (00_scope.md R11, points 1 to 6): the requests, the illegal-mode state, the
interrupts, the fetch and the decoding. What is left of the step is to execute the instruction it answers. -/

namespace Sys2Proof.Machine

/-- What the front of a step answers: an instruction to execute in a state, or the outcome of a step that
executes none. -/
inductive Front where
  | execute (i : Instr) (s : State)
  | ended (o : Out)

/-- A decoder's rejection as the machine's refusal (R92, R105, R118). -/
def decodeRefusal : DecodeError → Refusal
  | .unspecifiedEncoding => .unspecifiedEncoding
  | .cond1111 => .cond1111
  | .truncated => .unspecifiedEncoding

/-- The width of an instruction in an operating state (R90). -/
def fetchWidth (thumb : Bool) : Width := if thumb then .halfword else .word

/-- A fetched value as an instruction's bits (R90, R91). -/
def fetchedCode (thumb : Bool) (v : Word) : Code := if thumb then .thumb (v.setWidth 16) else .arm v

/-- Fetch at the pc and decode (R71, R91): an aborted fetch takes Prefetch Abort (R203), and what the decoder
rejects is refused, never trapped (R105, R118). -/
def fetchDecode (s : State) : Front :=
  let thumb := psrT s.cpsr
  match memRead .fetch s.pc (fetchWidth thumb) s with
  | .abort s1 => .ended (.next (s1.raise .pabt thumb))
  | .fault r => .ended (.fault r)
  | .refused r => .ended (.refused r)
  | .value v s1 =>
    match decode (fetchedCode thumb v) with
    | .error e => .ended (.refused (decodeRefusal e))
    | .ok i => .execute i s1

/-- The requests of this step; none where the schedule has no entry (R11, R208). -/
def State.now (s : State) : Pins :=
  match s.pins with
  | [] => Pins.idle
  | p :: _ => p

/-- The state with this step's requests taken off the schedule. -/
def State.popPins (s : State) : State := { s with pins := s.pins.tail }

/-- R11, points 1 to 6, in order: Reset, the illegal-mode state, FIQ, IRQ, the fetch. -/
def frontOf (now : Pins) (s : State) : Front :=
  if now.reset then .ended (.next s.takeReset)
  else if s.mode?.isNone then .ended (.fault .illegalMode)
  else if now.fiq && !psrF s.cpsr then .ended (.next (s.raise .fiq (psrT s.cpsr)))
  else if now.irq && !psrI s.cpsr then .ended (.next (s.raise .irq (psrT s.cpsr)))
  else fetchDecode s

/-- The front of the step of a state. -/
def stepFront (s : State) : Front := frontOf s.now s.popPins

/-- The state with an instruction's bits laid out at the pc, its operating state selected, and a quiet step and a
quiet access put in front of the schedules. The pc stays; it must be aligned for that operating state. -/
def placeInstr (s : State) (thumb : Bool) (w : Word) : State :=
  { s with
    cpsr := psrWithT s.cpsr thumb
    mem := s.mem.writeBytes s.pc.toNat (layoutBytes s.bigEndian (fetchWidth thumb).bytes w)
    pins := Pins.idle :: s.pins
    bus := BusEvent.quiet :: s.bus }

end Sys2Proof.Machine
end

