-- ==== Sys2Proof/Machine/Step.lean ====
section
/-! DEFINITION. One step of the machine (00_scope.md R11), and the placing of an instruction where the next step
fetches it. -/

namespace Sys2Proof.Machine

/-- One step (R2, R11): one instruction executed or one exception taken. -/
def step (s : State) : Host.Outcome State Fault Refusal :=
  match stepFront s with
  | .ended o => o
  | .execute i s1 => exec i s1

/-- `s` with the instruction of the opcode table's bits `w` stored at its pc, so that the next step fetches and
runs it: up to 16 bits are a Thumb halfword, more an ARM word; T is set to match, the bytes stand in the state's
memory format, and the next step and access are quiet. Nothing else changes (log entry 7). -/
def State.withFetchWord (s : State) (nbits w : Nat) : State :=
  placeInstr s (decide (nbits ≤ 16)) (BitVec.ofNat 32 w)

end Sys2Proof.Machine
end

