-- ==== Sys2Proof/Safety.lean ====
section
/-! DEFINITION. What claims are said in: the invariant of the machine's states, what a step's accesses find in
memory, exception entry field by field, the shape of a load multiple, and the tables of what an instruction may
write. Nothing of the model uses this file. -/

namespace Sys2Proof.Machine

/-! ## States -/

/-- The pc stands where the operating state's instructions do (R26): on a word in ARM state, on a halfword in
Thumb state. -/
abbrev State.pcAligned (s : State) : Prop :=
  s.pc.toNat % (fetchWidth (psrT s.cpsr)).bytes = 0

/-- The invariant every step keeps: memory in its canonical form inside the address space (R61), and the pc
aligned for the operating state (R26). The mode bits are no part of it: MSR or an exception return may make them
illegal (R34). -/
abbrev State.Inv (s : State) : Prop := s.mem.wf ∧ s.pcAligned

/-- The pc can move past an instruction of `len` bytes (R28). -/
abbrev State.canAdvance (s : State) (len : Nat) : Prop := s.pc.toNat + len < Config.addressEnd

/-- No request is taken at this step: no reset, and every requested interrupt is disabled (R11, R31). -/
abbrev State.undisturbed (s : State) : Prop :=
  s.now.reset = false ∧ (s.now.fiq = true → psrF s.cpsr = true) ∧ (s.now.irq = true → psrI s.cpsr = true)

/-- The state whose next step sees the requests `p`, the rest of the schedule as it was. -/
def State.withNow (s : State) (p : Pins) : State := { s with pins := p :: s.pins.tail }

/-! ## What accesses find -/

/-- Memory as access number `k` of a step leaves it (from 0 on: `memAfter 0` is memory before any access), with the
foreign writes of the first `k` bus events done (R73, R77). -/
def State.memAfter (s : State) (k : Nat) : Memory :=
  (s.bus.take k).foldl (fun mem e => mem.foreignWrites e.writes) s.mem

/-- Whether the memory system aborts access number `k` of a step, counted from 0 (R82). -/
def State.abortsAt (s : State) (k : Nat) : Bool :=
  match s.bus[k]? with
  | some e => e.abort
  | none => false

/-- The word at a byte address: first byte most significant (R64) or least significant (R65). -/
def wordAt (mem : Memory) (bigEndian : Bool) (a : Nat) : Option Word :=
  match mem.read a, mem.read (a + 1), mem.read (a + 2), mem.read (a + 3) with
  | some b0, some b1, some b2, some b3 =>
    some (if bigEndian then b0 ++ b1 ++ b2 ++ b3 else b3 ++ b2 ++ b1 ++ b0)
  | _, _, _, _ => none

/-- The halfword at a byte address (R64, R65, R66). -/
def halfAt (mem : Memory) (bigEndian : Bool) (a : Nat) : Option Half :=
  match mem.read a, mem.read (a + 1) with
  | some b0, some b1 => some (if bigEndian then b0 ++ b1 else b1 ++ b0)
  | _, _ => none

/-- The instruction bits the next fetch finds at the pc (R71, R91). -/
def State.codeAtPc (s : State) : Option Code :=
  if psrT s.cpsr then (halfAt (s.memAfter 1) s.bigEndian s.pc.toNat).map .thumb
  else (wordAt (s.memAfter 1) s.bigEndian s.pc.toNat).map .arm

/-- The state a fetch leaves: this step's requests and the access's bus event are used up, and the foreign writes of
that event are in memory. Registers and PSRs stay. -/
def State.fetched (s : State) : State :=
  { s with pins := s.pins.tail, bus := s.bus.tail, mem := s.memAfter 1 }

/-! ## Exceptions -/

/-- `t` is `s` with exception `e` taken, register by register and PSR by PSR (R193): the link value in the R14 of
the mode entered, the old CPSR in its SPSR, the mode, T clear, I set, F set for Reset and FIQ, every other bit of
the CPSR and every other register and SPSR as before, and the pc at the vector. -/
def EnteredBy (e : ExcKind) (link : Word) (s t : State) : Prop :=
  t.pc = e.vector ∧ t.get e.bank.lr = link ∧
    (∀ p, p ≠ .pc → p ≠ e.bank.lr → t.get p = s.get p) ∧
    t.spsr e.bank = s.cpsr ∧ (∀ b, b ≠ e.bank → t.spsr b = s.spsr b) ∧
    t.mode? = some e.bank.mode ∧ psrT t.cpsr = false ∧ psrI t.cpsr = true ∧
    psrF t.cpsr = (psrF s.cpsr || decide (e = .reset ∨ e = .fiq)) ∧
    ∀ k, 8 ≤ k → t.cpsr.getLsbD k = s.cpsr.getLsbD k

/-- `t` is back where `s` was (R210): its pc, its CPSR (mode, masks, T and flags), while the registers and SPSRs
are those of `h`, the handler's state. -/
def ResumedAt (s h t : State) : Prop :=
  t.pc = s.pc ∧ t.cpsr = s.cpsr ∧ (∀ p, p ≠ .pc → t.get p = h.get p) ∧ t.spsrs = h.spsrs ∧ t.mem = h.mem

/-- Nothing of memory, of the schedules and of the free values differs. -/
def SameOutside (s t : State) : Prop :=
  t.mem = s.mem ∧ t.bigEndian = s.bigEndian ∧ t.pins = s.pins ∧ t.bus = s.bus ∧ t.freeIndex = s.freeIndex

/-! ## What an instruction answers -/

/-- The state after a data-processing result `v` with flags `f` for a register other than R15 (R140, R141). -/
def afterResult (s : State) (m : Mode) (setFlags : Bool) (rd : Reg) (v : Word) (f : Flags) : State :=
  (if setFlags then (s.setX m rd v).withFlags f else s.setX m rd v).withPc (s.pc + 4#32)

/-- The outcome is a branch in ARM state to `v`, or the refusal of a target off a word boundary (R142). -/
def BranchesTo (o : Out) (s : State) (v : Word) : Prop :=
  (v.toNat % 4 = 0 → o = .next (s.withPc v)) ∧ (v.toNat % 4 ≠ 0 → o = .refused .misalignedPc)

/-- The outcome is an exception return to `v` from mode `m` (R143): the CPSR from the mode's SPSR, the target tested
in the state returned to; refused in a mode with no SPSR. -/
def ReturnsTo (o : Out) (s : State) (m : Mode) (v : Word) : Prop :=
  (m.bank? = none → o = .refused .noSpsr) ∧
    ∀ b, m.bank? = some b →
      (psrT (s.spsr b) = true → o = .next ((s.withCpsr (s.spsr b)).withPc (v &&& 0xFFFFFFFE#32))) ∧
      (psrT (s.spsr b) = false → v.toNat % 4 = 0 → o = .next ((s.withCpsr (s.spsr b)).withPc v)) ∧
      (psrT (s.spsr b) = false → v.toNat % 4 ≠ 0 → o = .refused .misalignedPc)

/-! ## Load multiple -/

/-- The operands of a load multiple in one shape (R102, R113): `userBank` is the form of R183. -/
structure LoadShape where
  mode : AddrMode
  wb : Bool
  rn : Reg
  list : BitVec 16
  userBank : Bool
deriving DecidableEq, Repr

/-- The load multiples and their operands. -/
def loadShape : Instr → Option LoadShape
  | .ldm _ mode wb rn list => some { mode, wb, rn, list, userBank := false }
  | .ldmPcSpsr _ mode wb rn list => some { mode, wb, rn, list := 1#1 ++ list, userBank := false }
  | .ldmUser _ mode wb rn list => some { mode, wb, rn, list := 0#1 ++ list, userBank := true }
  | .tLdmia rb list => some { mode := .ia, wb := true, rn := low rb, list := list.setWidth 16, userBank := false }
  | .bx _ _ | .mrs _ _ _ | .msrReg _ _ _ _ | .msrImm _ _ _ _ _ | .movImm _ _ _ _ _ | .movReg _ _ _ _ _ _
  | .movRsr _ _ _ _ _ _ | .addImm _ _ _ _ _ _ | .addReg _ _ _ _ _ _ _ | .addRsr _ _ _ _ _ _ _
  | .subImm _ _ _ _ _ _ | .subReg _ _ _ _ _ _ _ | .subRsr _ _ _ _ _ _ _ | .cmpImm _ _ _ _
  | .cmpReg _ _ _ _ _ | .cmpRsr _ _ _ _ _ | .undefined _ _ _ | .b _ _ | .bl _ _ | .swi _ _
  | .tAddReg _ _ _ | .tAddImm3 _ _ _ | .tMovImm8 _ _ | .tCmpImm8 _ _ | .tAddImm8 _ _ | .tCmpReg _ _
  | .tAddHi _ _ | .tCmpHi _ _ | .tMovHi _ _ | .tBx _ | .tAddPc _ _ | .tAddSp _ _ | .tAddSpImm7 _ _
  | .tUndefined _ | .tSwi _ | .tBcond _ _ | .tB _ | .tBlHi _ | .tBlLo _ => none

namespace LoadShape

/-- How many registers are listed (popcount, R181). -/
def count (l : LoadShape) : Nat := (List.range 16).countP fun i => l.list.getLsbD i

/-- How many registers below `i` are listed: the position of `i`'s word among those read (R180). -/
def rank (l : LoadShape) (i : Reg) : Nat := (List.range i.val).countP fun j => l.list.getLsbD j

/-- The base register's value (R180). -/
def base (l : LoadShape) (s : State) (m : Mode) : Word := s.get (phys m l.rn)

/-- The lowest address read (R181). -/
def start (l : LoadShape) (s : State) (m : Mode) : Int :=
  match l.mode with
  | .ia => (l.base s m).toNat
  | .ib => (l.base s m).toNat + 4
  | .da => (l.base s m).toNat - 4 * l.count + 4
  | .db => (l.base s m).toNat - 4 * l.count

/-- The address written back (R181), modulo 2^32 (log entry 12). -/
def final (l : LoadShape) (s : State) (m : Mode) : Word :=
  match l.mode with
  | .ia | .ib => l.base s m + BitVec.ofNat 32 (4 * l.count)
  | .da | .db => l.base s m - BitVec.ofNat 32 (4 * l.count)

/-- The physical register a listed number loads (R180, R183). -/
def dest (l : LoadShape) (m : Mode) (i : Reg) : PhysReg := if l.userBank then phys .user i else phys m i

/-- The word read for a listed register: number `rank` of the ascending words from `start` (R180), as the access
that reads it finds it. -/
def wordFor (l : LoadShape) (s : State) (m : Mode) (i : Reg) : Option Word :=
  wordAt (s.memAfter (l.rank i + 1)) s.bigEndian ((l.start s m).toNat + 4 * l.rank i)

/-- The base is word-aligned and the words lie inside the address space (R70, R181). -/
def inRange (l : LoadShape) (s : State) (m : Mode) : Prop :=
  (l.base s m).toNat % 4 = 0 ∧ 0 ≤ l.start s m ∧ l.start s m + 4 * l.count ≤ Config.addressEnd

/-- The first `k` word reads find memory and are not aborted. -/
def reads (l : LoadShape) (s : State) (m : Mode) (k : Nat) : Prop :=
  ∀ j, j < k → s.abortsAt j = false ∧
    (wordAt (s.memAfter (j + 1)) s.bigEndian ((l.start s m).toNat + 4 * j)).isSome = true

/-- The registers after a load multiple that read all its words (R180, R183, R186): every listed register but R15
holds its word, the base the final address where it is written back and not loaded, every other register its old
value (the pc apart); the SPSRs stay, and memory is what the accesses left. -/
def loaded (l : LoadShape) (s t : State) (m : Mode) : Prop :=
  (∀ i : Reg, l.list.getLsbD i.val = true → i ≠ 15 → l.wordFor s m i = some (t.get (l.dest m i))) ∧
    (l.wb = true → l.list.getLsbD l.rn.val = false → t.get (phys m l.rn) = l.final s m) ∧
    (∀ p, p ≠ .pc → (∀ i : Reg, l.list.getLsbD i.val = true → i ≠ 15 → p ≠ l.dest m i) →
      (l.wb = true → p ≠ phys m l.rn) → t.get p = s.get p) ∧
    t.spsrs = s.spsrs ∧ t.mem = s.memAfter l.count ∧ t.bus = s.bus.drop l.count ∧
    t.bigEndian = s.bigEndian ∧ t.pins = s.pins ∧ t.freeIndex = s.freeIndex

end LoadShape

/-! ## What an instruction may write -/

/-- Whether an instruction executed in mode `m` may write a physical register other than the pc: its destination,
its link register, its loaded and base registers, and the R14 of the mode an exception it raises enters. -/
def mayWrite (m : Mode) (i : Instr) (p : PhysReg) : Bool :=
  match i with
  | .movImm _ _ rd _ _ | .movReg _ _ rd _ _ _ | .movRsr _ _ rd _ _ _ | .addImm _ _ _ rd _ _
  | .addReg _ _ _ rd _ _ _ | .addRsr _ _ _ rd _ _ _ | .subImm _ _ _ rd _ _ | .subReg _ _ _ rd _ _ _
  | .subRsr _ _ _ rd _ _ _ | .mrs _ _ rd => p == phys m rd
  | .tAddReg _ _ rd | .tAddImm3 _ _ rd | .tMovImm8 rd _ | .tAddImm8 rd _ | .tAddPc rd _ | .tAddSp rd _ =>
    p == phys m (low rd)
  | .tAddHi _ d | .tMovHi _ d => p == phys m d
  | .tAddSpImm7 _ _ => p == phys m 13
  | .bl _ _ | .tBlHi _ | .tBlLo _ => p == phys m 14
  | .swi _ _ | .tSwi _ => p == .r14Svc
  | .undefined _ _ _ | .tUndefined _ => p == .r14Und
  | .ldm _ _ wb rn list =>
    allRegs.any (fun i => list.getLsbD i.val && p == phys m i) || (wb && p == phys m rn) || p == .r14Abt
  | .ldmPcSpsr _ _ wb rn list =>
    allRegs.any (fun i => list.getLsbD i.val && p == phys m i) || (wb && p == phys m rn) || p == .r14Abt
  | .ldmUser _ _ _ _ list => allRegs.any (fun i => list.getLsbD i.val && p == phys .user i) || p == .r14Abt
  | .tLdmia rb list =>
    allRegs.any (fun i => list.getLsbD i.val && p == phys m i) || p == phys m (low rb) || p == .r14Abt
  | .bx _ _ | .msrReg _ _ _ _ | .msrImm _ _ _ _ _ | .cmpImm _ _ _ _ | .cmpReg _ _ _ _ _ | .cmpRsr _ _ _ _ _
  | .b _ _ | .tCmpImm8 _ _ | .tCmpReg _ _ | .tCmpHi _ _ | .tBx _ | .tBcond _ _ | .tB _ => false

/-- Which of the flags an instruction may write, by the table of R162: all four from a result, N Z C of a move,
N Z of the Thumb move, all from an SPSR or an operand, or none. -/
inductive FlagEffect where
  | none | nz | nzc | all
deriving DecidableEq, Repr

/-- The table of R162. A data-processing instruction with S and R15 takes all flags from the SPSR. -/
def flagEffect : Instr → FlagEffect
  | .movImm _ S rd _ _ | .movReg _ S rd _ _ _ | .movRsr _ S rd _ _ _ =>
    if S then (if rd = 15 then .all else .nzc) else .none
  | .addImm _ S _ _ _ _ | .addReg _ S _ _ _ _ _ | .addRsr _ S _ _ _ _ _ | .subImm _ S _ _ _ _
  | .subReg _ S _ _ _ _ _ | .subRsr _ S _ _ _ _ _ => if S then .all else .none
  | .cmpImm _ _ _ _ | .cmpReg _ _ _ _ _ | .cmpRsr _ _ _ _ _ => .all
  | .ldmPcSpsr _ _ _ _ _ => .all
  | .msrReg _ psr fields _ | .msrImm _ psr fields _ _ => if psr = .cpsr ∧ fields.f = true then .all else .none
  | .tMovImm8 _ _ => .nz
  | .tAddReg _ _ _ | .tAddImm3 _ _ _ | .tAddImm8 _ _ | .tCmpImm8 _ _ | .tCmpReg _ _ | .tCmpHi _ _ => .all
  | .tMovHi _ _ | .tAddHi _ _ | .tAddPc _ _ | .tAddSp _ _ | .tAddSpImm7 _ _ => .none
  | .b _ _ | .bl _ _ | .bx _ _ | .swi _ _ | .mrs _ _ _ | .ldm _ _ _ _ _ | .ldmUser _ _ _ _ _ | .undefined _ _ _
  | .tBx _ | .tBcond _ _ | .tB _ | .tBlHi _ | .tBlLo _ | .tSwi _ | .tUndefined _ | .tLdmia _ _ => .none

/-- The data-processing instructions with R15 as destination and S set, and the load multiple of R182: the
exception returns (R143, R182, R210). -/
def isExceptionReturn : Instr → Bool
  | .movImm _ S rd _ _ | .movReg _ S rd _ _ _ | .movRsr _ S rd _ _ _ => S && rd == 15
  | .addImm _ S _ rd _ _ | .addReg _ S _ rd _ _ _ | .addRsr _ S _ rd _ _ _ => S && rd == 15
  | .subImm _ S _ rd _ _ | .subReg _ S _ rd _ _ _ | .subRsr _ S _ rd _ _ _ => S && rd == 15
  | .ldmPcSpsr _ _ _ _ _ => true
  | .bx _ _ | .mrs _ _ _ | .msrReg _ _ _ _ | .msrImm _ _ _ _ _ | .cmpImm _ _ _ _ | .cmpReg _ _ _ _ _
  | .cmpRsr _ _ _ _ _ | .undefined _ _ _ | .ldmUser _ _ _ _ _ | .ldm _ _ _ _ _ | .b _ _ | .bl _ _ | .swi _ _
  | .tAddReg _ _ _ | .tAddImm3 _ _ _ | .tMovImm8 _ _ | .tCmpImm8 _ _ | .tAddImm8 _ _ | .tCmpReg _ _
  | .tAddHi _ _ | .tCmpHi _ _ | .tMovHi _ _ | .tBx _ | .tAddPc _ _ | .tAddSp _ _ | .tAddSpImm7 _ _
  | .tLdmia _ _ | .tUndefined _ | .tSwi _ | .tBcond _ _ | .tB _ | .tBlHi _ | .tBlLo _ => false

/-- The exception an instruction's execution may enter (R201, R202, R204). -/
def mayRaise : Instr → Option ExcKind
  | .swi _ _ | .tSwi _ => some .swi
  | .undefined _ _ _ | .tUndefined _ => some .undef
  | .ldm _ _ _ _ _ | .ldmPcSpsr _ _ _ _ _ | .ldmUser _ _ _ _ _ | .tLdmia _ _ => some .dabt
  | .bx _ _ | .mrs _ _ _ | .msrReg _ _ _ _ | .msrImm _ _ _ _ _ | .movImm _ _ _ _ _ | .movReg _ _ _ _ _ _
  | .movRsr _ _ _ _ _ _ | .addImm _ _ _ _ _ _ | .addReg _ _ _ _ _ _ _ | .addRsr _ _ _ _ _ _ _
  | .subImm _ _ _ _ _ _ | .subReg _ _ _ _ _ _ _ | .subRsr _ _ _ _ _ _ _ | .cmpImm _ _ _ _
  | .cmpReg _ _ _ _ _ | .cmpRsr _ _ _ _ _ | .b _ _ | .bl _ _
  | .tAddReg _ _ _ | .tAddImm3 _ _ _ | .tMovImm8 _ _ | .tCmpImm8 _ _ | .tAddImm8 _ _ | .tCmpReg _ _
  | .tAddHi _ _ | .tCmpHi _ _ | .tMovHi _ _ | .tBx _ | .tAddPc _ _ | .tAddSp _ _ | .tAddSpImm7 _ _
  | .tBcond _ _ | .tB _ | .tBlHi _ | .tBlLo _ => none

/-- Bit `k` of the CPSR, a control or reserved bit, is one that an MSR to the CPSR in mode `m` selects (R175). -/
def msrSelects (m : Mode) (i : Instr) (k : Nat) : Bool :=
  match i with
  | .msrReg _ psr fields _ | .msrImm _ psr fields _ _ =>
    psr == .cpsr && fields.c && decide (k < 8) && decide (m ≠ .user)
  | .bx _ _ | .mrs _ _ _ | .movImm _ _ _ _ _ | .movReg _ _ _ _ _ _
  | .movRsr _ _ _ _ _ _ | .addImm _ _ _ _ _ _ | .addReg _ _ _ _ _ _ _ | .addRsr _ _ _ _ _ _ _
  | .subImm _ _ _ _ _ _ | .subReg _ _ _ _ _ _ _ | .subRsr _ _ _ _ _ _ _ | .cmpImm _ _ _ _
  | .cmpReg _ _ _ _ _ | .cmpRsr _ _ _ _ _ | .undefined _ _ _ | .ldmPcSpsr _ _ _ _ _ | .ldmUser _ _ _ _ _
  | .ldm _ _ _ _ _ | .b _ _ | .bl _ _ | .swi _ _
  | .tAddReg _ _ _ | .tAddImm3 _ _ _ | .tMovImm8 _ _ | .tCmpImm8 _ _ | .tAddImm8 _ _ | .tCmpReg _ _
  | .tAddHi _ _ | .tCmpHi _ _ | .tMovHi _ _ | .tBx _ | .tAddPc _ _ | .tAddSp _ _ | .tAddSpImm7 _ _
  | .tLdmia _ _ | .tUndefined _ | .tSwi _ | .tBcond _ _ | .tB _ | .tBlHi _ | .tBlLo _ => false

/-- Whether an instruction writes the SPSR of an exception mode in mode `m` without taking an exception: MSR to the
SPSR (R175). -/
def writesSpsr (m : Mode) (i : Instr) (b : Bank) : Bool :=
  match i with
  | .msrReg _ psr _ _ | .msrImm _ psr _ _ _ => psr == .spsr && m.bank? == some b
  | .bx _ _ | .mrs _ _ _ | .movImm _ _ _ _ _ | .movReg _ _ _ _ _ _
  | .movRsr _ _ _ _ _ _ | .addImm _ _ _ _ _ _ | .addReg _ _ _ _ _ _ _ | .addRsr _ _ _ _ _ _ _
  | .subImm _ _ _ _ _ _ | .subReg _ _ _ _ _ _ _ | .subRsr _ _ _ _ _ _ _ | .cmpImm _ _ _ _
  | .cmpReg _ _ _ _ _ | .cmpRsr _ _ _ _ _ | .undefined _ _ _ | .ldmPcSpsr _ _ _ _ _ | .ldmUser _ _ _ _ _
  | .ldm _ _ _ _ _ | .b _ _ | .bl _ _ | .swi _ _
  | .tAddReg _ _ _ | .tAddImm3 _ _ _ | .tMovImm8 _ _ | .tCmpImm8 _ _ | .tAddImm8 _ _ | .tCmpReg _ _
  | .tAddHi _ _ | .tCmpHi _ _ | .tMovHi _ _ | .tBx _ | .tAddPc _ _ | .tAddSp _ _ | .tAddSpImm7 _ _
  | .tLdmia _ _ | .tUndefined _ | .tSwi _ | .tBcond _ _ | .tB _ | .tBlHi _ | .tBlLo _ => false

end Sys2Proof.Machine
end

