-- ==== Sys2Proof/Certificates/Slice0/Obligations.lean ====
section
/-! DEFINITION. The statements for the provers. Each docstring names the rules of spec/ it formalises, and the log
entry where a clause is the model's own choice or reading. -/

open Sys2Proof Sys2Proof.Machine

/-! ## Encoding -/

/-- R94 to R104, R106 to R117: decoding the encoding of a well-formed instruction gives it back, whatever its
fields. -/
def Obligations.DecodeEncodeAgree : Prop :=
  ∀ i : Instr, i.wellFormed = true → decode (encode i) = .ok i

/-- R91, R94, R106, R123: what decodes is well-formed, belongs to the set of the state it was decoded in, and is
encoded by exactly the word that was decoded: no two words are one instruction. -/
def Obligations.EncodeDecodeAgree : Prop :=
  ∀ (c : Code) (i : Instr), decode c = .ok i →
    i.wellFormed = true ∧ encode i = c ∧ (i.isThumb = true ↔ ∃ h, c = .thumb h)

/-- File 95: a few words of every family, written out by the spec, decode to what the spec says they are, and the
words of 2.9 and vectors A28 and A29 are refused as unspecified (R105, R118). -/
def Obligations.SpecWordsDecode : Prop :=
  decode (.arm 0x1AFFFFFC#32) = .ok (.b .ne 0xFFFFFC#24) ∧
  decode (.arm 0xEB000001#32) = .ok (.bl .al 1#24) ∧
  decode (.arm 0xE12FFF10#32) = .ok (.bx .al 0) ∧
  decode (.arm 0xE3A04A09#32) = .ok (.movImm .al false 4 0xA#4 0x09#8) ∧
  decode (.arm 0xE0910002#32) = .ok (.addReg .al true 1 0 0#5 .lsl 2) ∧
  decode (.arm 0xE25EF004#32) = .ok (.subImm .al true 14 15 0#4 4#8) ∧
  decode (.arm 0xE1510002#32) = .ok (.cmpReg .al 1 0#5 .lsl 2) ∧
  decode (.arm 0xE169F000#32) = .ok (.msrReg .al .spsr { f := true, s := false, x := false, c := true } 0) ∧
  decode (.arm 0xEF123456#32) = .ok (.swi .al 0x123456#24) ∧
  decode (.arm 0xE8FD800F#32) = .ok (.ldmPcSpsr .al .ia true 13 0x000F#15) ∧
  decode (.thumb 0x1888#16) = .ok (.tAddReg 2 1 0) ∧
  decode (.thumb 0x4688#16) = .ok (.tMovHi 1 8) ∧
  decode (.thumb 0xB084#16) = .ok (.tAddSpImm7 true 4#7) ∧
  decode (.thumb 0xC806#16) = .ok (.tLdmia 0 0x06#8) ∧
  decode (.thumb 0xD003#16) = .ok (.tBcond .eq 3#8) ∧
  decode (.thumb 0xF87E#16) = .ok (.tBlLo 0x07E#11) ∧
  (∀ w ∈ [0xE5901000#32, 0xE0010392#32, 0xE0000001#32, 0xE8A4000E#32, 0xE1010092#32, 0xEE010F10#32, 0xE1D010B0#32,
      0xE3100001#32, 0xE3A11001#32, 0xE1501001#32], decode (.arm w) = .error .unspecifiedEncoding) ∧
  (∀ h ∈ [0x6801#16, 0xB500#16, 0xBD00#16, 0x0001#16, 0x1A40#16, 0x3801#16, 0x4008#16, 0x4780#16, 0xC006#16,
      0xE800#16, 0x4800#16], decode (.thumb h) = .error .unspecifiedEncoding)

/-- R104, R106 row 15, R119: the encodings that decode to the undefined instructions are exactly 011 with bit 4 set
under one of the fifteen conditions, and the halfwords 0xDE00 to 0xDEFF. -/
def Obligations.UndefinedEncodingsExact : Prop :=
  (∀ w : Word, (∃ c hi lo, decode (.arm w) = .ok (.undefined c hi lo)) ↔
    w.extractLsb 27 25 = 0b011#3 ∧ w.getLsbD 4 = true ∧ w.extractLsb 31 28 ≠ 0b1111#4) ∧
  (∀ h : Half, (∃ imm8, decode (.thumb h) = .ok (.tUndefined imm8)) ↔ h.extractLsb 15 8 = 0xDE#8)

/-- R92, R123: condition 1111 is refused before the rows are tried, and only it is refused so. -/
def Obligations.CondFieldDecidesFirst : Prop :=
  (∀ w : Word, decode (.arm w) = .error .cond1111 ↔ w.extractLsb 31 28 = 0b1111#4) ∧
  (∀ (w : Word) (i : Instr) (c : Cond), decode (.arm w) = .ok i → i.armCond = some c → c.bits = w.extractLsb 31 28)

/-! ## Memory -/

/-- R64 to R67, R71: what an aligned read of a word, a halfword and a byte returns in either format, fetch or data,
where the memory system does not abort it and memory lists the bytes. The spec gives the words of R64 and R65 from its
source; the halfwords and bytes (R64 to R66) are its derivation, one format for fetches and data its decision D3. The
record of what the memory system does is log entry 6. -/
def Obligations.ReadsFollowByteOrder : Prop :=
  ∀ (kind : AccessKind) (a : Word) (s : State), s.abortsAt 0 = false →
    (∀ v, a.toNat % 4 = 0 → wordAt (s.memAfter 1) s.bigEndian a.toNat = some v →
      memRead kind a .word s = .value v { s with bus := s.bus.tail, mem := s.memAfter 1 }) ∧
    (∀ v, a.toNat % 2 = 0 → halfAt (s.memAfter 1) s.bigEndian a.toNat = some v →
      memRead kind a .halfword s =
        .value (v.setWidth 32) { s with bus := s.bus.tail, mem := s.memAfter 1 }) ∧
    (∀ v, (s.memAfter 1).read a.toNat = some v →
      memRead kind a .byte s = .value (v.setWidth 32) { s with bus := s.bus.tail, mem := s.memAfter 1 })

/-- R70, R82, R75: a misaligned access is refused under the name of its kind and is no exception; an aligned one the
memory system aborts answers the abort; one to a byte memory does not list faults (log entry 7). -/
def Obligations.ReadsThatAnswerNoValue : Prop :=
  ∀ (kind : AccessKind) (a : Word) (w : Width) (s : State),
    (a.toNat % w.bytes ≠ 0 →
      memRead kind a w s = .refused (match kind with | .fetch => .misalignedPc | .data => .misalignedAccess)) ∧
    (a.toNat % w.bytes = 0 → s.abortsAt 0 = true →
      memRead kind a w s = .abort { s with bus := s.bus.tail, mem := s.memAfter 1 }) ∧
    (∀ k, a.toNat % w.bytes = 0 → s.abortsAt 0 = false → k < w.bytes → (s.memAfter 1).read (a.toNat + k) = none →
      memRead kind a w s = .fault .absentMemory)

/-- R67, R68: a write that is done is read back, changes no other byte and nothing outside memory and the bus, and
keeps the canonical form. No admitted instruction writes; the primitive is the spec's. That an absent byte faults and
an aborted write changes nothing is log entry 20. -/
def Obligations.WriteThenRead : Prop :=
  ∀ (a : Word) (w : Width) (v : Word) (s t : State), s.mem.wf → memWrite a w v s = .written t →
    t.mem.wf ∧ t.regs = s.regs ∧ t.cpsr = s.cpsr ∧ t.spsrs = s.spsrs ∧ t.bigEndian = s.bigEndian ∧
    t.pins = s.pins ∧ t.bus = s.bus.tail ∧ t.freeIndex = s.freeIndex ∧
    (∀ k, k < a.toNat ∨ a.toNat + w.bytes ≤ k → t.mem.read k = (s.memAfter 1).read k) ∧
    ∀ kind, memRead kind a w { t with bus := [] } =
      .value (v &&& BitVec.ofNat 32 (2 ^ (8 * w.bytes) - 1)) { t with bus := [] }

/-! ## Registers, modes, operands and flags -/

/-- R33: the seven values of the mode bits, their modes, which are privileged and which have an SPSR; every other
value is no mode. -/
def Obligations.ModeEncodingTable : Prop :=
  (∀ v : BitVec 5, Mode.ofBits v =
    if v = 0b10000#5 then some .user else if v = 0b10001#5 then some .fiq else if v = 0b10010#5 then some .irq
    else if v = 0b10011#5 then some .supervisor else if v = 0b10111#5 then some .abort
    else if v = 0b11011#5 then some .undefined else if v = 0b11111#5 then some .system else none) ∧
  (∀ m : Mode, Mode.ofBits m.bits = some m) ∧
  (∀ m : Mode, m.privileged = true ↔ m ≠ .user) ∧
  Mode.user.bank? = none ∧ Mode.system.bank? = none ∧ Mode.fiq.bank? = some .fiq ∧ Mode.irq.bank? = some .irq ∧
  Mode.supervisor.bank? = some .svc ∧ Mode.abort.bank? = some .abt ∧ Mode.undefined.bank? = some .und

/-- R21, R22: when two register numbers in two modes are one physical register: the same number, and it is R0 to R7,
R15, R8 to R12 with FIQ on both sides or neither, or R13 or R14 of modes that share a bank (User and System). So a
register written in a mode reads back there and disturbs no other number of that mode. -/
def Obligations.BankingRule : Prop :=
  (∀ (m n : Mode) (i j : Reg), phys m i = phys n j ↔
    i = j ∧ (i.val ≤ 7 ∨ i.val = 15 ∨ (8 ≤ i.val ∧ i.val ≤ 12 ∧ (m = .fiq ↔ n = .fiq)) ∨
      ((i.val = 13 ∨ i.val = 14) ∧ m.bank? = n.bank?))) ∧
  ∀ (s : State) (m : Mode) (ahead v : Word) (i j : Reg), i ≠ 15 →
    (s.setX m i v).x m ahead j = if j = i then v else s.x m ahead j

/-- R8, R145: the result and the flags of an addition in exact arithmetic. -/
def Obligations.AddFlagsExact : Prop :=
  ∀ a b : Word,
    (addWithFlags a b).1.toNat = (a.toNat + b.toNat) % 2 ^ 32 ∧
    ((addWithFlags a b).2.n = true ↔ (addWithFlags a b).1.toInt < 0) ∧
    ((addWithFlags a b).2.z = true ↔ (a.toNat + b.toNat) % 2 ^ 32 = 0) ∧
    ((addWithFlags a b).2.c = true ↔ 2 ^ 32 ≤ a.toNat + b.toNat) ∧
    ((addWithFlags a b).2.v = true ↔ ¬ (-2 ^ 31 ≤ a.toInt + b.toInt ∧ a.toInt + b.toInt < 2 ^ 31))

/-- R8, R146, R147, R92: after a subtraction or comparison of `a` with `b`, the result is the difference modulo
2^32 and each condition passes exactly on its relation between the two numbers, overflow or not. -/
def Obligations.CompareConditions : Prop :=
  ∀ a b : Word,
    ((subWithFlags a b).1.toInt - (a.toInt - b.toInt)) % 2 ^ 32 = 0 ∧
    (condPasses .eq (subWithFlags a b).2 = true ↔ a = b) ∧
    (condPasses .ne (subWithFlags a b).2 = true ↔ a ≠ b) ∧
    (condPasses .cs (subWithFlags a b).2 = true ↔ b.toNat ≤ a.toNat) ∧
    (condPasses .cc (subWithFlags a b).2 = true ↔ a.toNat < b.toNat) ∧
    (condPasses .mi (subWithFlags a b).2 = true ↔ (subWithFlags a b).1.toInt < 0) ∧
    (condPasses .pl (subWithFlags a b).2 = true ↔ 0 ≤ (subWithFlags a b).1.toInt) ∧
    (condPasses .vs (subWithFlags a b).2 = true ↔ ¬ (-2 ^ 31 ≤ a.toInt - b.toInt ∧ a.toInt - b.toInt < 2 ^ 31)) ∧
    (condPasses .vc (subWithFlags a b).2 = true ↔ (-2 ^ 31 ≤ a.toInt - b.toInt ∧ a.toInt - b.toInt < 2 ^ 31)) ∧
    (condPasses .hi (subWithFlags a b).2 = true ↔ b.toNat < a.toNat) ∧
    (condPasses .ls (subWithFlags a b).2 = true ↔ a.toNat ≤ b.toNat) ∧
    (condPasses .ge (subWithFlags a b).2 = true ↔ b.toInt ≤ a.toInt) ∧
    (condPasses .lt (subWithFlags a b).2 = true ↔ a.toInt < b.toInt) ∧
    (condPasses .gt (subWithFlags a b).2 = true ↔ b.toInt < a.toInt) ∧
    (condPasses .le (subWithFlags a b).2 = true ↔ a.toInt ≤ b.toInt) ∧
    condPasses .al (subWithFlags a b).2 = true

/-- R96: the immediate operand bit by bit, and its shifter carry. -/
def Obligations.RotatedImmediateBits : Prop :=
  ∀ (rot : BitVec 4) (imm8 : BitVec 8) (c : Bool),
    (∀ k, k < 32 → (operandImm rot imm8 c).1.getLsbD k =
      (decide ((k + 2 * rot.toNat) % 32 < 8) && imm8.getLsbD ((k + 2 * rot.toNat) % 32))) ∧
    (rot.toNat = 0 → (operandImm rot imm8 c).2 = c) ∧
    (rot.toNat ≠ 0 → (operandImm rot imm8 c).2 = (operandImm rot imm8 c).1.getLsbD 31)

/-- R97, row by row, in arithmetic: the operand and the shifter carry of a register shifted by an immediate amount,
where the amount 0 means no shift, 32, 32 and the rotate through carry. -/
def Obligations.ShiftByImmediateTable : Prop :=
  ∀ (s : State) (m : Mode) (rm : Reg) (sh : BitVec 5) (v : Word),
    v = (if rm = 15 then s.pc + 8#32 else s.get (phys m rm)) →
    (sh.toNat = 0 →
      s.op2Reg m .lsl sh rm = (v, s.flags.c) ∧
      s.op2Reg m .lsr sh rm = (0#32, v.getLsbD 31) ∧
      s.op2Reg m .asr sh rm = (if v.getLsbD 31 then 0xFFFFFFFF#32 else 0#32, v.getLsbD 31) ∧
      (s.op2Reg m .ror sh rm).1.toNat = s.flags.c.toNat * 2 ^ 31 + v.toNat / 2 ∧
      (s.op2Reg m .ror sh rm).2 = v.getLsbD 0) ∧
    (sh.toNat ≠ 0 →
      (s.op2Reg m .lsl sh rm).1.toNat = v.toNat * 2 ^ sh.toNat % 2 ^ 32 ∧
      (s.op2Reg m .lsl sh rm).2 = v.getLsbD (32 - sh.toNat) ∧
      (s.op2Reg m .lsr sh rm).1.toNat = v.toNat / 2 ^ sh.toNat ∧
      (s.op2Reg m .lsr sh rm).2 = v.getLsbD (sh.toNat - 1) ∧
      (s.op2Reg m .asr sh rm).1.toInt = v.toInt / 2 ^ sh.toNat ∧
      (s.op2Reg m .asr sh rm).2 = v.getLsbD (sh.toNat - 1) ∧
      (∀ k, k < 32 → (s.op2Reg m .ror sh rm).1.getLsbD k = v.getLsbD ((k + sh.toNat) % 32)) ∧
      (s.op2Reg m .ror sh rm).2 = v.getLsbD (sh.toNat - 1))

/-- R98, row by row, in arithmetic: the operand and the shifter carry of a register shifted by the low byte of
another, with R15 read as `pc + 12`. -/
def Obligations.ShiftByRegisterTable : Prop :=
  ∀ (s : State) (m : Mode) (rs rm : Reg) (v : Word) (n : Nat), rs ≠ 15 →
    v = (if rm = 15 then s.pc + 12#32 else s.get (phys m rm)) → n = (s.get (phys m rs)).toNat % 256 →
    (n = 0 → ∀ type, s.op2Rsr m type rs rm = (v, s.flags.c)) ∧
    (1 ≤ n → n ≤ 31 →
      (s.op2Rsr m .lsl rs rm).1.toNat = v.toNat * 2 ^ n % 2 ^ 32 ∧ (s.op2Rsr m .lsl rs rm).2 = v.getLsbD (32 - n) ∧
      (s.op2Rsr m .lsr rs rm).1.toNat = v.toNat / 2 ^ n ∧ (s.op2Rsr m .lsr rs rm).2 = v.getLsbD (n - 1) ∧
      (s.op2Rsr m .asr rs rm).1.toInt = v.toInt / 2 ^ n ∧ (s.op2Rsr m .asr rs rm).2 = v.getLsbD (n - 1)) ∧
    (n = 32 → s.op2Rsr m .lsl rs rm = (0#32, v.getLsbD 0) ∧ s.op2Rsr m .lsr rs rm = (0#32, v.getLsbD 31)) ∧
    (33 ≤ n → s.op2Rsr m .lsl rs rm = (0#32, false) ∧ s.op2Rsr m .lsr rs rm = (0#32, false)) ∧
    (32 ≤ n → s.op2Rsr m .asr rs rm = (if v.getLsbD 31 then 0xFFFFFFFF#32 else 0#32, v.getLsbD 31)) ∧
    (n ≠ 0 → n % 32 = 0 → s.op2Rsr m .ror rs rm = (v, v.getLsbD 31)) ∧
    (n % 32 ≠ 0 →
      (∀ k, k < 32 → (s.op2Rsr m .ror rs rm).1.getLsbD k = v.getLsbD ((k + n) % 32)) ∧
      (s.op2Rsr m .ror rs rm).2 = v.getLsbD (n % 32 - 1))

/-! ## The step -/

/-- R11 points 5 to 8, R71, R91: where no request is taken, the mode is legal, the pc aligned and the fetch not
aborted, a step is the execution of the instruction whose bits stand at the pc, in the state the fetch leaves: the
step's requests and the fetch's bus event used up, registers and PSRs as they were. The two schedules are log entries
5 and 6. -/
def Obligations.StepRunsDecoded : Prop :=
  ∀ (s : State) (c : Code) (i : Instr), s.undisturbed → s.mode?.isSome = true → s.pcAligned → s.abortsAt 0 = false →
    s.codeAtPc = some c → decode c = .ok i → step s = exec i s.fetched

/-- R105, R118, R92, R26, R70: what the decoder rejects is refused under its name, and a fetch at a misaligned pc is
refused; neither is an exception. -/
def Obligations.StepRefusesUnadmitted : Prop :=
  ∀ s : State, s.undisturbed → s.mode?.isSome = true →
    (¬ s.pcAligned → step s = .refused .misalignedPc) ∧
    (∀ c, s.pcAligned → s.abortsAt 0 = false → s.codeAtPc = some c →
      (decode c = .error .unspecifiedEncoding → step s = .refused .unspecifiedEncoding) ∧
      (decode c = .error .cond1111 → step s = .refused .cond1111))

/-- R31: a disabled interrupt is not taken: with I set the step is the same whether IRQ is requested or not, and
with F set whether FIQ is requested or not. -/
def Obligations.DisabledInterruptIgnored : Prop :=
  ∀ (s : State) (reset other : Bool),
    (psrI s.cpsr = true → step (s.withNow { reset := reset, fiq := other, irq := true }) =
      step (s.withNow { reset := reset, fiq := other, irq := false })) ∧
    (psrF s.cpsr = true → step (s.withNow { reset := reset, fiq := true, irq := other }) =
      step (s.withNow { reset := reset, fiq := false, irq := other }))

/-- R93: an ARM instruction whose condition fails does nothing but advance the pc, whatever it is; where the pc
cannot advance it is refused (R28). That a failed condition comes before the instruction's own refusals is log entry
9. -/
def Obligations.FailedConditionOnlyAdvances : Prop :=
  ∀ (i : Instr) (c : Cond) (s : State), i.armCond = some c → s.mode?.isSome = true →
    condPasses c s.flags = false →
    (s.canAdvance 4 → exec i s = .next (s.withPc (s.pc + 4#32))) ∧
    (¬ s.canAdvance 4 → exec i s = .refused .pcWrap)

/-- R34, R233, R230: with illegal mode bits no instruction executes and no interrupt is taken; the one step that is
enabled is Reset, and it leaves Supervisor mode. The stop is the fault illegalMode (log entry 8); that Reset enters
Supervisor mode is R230's decision D10 (log entry 24), and the request schedule is log entry 5. -/
def Obligations.IllegalModeOnlyResets : Prop :=
  ∀ s : State, s.mode? = none →
    (∀ i : Instr, exec i s = .fault .illegalMode) ∧
    (s.now.reset = false → step s = .fault .illegalMode) ∧
    (s.now.reset = true → ∃ t, step s = .next t ∧ t.mode? = some .supervisor)

/-! ## Exceptions -/

/-- R191, R196, R207: the vectors, none of them the reserved 0x14; after every entry the pc is at the vector, the core
in ARM state, and the previous T in the SPSR (Reset's SPSR apart, which R230 leaves unspecified). -/
def Obligations.VectorTable : Prop :=
  (ExcKind.reset.vector = 0x00#32 ∧ ExcKind.undef.vector = 0x04#32 ∧ ExcKind.swi.vector = 0x08#32 ∧
    ExcKind.pabt.vector = 0x0C#32 ∧ ExcKind.dabt.vector = 0x10#32 ∧ ExcKind.irq.vector = 0x18#32 ∧
    ExcKind.fiq.vector = 0x1C#32 ∧ ∀ e : ExcKind, e.vector ≠ 0x14#32) ∧
  (∀ (s : State) (e : ExcKind) (link : Word), (s.takeException e link).pc = e.vector ∧
    psrT (s.takeException e link).cpsr = false ∧ psrT ((s.takeException e link).spsr e.bank) = psrT s.cpsr) ∧
  ∀ s : State, s.takeReset.pc = ExcKind.reset.vector ∧ psrT s.takeReset.cpsr = false

/-- R193: TakeException for every exception and link value: everything it writes, and that nothing else changes. (The
interrupt masks on entry are the spec's decision D9, Reset's mode its D10 (log entry 24), the other modes its inference
R192; what the Reset step does in place of this is R230.) -/
def Obligations.ExceptionEntryState : Prop :=
  ∀ (s : State) (e : ExcKind) (link : Word),
    EnteredBy e link s (s.takeException e link) ∧ SameOutside s (s.takeException e link)

/-- R202: a SWI in either state enters Supervisor mode at 0x08 with R14_svc past the SWI and memory as it was, and
`MOVS PC, R14` there resumes after it. The I bit set on entry is the spec's decision D9 (log entry 24); link values wrap
modulo 2^32 (log entry 11). -/
def Obligations.SwiEntryAndReturn : Prop :=
  (∀ (s : State) (m : Mode) (c : Cond) (imm24 : BitVec 24), s.mode? = some m → condPasses c s.flags = true →
    ∃ t, exec (.swi c imm24) s = .next t ∧ EnteredBy .swi (s.pc + 4#32) s t ∧ SameOutside s t ∧
      t.mode? = some .supervisor ∧ t.pc = 0x08#32 ∧
      (psrT s.cpsr = false → s.pcAligned →
        ∃ u, exec (.movReg .al true 15 0#5 .lsl 14) t = .next u ∧ ResumedAt (s.withPc (s.pc + 4#32)) t u)) ∧
  (∀ (s : State) (m : Mode) (imm8 : BitVec 8), s.mode? = some m →
    ∃ t, exec (.tSwi imm8) s = .next t ∧ EnteredBy .swi (s.pc + 2#32) s t ∧ SameOutside s t ∧
      t.mode? = some .supervisor ∧ t.pc = 0x08#32 ∧
      (psrT s.cpsr = true → s.pcAligned →
        ∃ u, exec (.movReg .al true 15 0#5 .lsl 14) t = .next u ∧ ResumedAt (s.withPc (s.pc + 2#32)) t u)) ∧
  ExcKind.swi.priority = 6

/-- R176, R177, R201: the undefined instructions trap in either state whatever their free bits, and `MOVS PC, R14`
resumes after them. The I bit set on entry is the spec's decision D9 (log entry 24); link values wrap modulo 2^32 (log
entry 11). -/
def Obligations.UndefinedEntryAndReturn : Prop :=
  (∀ (s : State) (m : Mode) (c : Cond) (hi : BitVec 20) (lo : BitVec 4), s.mode? = some m →
    condPasses c s.flags = true →
    ∃ t, exec (.undefined c hi lo) s = .next t ∧ EnteredBy .undef (s.pc + 4#32) s t ∧ SameOutside s t ∧
      t.mode? = some .undefined ∧ t.pc = 0x04#32 ∧
      (psrT s.cpsr = false → s.pcAligned →
        ∃ u, exec (.movReg .al true 15 0#5 .lsl 14) t = .next u ∧ ResumedAt (s.withPc (s.pc + 4#32)) t u)) ∧
  (∀ (s : State) (m : Mode) (imm8 : BitVec 8), s.mode? = some m →
    ∃ t, exec (.tUndefined imm8) s = .next t ∧ EnteredBy .undef (s.pc + 2#32) s t ∧ SameOutside s t ∧
      t.mode? = some .undefined ∧ t.pc = 0x04#32 ∧
      (psrT s.cpsr = true → s.pcAligned →
        ∃ u, exec (.movReg .al true 15 0#5 .lsl 14) t = .next u ∧ ResumedAt (s.withPc (s.pc + 2#32)) t u))

/-- R205: an IRQ requested with I clear, and no FIQ taken before it, is taken at the start of the step with `pc + 4`
in R14_irq from either state and nothing of the instruction done; `SUBS PC, R14, #4` resumes there. The I bit set on
entry is the spec's decision D9 (log entry 24); the request schedule is log entry 5; link values wrap modulo 2^32 (log
entry 11). -/
def Obligations.IrqEntryAndReturn : Prop :=
  ∀ (s : State) (m : Mode), s.mode? = some m → s.now.reset = false → (s.now.fiq = true → psrF s.cpsr = true) →
    s.now.irq = true → psrI s.cpsr = false →
    (∃ t, step s = .next t ∧ EnteredBy .irq (s.pc + 4#32) s t ∧ t.mem = s.mem ∧ t.bus = s.bus ∧
      t.pins = s.pins.tail ∧ t.freeIndex = s.freeIndex ∧ t.bigEndian = s.bigEndian ∧
      t.mode? = some .irq ∧ t.pc = 0x18#32 ∧
      (s.pcAligned → ∃ u, exec (.subImm .al true 14 15 0#4 4#8) t = .next u ∧ ResumedAt s t u)) ∧
    ExcKind.irq.priority = 4

/-- R206: the same of an FIQ requested with F clear, taken before any IRQ; FIQ mode has R8 to R14 of its own. The I
and F bits set on entry are the spec's decision D9 (log entry 24); the request schedule is log entry 5; link values wrap
modulo 2^32 (log entry 11). -/
def Obligations.FiqEntryAndReturn : Prop :=
  (∀ (s : State) (m : Mode), s.mode? = some m → s.now.reset = false → s.now.fiq = true → psrF s.cpsr = false →
    ∃ t, step s = .next t ∧ EnteredBy .fiq (s.pc + 4#32) s t ∧ t.mem = s.mem ∧ t.bus = s.bus ∧
      t.pins = s.pins.tail ∧ t.freeIndex = s.freeIndex ∧ t.bigEndian = s.bigEndian ∧
      t.mode? = some .fiq ∧ t.pc = 0x1C#32 ∧
      (s.pcAligned → ∃ u, exec (.subImm .al true 14 15 0#4 4#8) t = .next u ∧ ResumedAt s t u)) ∧
  ExcKind.fiq.priority = 3 ∧
  ∀ (i j : Reg) (m : Mode), 8 ≤ i.val → i.val ≤ 14 → m ≠ .fiq → phys .fiq i ≠ phys m j

/-- R203, R82: a fetch the memory system aborts takes Prefetch Abort with `pc + 4` in R14_abt from either state, and
`SUBS PC, R14, #4` goes back to fetch the same instruction. The I bit set on entry is the spec's decision D9
(log entry 24); the bus schedule is log entry 6; link values wrap modulo 2^32 (log entry 11). -/
def Obligations.PrefetchAbortEntryAndReturn : Prop :=
  ∀ (s : State) (m : Mode), s.mode? = some m → s.undisturbed → s.pcAligned → s.abortsAt 0 = true →
    ∃ t, step s = .next t ∧ EnteredBy .pabt (s.pc + 4#32) s t ∧ t.mem = s.memAfter 1 ∧ t.bus = s.bus.tail ∧
      t.pins = s.pins.tail ∧ t.freeIndex = s.freeIndex ∧ t.bigEndian = s.bigEndian ∧
      t.mode? = some .abort ∧ t.pc = 0x0C#32 ∧
      ∃ u, exec (.subImm .al true 14 15 0#4 4#8) t = .next u ∧ ResumedAt s t u

/-- R184, R204: a load multiple whose read number `k` is the first to abort takes Data Abort: R14_abt is `pc + 8`;
registers of words read before it hold their old or their loaded value (which one is a free value, and the statement
holds for every choice); the base is written back where W is set and put back where not; no other register changes,
R15's word is not used and the CPSR is the entry's, not the SPSR's. Stopping at the abort and the one free bit a
register are log entry 13; the write-back modulo 2^32 is log entry 12; the masks on entry are the spec's decision D9
(log entry 24). -/
def Obligations.DataAbortInLoadMultiple : Prop :=
  ∀ (i : Instr) (l : LoadShape) (s : State) (m : Mode) (k : Nat), loadShape i = some l → i.predictable = true →
    s.mode? = some m → (∀ c, i.armCond = some c → condPasses c s.flags = true) →
    (l.userBank = true ∨ isExceptionReturn i = true → m.bank?.isSome = true) → l.inRange s m → k < l.count →
    l.reads s m k → s.abortsAt k = true →
    ∃ t, exec i s = .next t ∧ t.pc = 0x10#32 ∧ t.get .r14Abt = s.pc + 8#32 ∧ t.spsr .abt = s.cpsr ∧
      (∀ b, b ≠ .abt → t.spsr b = s.spsr b) ∧ t.mode? = some .abort ∧ psrT t.cpsr = false ∧
      psrI t.cpsr = true ∧ psrF t.cpsr = psrF s.cpsr ∧ (∀ j, 8 ≤ j → t.cpsr.getLsbD j = s.cpsr.getLsbD j) ∧
      (phys m l.rn ≠ .r14Abt → t.get (phys m l.rn) = if l.wb then l.final s m else l.base s m) ∧
      (∀ r : Reg, l.list.getLsbD r.val = true → r ≠ 15 → l.rank r < k → l.dest m r ≠ phys m l.rn →
        l.dest m r ≠ .r14Abt → t.get (l.dest m r) = s.get (l.dest m r) ∨
          some (t.get (l.dest m r)) = l.wordFor s m r) ∧
      (∀ p, p ≠ .pc → p ≠ .r14Abt → p ≠ phys m l.rn →
        (∀ r : Reg, l.list.getLsbD r.val = true → r ≠ 15 → l.rank r < k → p ≠ l.dest m r) → t.get p = s.get p) ∧
      t.mem = s.memAfter (k + 1) ∧ t.bus = s.bus.drop (k + 1) ∧ t.pins = s.pins ∧ t.bigEndian = s.bigEndian

/-- R230, R200: a requested reset is taken from any state: pc 0, ARM state, Supervisor mode, I and F set, every
register but the pc and R14_svc, every SPSR but SPSR_svc, and memory kept. (That the mode is Supervisor and I and F
are set is the spec's decisions D9 and D10, log entry 24; the request schedule is log entry 5.) -/
def Obligations.ResetFromAnyState : Prop :=
  ∀ s : State, s.now.reset = true →
    ∃ t, step s = .next t ∧ t.pc = 0#32 ∧ psrT t.cpsr = false ∧ t.mode? = some .supervisor ∧
      psrI t.cpsr = true ∧ psrF t.cpsr = true ∧ (∀ p, p ≠ .pc → p ≠ .r14Svc → t.get p = s.get p) ∧
      (∀ b, b ≠ .svc → t.spsr b = s.spsr b) ∧ t.mem = s.mem ∧ t.bus = s.bus ∧ t.bigEndian = s.bigEndian ∧
      t.pins = s.pins.tail

/-- R41, R231: the state after reset in either memory format: pc 0, ARM state, Supervisor mode, both interrupts
disabled, and the invariant holds. (The mode and the masks are the spec's decisions D9 and D10, log entry 24; the
registers' zeros, log entries 1 and 2, are not stated.) -/
def Obligations.ResetStateValues : Prop :=
  ∀ bigEndian : Bool, (State.resetWith bigEndian).pc = 0#32 ∧ psrT (State.resetWith bigEndian).cpsr = false ∧
    (State.resetWith bigEndian).mode? = some .supervisor ∧ psrI (State.resetWith bigEndian).cpsr = true ∧
    psrF (State.resetWith bigEndian).cpsr = true ∧ (State.resetWith bigEndian).Inv

/-! ## Data processing -/

/-- R140, R141, R144: MOV to a register other than R15, all three forms: the next state. With S, N and Z of the
result, C the shifter carry, V kept. -/
def Obligations.ArmMoveResult : Prop :=
  ∀ (s : State) (m : Mode) (c : Cond) (S : Bool) (rd : Reg), s.mode? = some m → condPasses c s.flags = true →
    rd ≠ 15 → s.canAdvance 4 →
    (∀ rot imm8 v k, operandImm rot imm8 s.flags.c = (v, k) → exec (.movImm c S rd rot imm8) s =
      .next (afterResult s m S rd v { n := v.getLsbD 31, z := v == 0, c := k, v := s.flags.v })) ∧
    (∀ n type rm v k, operandShiftImm type n (s.x m 8#32 rm) s.flags.c = (v, k) →
      exec (.movReg c S rd n type rm) s =
      .next (afterResult s m S rd v { n := v.getLsbD 31, z := v == 0, c := k, v := s.flags.v })) ∧
    (∀ rs type rm v k, rs ≠ 15 → operandShiftReg type (s.get (phys m rs)) (s.x m 12#32 rm) s.flags.c = (v, k) →
      exec (.movRsr c S rd rs type rm) s =
      .next (afterResult s m S rd v { n := v.getLsbD 31, z := v == 0, c := k, v := s.flags.v }))

/-- R140, R141, R145: ADD to a register other than R15, all three forms: the next state. -/
def Obligations.ArmAddResult : Prop :=
  ∀ (s : State) (m : Mode) (c : Cond) (S : Bool) (rn rd : Reg) (a8 a12 : Word), s.mode? = some m →
    condPasses c s.flags = true → rd ≠ 15 → s.canAdvance 4 → a8 = s.x m 8#32 rn → a12 = s.x m 12#32 rn →
    (∀ rot imm8 v, (operandImm rot imm8 s.flags.c).1 = v → exec (.addImm c S rn rd rot imm8) s =
      .next (afterResult s m S rd (a8 + v) (addWithFlags a8 v).2)) ∧
    (∀ n type rm v, (operandShiftImm type n (s.x m 8#32 rm) s.flags.c).1 = v →
      exec (.addReg c S rn rd n type rm) s = .next (afterResult s m S rd (a8 + v) (addWithFlags a8 v).2)) ∧
    (∀ rs type rm v, rs ≠ 15 → (operandShiftReg type (s.get (phys m rs)) (s.x m 12#32 rm) s.flags.c).1 = v →
      exec (.addRsr c S rn rd rs type rm) s = .next (afterResult s m S rd (a12 + v) (addWithFlags a12 v).2))

/-- R140, R141, R146: SUB to a register other than R15, all three forms: the next state. -/
def Obligations.ArmSubResult : Prop :=
  ∀ (s : State) (m : Mode) (c : Cond) (S : Bool) (rn rd : Reg) (a8 a12 : Word), s.mode? = some m →
    condPasses c s.flags = true → rd ≠ 15 → s.canAdvance 4 → a8 = s.x m 8#32 rn → a12 = s.x m 12#32 rn →
    (∀ rot imm8 v, (operandImm rot imm8 s.flags.c).1 = v → exec (.subImm c S rn rd rot imm8) s =
      .next (afterResult s m S rd (a8 - v) (subWithFlags a8 v).2)) ∧
    (∀ n type rm v, (operandShiftImm type n (s.x m 8#32 rm) s.flags.c).1 = v →
      exec (.subReg c S rn rd n type rm) s = .next (afterResult s m S rd (a8 - v) (subWithFlags a8 v).2)) ∧
    (∀ rs type rm v, rs ≠ 15 → (operandShiftReg type (s.get (phys m rs)) (s.x m 12#32 rm) s.flags.c).1 = v →
      exec (.subRsr c S rn rd rs type rm) s = .next (afterResult s m S rd (a12 - v) (subWithFlags a12 v).2))

/-- R140, R147: CMP, all three forms: the next state; only the flags and the pc change. -/
def Obligations.ArmCompareResult : Prop :=
  ∀ (s : State) (m : Mode) (c : Cond) (rn : Reg) (a8 a12 : Word), s.mode? = some m → condPasses c s.flags = true →
    s.canAdvance 4 → a8 = s.x m 8#32 rn → a12 = s.x m 12#32 rn →
    (∀ rot imm8 v, (operandImm rot imm8 s.flags.c).1 = v →
      exec (.cmpImm c rn rot imm8) s = .next ((s.withFlags (subWithFlags a8 v).2).withPc (s.pc + 4#32))) ∧
    (∀ n type rm v, (operandShiftImm type n (s.x m 8#32 rm) s.flags.c).1 = v →
      exec (.cmpReg c rn n type rm) s = .next ((s.withFlags (subWithFlags a8 v).2).withPc (s.pc + 4#32))) ∧
    (∀ rs type rm v, rs ≠ 15 → (operandShiftReg type (s.get (phys m rs)) (s.x m 12#32 rm) s.flags.c).1 = v →
      exec (.cmpRsr c rn rs type rm) s = .next ((s.withFlags (subWithFlags a12 v).2).withPc (s.pc + 4#32)))

/-- R142, R138: destination R15 with S clear, of MOV, ADD and SUB in their three forms, is a branch to the result in
ARM state, refused unless word-aligned; nothing but the pc changes. -/
def Obligations.PcDestinationBranches : Prop :=
  ∀ (s : State) (m : Mode) (c : Cond), s.mode? = some m → condPasses c s.flags = true →
    (∀ rot imm8, BranchesTo (exec (.movImm c false 15 rot imm8) s) s (operandImm rot imm8 s.flags.c).1) ∧
    (∀ n type rm, BranchesTo (exec (.movReg c false 15 n type rm) s) s
      (operandShiftImm type n (s.x m 8#32 rm) s.flags.c).1) ∧
    (∀ rs type rm, rs ≠ 15 → BranchesTo (exec (.movRsr c false 15 rs type rm) s) s
      (operandShiftReg type (s.get (phys m rs)) (s.x m 12#32 rm) s.flags.c).1) ∧
    (∀ rn rot imm8, BranchesTo (exec (.addImm c false rn 15 rot imm8) s) s
      (s.x m 8#32 rn + (operandImm rot imm8 s.flags.c).1)) ∧
    (∀ rn n type rm, BranchesTo (exec (.addReg c false rn 15 n type rm) s) s
      (s.x m 8#32 rn + (operandShiftImm type n (s.x m 8#32 rm) s.flags.c).1)) ∧
    (∀ rn rs type rm, rs ≠ 15 → BranchesTo (exec (.addRsr c false rn 15 rs type rm) s) s
      (s.x m 12#32 rn + (operandShiftReg type (s.get (phys m rs)) (s.x m 12#32 rm) s.flags.c).1)) ∧
    (∀ rn rot imm8, BranchesTo (exec (.subImm c false rn 15 rot imm8) s) s
      (s.x m 8#32 rn - (operandImm rot imm8 s.flags.c).1)) ∧
    (∀ rn n type rm, BranchesTo (exec (.subReg c false rn 15 n type rm) s) s
      (s.x m 8#32 rn - (operandShiftImm type n (s.x m 8#32 rm) s.flags.c).1)) ∧
    (∀ rn rs type rm, rs ≠ 15 → BranchesTo (exec (.subRsr c false rn 15 rs type rm) s) s
      (s.x m 12#32 rn - (operandShiftReg type (s.get (phys m rs)) (s.x m 12#32 rm) s.flags.c).1))

/-- R143, R210, R212: destination R15 with S set, of MOV, ADD and SUB in their three forms: the whole CPSR comes from
the mode's SPSR and the pc goes to the result, word-aligned where the restored T is clear and with bit 0 dropped where
it is set; the computed flags are lost. In User and System mode it is refused. -/
def Obligations.ExceptionReturnForms : Prop :=
  ∀ (s : State) (m : Mode) (c : Cond), s.mode? = some m → condPasses c s.flags = true →
    (∀ rot imm8, ReturnsTo (exec (.movImm c true 15 rot imm8) s) s m (operandImm rot imm8 s.flags.c).1) ∧
    (∀ n type rm, ReturnsTo (exec (.movReg c true 15 n type rm) s) s m
      (operandShiftImm type n (s.x m 8#32 rm) s.flags.c).1) ∧
    (∀ rs type rm, rs ≠ 15 → ReturnsTo (exec (.movRsr c true 15 rs type rm) s) s m
      (operandShiftReg type (s.get (phys m rs)) (s.x m 12#32 rm) s.flags.c).1) ∧
    (∀ rn rot imm8, ReturnsTo (exec (.addImm c true rn 15 rot imm8) s) s m
      (s.x m 8#32 rn + (operandImm rot imm8 s.flags.c).1)) ∧
    (∀ rn n type rm, ReturnsTo (exec (.addReg c true rn 15 n type rm) s) s m
      (s.x m 8#32 rn + (operandShiftImm type n (s.x m 8#32 rm) s.flags.c).1)) ∧
    (∀ rn rs type rm, rs ≠ 15 → ReturnsTo (exec (.addRsr c true rn 15 rs type rm) s) s m
      (s.x m 12#32 rn + (operandShiftReg type (s.get (phys m rs)) (s.x m 12#32 rm) s.flags.c).1)) ∧
    (∀ rn rot imm8, ReturnsTo (exec (.subImm c true rn 15 rot imm8) s) s m
      (s.x m 8#32 rn - (operandImm rot imm8 s.flags.c).1)) ∧
    (∀ rn n type rm, ReturnsTo (exec (.subReg c true rn 15 n type rm) s) s m
      (s.x m 8#32 rn - (operandShiftImm type n (s.x m 8#32 rm) s.flags.c).1)) ∧
    (∀ rn rs type rm, rs ≠ 15 → ReturnsTo (exec (.subRsr c true rn 15 rs type rm) s) s m
      (s.x m 12#32 rn - (operandShiftReg type (s.get (phys m rs)) (s.x m 12#32 rm) s.flags.c).1))

/-- R150, R152, R153, R154, R159, R160: the Thumb MOV, ADD and CMP on low registers: the next state. -/
def Obligations.ThumbLowRegisterResult : Prop :=
  ∀ (s : State) (m : Mode) (rd rs rn : LowReg) (imm3 : BitVec 3) (imm8 : BitVec 8) (d a b : Word),
    s.mode? = some m → s.canAdvance 2 →
    d = s.get (phys m (low rd)) → a = s.get (phys m (low rs)) → b = s.get (phys m (low rn)) →
    exec (.tMovImm8 rd imm8) s = .next (((s.setX m (low rd) (imm8.setWidth 32)).withFlags
      { n := false, z := imm8 == 0, c := s.flags.c, v := s.flags.v }).withPc (s.pc + 2#32)) ∧
    exec (.tAddReg rn rs rd) s =
      .next (((s.setX m (low rd) (a + b)).withFlags (addWithFlags a b).2).withPc (s.pc + 2#32)) ∧
    exec (.tAddImm3 imm3 rs rd) s = .next (((s.setX m (low rd) (a + imm3.setWidth 32)).withFlags
      (addWithFlags a (imm3.setWidth 32)).2).withPc (s.pc + 2#32)) ∧
    exec (.tAddImm8 rd imm8) s = .next (((s.setX m (low rd) (d + imm8.setWidth 32)).withFlags
      (addWithFlags d (imm8.setWidth 32)).2).withPc (s.pc + 2#32)) ∧
    exec (.tCmpImm8 rd imm8) s =
      .next ((s.withFlags (subWithFlags d (imm8.setWidth 32)).2).withPc (s.pc + 2#32)) ∧
    exec (.tCmpReg rs rd) s = .next ((s.withFlags (subWithFlags d a).2).withPc (s.pc + 2#32))

/-- R151, R155, R161, R110: the Thumb high-register operations: the next state where one register is high, the
refusal where both are low; R15 is read as `pc + 4`, and written as a branch in Thumb state. Only CMP writes the
flags, and R15 as its first operand is refused. -/
def Obligations.ThumbHighRegisterResult : Prop :=
  ∀ (s : State) (m : Mode) (a d : Reg), s.mode? = some m →
    (8 ≤ a.val ∨ 8 ≤ d.val →
      (d ≠ 15 → s.canAdvance 2 →
        exec (.tMovHi a d) s = .next ((s.setX m d (s.x m 4#32 a)).withPc (s.pc + 2#32)) ∧
        exec (.tAddHi a d) s = .next ((s.setX m d (s.x m 4#32 d + s.x m 4#32 a)).withPc (s.pc + 2#32)) ∧
        exec (.tCmpHi a d) s =
          .next ((s.withFlags (subWithFlags (s.x m 4#32 d) (s.x m 4#32 a)).2).withPc (s.pc + 2#32))) ∧
      (d = 15 →
        exec (.tMovHi a d) s = .next (s.withPc (s.x m 4#32 a &&& 0xFFFFFFFE#32)) ∧
        exec (.tAddHi a d) s = .next (s.withPc ((s.pc + 4#32 + s.x m 4#32 a) &&& 0xFFFFFFFE#32)) ∧
        exec (.tCmpHi a d) s = .refused .unpredictable)) ∧
    (a.val < 8 → d.val < 8 →
      exec (.tMovHi a d) s = .refused .undefinedCombination ∧
      exec (.tAddHi a d) s = .refused .undefinedCombination ∧
      exec (.tCmpHi a d) s = .refused .undefinedCombination)

/-- R156, R157, R158: the Thumb address and stack-pointer additions: the next state; no flag is written. (That the
value R15 reads wraps at 2^32 is log entry 11.) -/
def Obligations.ThumbAddressResult : Prop :=
  ∀ (s : State) (m : Mode) (rd : LowReg) (imm8 : BitVec 8) (imm7 : BitVec 7), s.mode? = some m → s.canAdvance 2 →
    (∀ v : Word, v.toNat = ((s.pc.toNat + 4) % 2 ^ 32 / 4 * 4 + 4 * imm8.toNat) % 2 ^ 32 →
      exec (.tAddPc rd imm8) s = .next ((s.setX m (low rd) v).withPc (s.pc + 2#32))) ∧
    exec (.tAddSp rd imm8) s = .next
      ((s.setX m (low rd) (s.get (phys m 13) + BitVec.ofNat 32 (4 * imm8.toNat))).withPc (s.pc + 2#32)) ∧
    exec (.tAddSpImm7 false imm7) s = .next
      ((s.setX m 13 (s.get (phys m 13) + BitVec.ofNat 32 (4 * imm7.toNat))).withPc (s.pc + 2#32)) ∧
    exec (.tAddSpImm7 true imm7) s = .next
      ((s.setX m 13 (s.get (phys m 13) - BitVec.ofNat 32 (4 * imm7.toNat))).withPc (s.pc + 2#32))

/-! ## Branches -/

/-- R130, R131: B and BL go to `pc + 8` plus four times the signed immediate where that lies in the address space,
and are refused where not; BL leaves `pc + 4` in R14 of the mode. The link value wraps modulo 2^32 (log entry 11). -/
def Obligations.ArmBranchTargets : Prop :=
  ∀ (s : State) (m : Mode) (c : Cond) (imm24 : BitVec 24) (target : Int), s.mode? = some m →
    condPasses c s.flags = true → target = s.pc.toNat + 8 + 4 * imm24.toInt →
    (0 ≤ target → target ≤ 2 ^ 32 - 4 →
      exec (.b c imm24) s = .next (s.withPc (BitVec.ofInt 32 target)) ∧
      exec (.bl c imm24) s = .next ((s.setX m 14 (s.pc + 4#32)).withPc (BitVec.ofInt 32 target))) ∧
    (target < 0 ∨ 2 ^ 32 - 4 < target →
      exec (.b c imm24) s = .refused .pcWrap ∧ exec (.bl c imm24) s = .refused .pcWrap)

/-- R132, R137, R37: BX in both states: bit 0 of the operand becomes T and the rest is the target; an ARM target off
a word boundary is refused, as is R15 in ARM state; in Thumb state R15 reads `pc + 4`. Nothing else changes. -/
def Obligations.BranchExchangeResult : Prop :=
  ∀ (s : State) (m : Mode) (v : Word) (t : State), s.mode? = some m →
    t = (s.withCpsr (psrWithT s.cpsr (v.getLsbD 0))).withPc (v &&& 0xFFFFFFFE#32) →
    (∀ c rm, condPasses c s.flags = true → rm ≠ 15 → s.get (phys m rm) = v →
      (v.toNat % 4 ≠ 2 → exec (.bx c rm) s = .next t) ∧
      (v.toNat % 4 = 2 → exec (.bx c rm) s = .refused .misalignedPc)) ∧
    (∀ c, condPasses c s.flags = true → exec (.bx c 15) s = .refused .unpredictable) ∧
    (∀ a, (if a = 15 then s.pc + 4#32 else s.get (phys m a)) = v →
      (v.toNat % 4 ≠ 2 → exec (.tBx a) s = .next t) ∧
      (v.toNat % 4 = 2 → exec (.tBx a) s = .refused .misalignedPc))

/-- R133, R134: the Thumb branches go to `pc + 4` plus twice the signed immediate where that lies in the address
space (0 to 2^32 - 2: log entry 10) and are refused where not; a conditional one whose condition fails advances. -/
def Obligations.ThumbBranchTargets : Prop :=
  ∀ (s : State) (m : Mode), s.mode? = some m →
    (∀ (off : BitVec 11) (t : Int), t = s.pc.toNat + 4 + 2 * off.toInt →
      (0 ≤ t → t ≤ 2 ^ 32 - 2 → exec (.tB off) s = .next (s.withPc (BitVec.ofInt 32 t))) ∧
      (t < 0 ∨ 2 ^ 32 - 2 < t → exec (.tB off) s = .refused .pcWrap)) ∧
    (∀ (c : Cond) (off : BitVec 8) (t : Int), t = s.pc.toNat + 4 + 2 * off.toInt →
      (condPasses c s.flags = true → 0 ≤ t → t ≤ 2 ^ 32 - 2 →
        exec (.tBcond c off) s = .next (s.withPc (BitVec.ofInt 32 t))) ∧
      (condPasses c s.flags = true → t < 0 ∨ 2 ^ 32 - 2 < t → exec (.tBcond c off) s = .refused .pcWrap) ∧
      (condPasses c s.flags = false → s.canAdvance 2 →
        exec (.tBcond c off) s = .next (s.withPc (s.pc + 2#32))))

/-- R135, R136: each half of the Thumb BL alone. The first leaves `pc + 4` plus its signed offset times 2^12 in R14; the
second goes to R14 plus twice its offset, and leaves the next address with bit 0 set in R14; an odd R14 is refused, a
target past the top of the address space too. The model's choices: the first half's sum is modulo 2^32 and the second
tests R14 as an unsigned number (log entry 27), the last target is 2^32 - 2 (log entry 10), bit 0 of the link value is
set (decision D23, log entry 22), and the link value wraps modulo 2^32 (log entry 11). -/
def Obligations.ThumbBlHalves : Prop :=
  ∀ (s : State) (m : Mode) (off : BitVec 11), s.mode? = some m →
    (s.canAdvance 2 → exec (.tBlHi off) s = .next
      ((s.setX m 14 (s.pc + 4#32 + BitVec.ofInt 32 (4096 * off.toInt))).withPc (s.pc + 2#32))) ∧
    (∀ target : Nat, target = (s.get (phys m 14)).toNat + 2 * off.toNat →
      ((s.get (phys m 14)).toNat % 2 = 0 → target ≤ 2 ^ 32 - 2 → exec (.tBlLo off) s = .next
        ((s.setX m 14 ((s.pc + 2#32) ||| 1#32)).withPc (BitVec.ofNat 32 target))) ∧
      ((s.get (phys m 14)).toNat % 2 = 0 → 2 ^ 32 - 2 < target → exec (.tBlLo off) s = .refused .pcWrap) ∧
      ((s.get (phys m 14)).toNat % 2 = 1 → exec (.tBlLo off) s = .refused .misalignedPc))

/-- R117, R135, R136: the two halves one after the other are a call: the pc goes to the first half's address plus 4
plus the 23-bit signed offset, and R14 holds the address after the pair with bit 0 set; nothing else changes. That bit 0
of R14 is set is decision D23 (log entry 22), and that the last target is 2^32 - 2 is log entry 10; a first half whose
sum falls below 0 is left to log entry 27. -/
def Obligations.ThumbBlPairCalls : Prop :=
  ∀ (s : State) (m : Mode) (hi lo : BitVec 11) (target : Int), s.mode? = some m → s.pc.toNat % 2 = 0 →
    s.canAdvance 4 → target = s.pc.toNat + 4 + 4096 * hi.toInt + 2 * lo.toNat →
    0 ≤ (s.pc.toNat : Int) + 4 + 4096 * hi.toInt → target ≤ 2 ^ 32 - 2 →
    ∃ t, exec (.tBlHi hi) s = .next t ∧
      exec (.tBlLo lo) t = .next ((s.setX m 14 (s.pc + 5#32)).withPc (BitVec.ofInt 32 target))

/-! ## System instructions -/

/-- R172: MRS: the next state for either PSR; the SPSR in User and System mode, and R15 as destination, are
refused. -/
def Obligations.MrsResult : Prop :=
  ∀ (s : State) (m : Mode) (c : Cond) (rd : Reg), s.mode? = some m → condPasses c s.flags = true →
    (rd ≠ 15 → s.canAdvance 4 →
      exec (.mrs c .cpsr rd) s = .next ((s.setX m rd s.cpsr).withPc (s.pc + 4#32)) ∧
      ∀ b, m.bank? = some b →
        exec (.mrs c .spsr rd) s = .next ((s.setX m rd (s.spsr b)).withPc (s.pc + 4#32))) ∧
    (rd ≠ 15 → m.bank? = none → exec (.mrs c .spsr rd) s = .refused .noSpsr) ∧
    (rd = 15 → ∀ psr, exec (.mrs c psr rd) s = .refused .unpredictable)

/-- R173, R174, R175, R219: MSR to the CPSR in both forms: with `f` the flags come from the operand, with `c` and
outside User mode the control bits; every other bit stays, the reserved ones always; a write that would change T is
refused, and so is R15 as the operand. Nothing but the CPSR and the pc changes. That the reserved bits are never
written is decision D15 (log entry 23). -/
def Obligations.MsrCpsrResult : Prop :=
  ∀ (s : State) (m : Mode) (c : Cond) (fields : PsrFields) (v new : Word), s.mode? = some m →
    condPasses c s.flags = true →
    (∀ k, k < 32 → new.getLsbD k =
      if (fields.f = true ∧ 28 ≤ k) ∨ (fields.c = true ∧ k < 8 ∧ m ≠ .user) then v.getLsbD k
      else s.cpsr.getLsbD k) →
    (∀ rm, rm ≠ 15 → s.get (phys m rm) = v →
      (psrT new = psrT s.cpsr → s.canAdvance 4 →
        exec (.msrReg c .cpsr fields rm) s = .next ((s.withCpsr new).withPc (s.pc + 4#32))) ∧
      (psrT new ≠ psrT s.cpsr → exec (.msrReg c .cpsr fields rm) s = .refused .unpredictable)) ∧
    (∀ rot imm8, (operandImm rot imm8 false).1 = v →
      (psrT new = psrT s.cpsr → s.canAdvance 4 →
        exec (.msrImm c .cpsr fields rot imm8) s = .next ((s.withCpsr new).withPc (s.pc + 4#32))) ∧
      (psrT new ≠ psrT s.cpsr → exec (.msrImm c .cpsr fields rot imm8) s = .refused .unpredictable)) ∧
    ∀ psr, exec (.msrReg c psr fields 15) s = .refused .unpredictable

/-- R173, R174, R175: MSR to the SPSR of the mode in both forms: the same selection without the User mask and without
the T test; refused where the mode has no SPSR. Nothing but that SPSR and the pc changes. That the reserved bits are
never written is decision D15 (log entry 23). -/
def Obligations.MsrSpsrResult : Prop :=
  ∀ (s : State) (m : Mode) (c : Cond) (fields : PsrFields) (v : Word), s.mode? = some m →
    condPasses c s.flags = true →
    (∀ b new, m.bank? = some b → s.canAdvance 4 →
      (∀ j, j < 32 → new.getLsbD j =
        if (fields.f = true ∧ 28 ≤ j) ∨ (fields.c = true ∧ j < 8) then v.getLsbD j else (s.spsr b).getLsbD j) →
      (∀ rm, rm ≠ 15 → s.get (phys m rm) = v →
        exec (.msrReg c .spsr fields rm) s = .next ((s.setSpsr b new).withPc (s.pc + 4#32))) ∧
      (∀ rot imm8, (operandImm rot imm8 false).1 = v →
        exec (.msrImm c .spsr fields rot imm8) s = .next ((s.setSpsr b new).withPc (s.pc + 4#32)))) ∧
    (m.bank? = none →
      (∀ rm, rm ≠ 15 → exec (.msrReg c .spsr fields rm) s = .refused .noSpsr) ∧
      ∀ rot imm8, exec (.msrImm c .spsr fields rot imm8) s = .refused .noSpsr)

/-! ## Load multiple -/

/-- R180, R181: LDM whose reads all answer: the loaded registers, the write-back, the pc at the next instruction, or
at the word loaded for R15 where it is word-aligned (refused where not); the PSRs stay. The write-back modulo 2^32 is
log entry 12. -/
def Obligations.LdmResult : Prop :=
  ∀ (s : State) (m : Mode) (c : Cond) (mode : AddrMode) (wb : Bool) (rn : Reg) (list : BitVec 16) (l : LoadShape),
    loadShape (.ldm c mode wb rn list) = some l → (Instr.ldm c mode wb rn list).predictable = true →
    s.mode? = some m → condPasses c s.flags = true → l.inRange s m → l.reads s m l.count →
    (list.getLsbD 15 = false → s.canAdvance 4 →
      ∃ t, exec (.ldm c mode wb rn list) s = .next t ∧ l.loaded s t m ∧ t.pc = s.pc + 4#32 ∧ t.cpsr = s.cpsr) ∧
    (∀ v, list.getLsbD 15 = true → l.wordFor s m 15 = some v →
      (v.toNat % 4 = 0 →
        ∃ t, exec (.ldm c mode wb rn list) s = .next t ∧ l.loaded s t m ∧ t.pc = v ∧ t.cpsr = s.cpsr) ∧
      (v.toNat % 4 ≠ 0 → exec (.ldm c mode wb rn list) s = .refused .misalignedPc))

/-- R182, R143: LDM with S and R15: the loads and the write-back in the bank of the current mode, then the CPSR from
its SPSR and the pc from the word loaded for R15; refused in User and System mode. The write-back modulo 2^32 is log
entry 12. -/
def Obligations.LdmReturnResult : Prop :=
  ∀ (s : State) (m : Mode) (c : Cond) (mode : AddrMode) (wb : Bool) (rn : Reg) (list : BitVec 15) (l : LoadShape),
    loadShape (.ldmPcSpsr c mode wb rn list) = some l → s.mode? = some m → condPasses c s.flags = true →
    (m.bank? = none → exec (.ldmPcSpsr c mode wb rn list) s = .refused .noSpsr) ∧
    (∀ b v, m.bank? = some b → (Instr.ldmPcSpsr c mode wb rn list).predictable = true → l.inRange s m →
      l.reads s m l.count → l.wordFor s m 15 = some v →
      (psrT (s.spsr b) = true ∨ v.toNat % 4 = 0 →
        ∃ t, exec (.ldmPcSpsr c mode wb rn list) s = .next t ∧ l.loaded s t m ∧ t.cpsr = s.spsr b ∧
          t.pc = if psrT (s.spsr b) then v &&& 0xFFFFFFFE#32 else v) ∧
      (psrT (s.spsr b) = false → v.toNat % 4 ≠ 0 →
        exec (.ldmPcSpsr c mode wb rn list) s = .refused .misalignedPc))

/-- R183: LDM with S and no R15 loads the User bank from a mode with an SPSR, the base being the mode's own
register; the CPSR stays; refused in User and System mode. -/
def Obligations.LdmUserBankResult : Prop :=
  ∀ (s : State) (m : Mode) (c : Cond) (mode : AddrMode) (wb : Bool) (rn : Reg) (list : BitVec 15) (l : LoadShape),
    loadShape (.ldmUser c mode wb rn list) = some l → s.mode? = some m → condPasses c s.flags = true →
    (m.bank? = none → exec (.ldmUser c mode wb rn list) s = .refused .unpredictable) ∧
    (m.bank?.isSome = true → (Instr.ldmUser c mode wb rn list).predictable = true → l.inRange s m →
      l.reads s m l.count → s.canAdvance 4 →
      ∃ t, exec (.ldmUser c mode wb rn list) s = .next t ∧ l.loaded s t m ∧ t.pc = s.pc + 4#32 ∧ t.cpsr = s.cpsr)

/-- R186: Thumb LDMIA: the loaded registers, the base past the words read unless it is itself loaded, the pc at the
next halfword; the CPSR stays. The write-back modulo 2^32 is log entry 12. -/
def Obligations.ThumbLdmiaResult : Prop :=
  ∀ (s : State) (m : Mode) (rb : LowReg) (list : BitVec 8) (l : LoadShape), loadShape (.tLdmia rb list) = some l →
    (Instr.tLdmia rb list).predictable = true → s.mode? = some m → l.inRange s m → l.reads s m l.count →
    s.canAdvance 2 →
    ∃ t, exec (.tLdmia rb list) s = .next t ∧ l.loaded s t m ∧ t.pc = s.pc + 2#32 ∧ t.cpsr = s.cpsr

/-- R70, R180, R181, R186: a load multiple with a base off a word boundary, or whose words pass an end of the address
space, is refused under that name, before any access. The range test of the Thumb form is log entry 12; the order of
the refusals log entry 18. -/
def Obligations.LoadMultipleAddressRefusals : Prop :=
  ∀ (i : Instr) (l : LoadShape) (s : State) (m : Mode), loadShape i = some l → i.predictable = true →
    s.mode? = some m → (∀ c, i.armCond = some c → condPasses c s.flags = true) →
    (l.userBank = true ∨ isExceptionReturn i = true → m.bank?.isSome = true) →
    ((l.base s m).toNat % 4 ≠ 0 → exec i s = .refused .misalignedAccess) ∧
    ((l.base s m).toNat % 4 = 0 → l.start s m < 0 ∨ (Config.addressEnd : Int) < l.start s m + 4 * l.count →
      exec i s = .refused .addressWrap)

/-- R98, R110, R132, R161, R172, R173, R180, R182, R183, R185, R186: a form the opcode table's constraints shut out
is refused by name when its condition passes, in every state with a legal mode. Which refusal comes first where
several apply is log entry 18. -/
def Obligations.ConstrainedFormsRefused : Prop :=
  ∀ (i : Instr) (s : State) (m : Mode), s.mode? = some m → (∀ c, i.armCond = some c → condPasses c s.flags = true) →
    i.predictable = false →
    exec i s = .refused (match i with
      | .tAddHi _ _ | .tMovHi _ _ => .undefinedCombination
      | .tCmpHi a d => if a.val < 8 ∧ d.val < 8 then .undefinedCombination else .unpredictable
      | .ldmPcSpsr _ _ _ _ _ => if m.bank? = none then .noSpsr else .unpredictable
      | _ => .unpredictable)

/-! ## Frames and invariants -/

/-- R43, R140 to R186: a register that is not the instruction's destination, link, base or loaded register, nor the
R14 of a mode an exception of it enters, keeps its value (the pc apart). Reads before a data abort are log entry 13. -/
def Obligations.RegisterFrame : Prop :=
  ∀ (i : Instr) (s t : State) (m : Mode) (p : PhysReg), s.mode? = some m → exec i s = .next t → p ≠ .pc →
    mayWrite m i p = false → t.get p = s.get p

/-- R162: the flags an instruction does not write, by the table, stay. -/
def Obligations.FlagFrame : Prop :=
  ∀ (i : Instr) (s t : State), exec i s = .next t →
    (flagEffect i = .none → t.flags = s.flags) ∧
    (flagEffect i = .nz → t.flags.c = s.flags.c ∧ t.flags.v = s.flags.v) ∧
    (flagEffect i = .nzc → t.flags.v = s.flags.v)

/-- R30, R32, R35, R36, R43, R175: a bit of the CPSR below the flags stays unless the instruction is an exception
return, or the bit is T and the instruction BX, or MSR selects it, or it is a control bit and the instruction took
its exception (then the pc is at the vector); so the reserved bits change by exception return alone. An SPSR stays
unless MSR writes it from its own mode, or the instruction may raise an exception into that mode. That MSR never
writes the reserved bits is decision D15 (log entry 23). -/
def Obligations.StatusRegisterFrame : Prop :=
  ∀ (i : Instr) (s t : State) (m : Mode), s.mode? = some m → exec i s = .next t →
    (∀ k, k < 28 → isExceptionReturn i = false → msrSelects m i k = false →
      (k = 5 → (∀ c rm, i ≠ .bx c rm) ∧ ∀ a, i ≠ .tBx a) →
      (8 ≤ k ∨ ∀ e, mayRaise i = some e → t.pc ≠ e.vector) →
      t.cpsr.getLsbD k = s.cpsr.getLsbD k) ∧
    ∀ b, writesSpsr m i b = false → (∀ e, mayRaise i = some e → e.bank ≠ b) → t.spsr b = s.spsr b

/-- R68, R73, R77: no instruction writes memory. What it leaves is memory after the foreign writes of the accesses it
made, one for each listed register of a load multiple at most and none for any other instruction; an address that no
foreign write of those accesses names reads as before. -/
def Obligations.MemoryFrame : Prop :=
  ∀ (i : Instr) (s t : State), exec i s = .next t →
    ∃ k, t.mem = s.memAfter k ∧ t.bus = s.bus.drop k ∧ (loadShape i = none → k = 0) ∧
      (∀ l, loadShape i = some l → k ≤ l.count) ∧
      (s.mem.wf → ∀ a, (∀ e ∈ s.bus.take k, ∀ w ∈ e.writes, w.1.toNat ≠ a) → t.mem.read a = s.mem.read a)

/-- R37: an instruction changes the operating state only as BX, as an exception return, or by raising its exception,
which enters ARM state. That MSR cannot change it is the refusal of decision D29. -/
def Obligations.OperatingStateChanges : Prop :=
  ∀ (i : Instr) (s t : State), exec i s = .next t → psrT t.cpsr ≠ psrT s.cpsr →
    (∃ c rm, i = .bx c rm) ∨ (∃ a, i = .tBx a) ∨ isExceptionReturn i = true ∨
      ∃ e, mayRaise i = some e ∧ t.pc = e.vector ∧ psrT t.cpsr = false ∧ t.mode? = some e.bank.mode

/-- R26, R61, R63: every step keeps memory in its canonical form inside the address space, the pc aligned for the
operating state, and the memory format; it uses up one entry of the request schedule (log entry 5). The pc is aligned
in every next state because misaligned targets are refused (log entry 15). -/
def Obligations.StepKeepsInvariant : Prop :=
  ∀ s t : State, s.Inv → step s = .next t → t.Inv ∧ t.bigEndian = s.bigEndian ∧ t.pins = s.pins.tail

/-- R218, R219, R36: from User mode a step either stays in User mode with the interrupt masks, every SPSR and every
register User mode does not see as they were, or enters an exception (R191 to R196, R230): at its vector, in its mode,
in ARM state with IRQ disabled, the old CPSR in its SPSR (Reset apart), no other SPSR and no other hidden register
changed. That every entry sets I is the spec's decision D9, that Reset enters Supervisor mode its decision D10 (log
entry 24); what Reset leaves in R14_svc and SPSR_svc is log entry 21. -/
def Obligations.UserModeConfinement : Prop :=
  ∀ s t : State, s.mode? = some .user → step s = .next t →
    (t.mode? = some .user ∧ psrI t.cpsr = psrI s.cpsr ∧ psrF t.cpsr = psrF s.cpsr ∧ t.spsrs = s.spsrs ∧
      ∀ p, (∀ i : Reg, p ≠ phys .user i) → t.get p = s.get p) ∨
    ∃ e : ExcKind, t.mode? = some e.bank.mode ∧ t.pc = e.vector ∧ psrT t.cpsr = false ∧ psrI t.cpsr = true ∧
      (e ≠ .reset → t.spsr e.bank = s.cpsr) ∧ (∀ b, b ≠ e.bank → t.spsr b = s.spsr b) ∧
      ∀ p, (∀ i : Reg, p ≠ phys .user i) → p ≠ e.bank.lr → t.get p = s.get p
end

