-- ==== Sys2Proof/Laws/Bits.lean ====
section
/-! SUPPORT. Bit fields as arithmetic: what turns a statement about an encoding's fields into one about a number. -/

namespace Sys2Proof

/-- A concatenation is a sum. -/
theorem toNat_append_add {m n : Nat} (x : BitVec m) (y : BitVec n) :
    (x ++ y).toNat = x.toNat * 2 ^ n + y.toNat := by
  rw [BitVec.toNat_append, Nat.shiftLeft_eq, Nat.mul_comm]
  exact (Nat.two_pow_add_eq_or_of_lt y.isLt x.toNat).symm

/-- A bit is a quotient's parity. -/
theorem getLsbD_eq_div {w : Nat} (x : BitVec w) (i : Nat) : x.getLsbD i = decide (x.toNat / 2 ^ i % 2 = 1) := by
  simp [BitVec.getLsbD, Nat.testBit_eq_decide_div_mod_eq]

/-- A field is a quotient's remainder. -/
theorem toNat_extract {w : Nat} (x : BitVec w) (s l : Nat) : (x.extractLsb' s l).toNat = x.toNat / 2 ^ s % 2 ^ l := by
  simp [Nat.shiftRight_eq_div_pow]

/-- A field has a value exactly when the number says so. -/
theorem extractLsb_eq_iff {w : Nat} (x : BitVec w) (hi lo : Nat) (v : BitVec (hi - lo + 1)) :
    x.extractLsb hi lo = v ↔ x.toNat / 2 ^ lo % 2 ^ (hi - lo + 1) = v.toNat := by
  rw [← BitVec.toNat_inj]; simp only [BitVec.extractLsb, toNat_extract]

theorem Cond.bits_lt (c : Cond) : c.bits.toNat < 15 := by cases c <;> decide

theorem Cond.ofBits_bits (c : Cond) : Cond.ofBits c.bits = some c := by cases c <;> rfl

theorem Cond.ofBits_of_toNat {c : Cond} {v : BitVec 4} (h : v.toNat = c.bits.toNat) : Cond.ofBits v = some c := by
  have : v = c.bits := BitVec.eq_of_toNat_eq h
  subst this; exact c.ofBits_bits

theorem Cond.bits_of_ofBits {v : BitVec 4} {c : Cond} (h : Cond.ofBits v = some c) : c.bits = v := by
  revert v; cases c <;> decide

/-- Only 1111 is no condition (R92). -/
theorem Cond.ofBits_eq_none {v : BitVec 4} : Cond.ofBits v = none ↔ v = 0b1111#4 := by
  revert v; decide

theorem ShiftType.ofBits_bits (t : ShiftType) : ShiftType.ofBits t.bits = t := by cases t <;> rfl

theorem ShiftType.bits_ofBits (v : BitVec 2) : (ShiftType.ofBits v).bits = v := by revert v; decide

theorem AddrMode.ofBits_bits (m : AddrMode) : AddrMode.ofBits m.bits = m := by cases m <;> rfl

theorem AddrMode.bits_ofBits (v : BitVec 2) : (AddrMode.ofBits v).bits = v := by revert v; decide

theorem PsrName.ofBit_bit (p : PsrName) : PsrName.ofBit p.bit = p := by cases p <;> rfl

theorem PsrName.bit_ofBit (b : Bool) : (PsrName.ofBit b).bit = b := by cases b <;> rfl

theorem PsrFields.ofBits_bits (p : PsrFields) : PsrFields.ofBits p.bits = p := by
  obtain ⟨f, s, x, c⟩ := p
  cases f <;> cases s <;> cases x <;> cases c <;> decide

theorem PsrFields.bits_ofBits (v : BitVec 4) : (PsrFields.ofBits v).bits = v := by revert v; decide

theorem toNat_regBits (r : Reg) : (regBits r).toNat = r.val := rfl

theorem toNat_lowBits (r : LowReg) : (lowBits r).toNat = r.val := rfl

theorem toNat_ofBool_eq (b : Bool) : (BitVec.ofBool b).toNat = b.toNat := by cases b <;> rfl

theorem val_regAt (w : Word) (lo : Nat) : (regAt w lo).val = w.toNat / 2 ^ lo % 16 := toNat_extract w lo 4

theorem val_lowAt (h : Half) (lo : Nat) : (lowAt h lo).val = h.toNat / 2 ^ lo % 8 := toNat_extract h lo 3

theorem val_hiSource (h : Half) : (hiSource h).val = h.toNat / 8 % 16 := toNat_extract h 3 4

theorem val_hiDest (h : Half) : (hiDest h).val = h.toNat / 128 % 2 * 8 + h.toNat % 8 := by
  show (h.extractLsb' 7 1 ++ h.extractLsb' 0 3 : BitVec 4).toNat = _
  rw [show (h.extractLsb' 7 1 ++ h.extractLsb' 0 3 : BitVec 4).toNat = _ from toNat_append_add _ _,
    toNat_extract, toNat_extract]
  simp

end Sys2Proof
end

