-- ==== Sys2Proof/Laws/State.lean ====
section
/-! SUPPORT. One lemma per field per update of State, the laws of the register file, and the PSR fields of a
rewritten PSR: what later proofs use in place of unfolding a record update. -/

namespace Sys2Proof.Machine

/-! ## The register file -/

@[simp] theorem Regs.get_set (r : Regs) (p q : PhysReg) (v : Word) :
    (r.set p v).get q = if q = p then v else r.get q := by
  cases p <;> cases q <;> rfl

@[simp] theorem Regs.set_pc (r : Regs) (p : PhysReg) (v : Word) :
    (r.set p v).pc = if p = .pc then v else r.pc := by
  cases p <;> rfl

@[simp] theorem Regs.get_withPc (r : Regs) (v : Word) (q : PhysReg) :
    ({ r with pc := v } : Regs).get q = if q = .pc then v else r.get q := by
  cases q <;> rfl

@[simp] theorem State.get_pc (s : State) : s.get .pc = s.pc := rfl

@[simp] theorem State.get_set (s : State) (p q : PhysReg) (v : Word) :
    (s.set p v).get q = if q = p then v else s.get q := Regs.get_set s.regs p q v

theorem State.get_set_same (s : State) (p : PhysReg) (v : Word) : (s.set p v).get p = v := by simp

theorem State.get_set_other (s : State) {p q : PhysReg} (v : Word) (h : q ≠ p) :
    (s.set p v).get q = s.get q := by simp [h]

@[simp] theorem State.get_setX (s : State) (m : Mode) (i : Reg) (v : Word) (q : PhysReg) :
    (s.setX m i v).get q = if q = phys m i then v else s.get q := State.get_set s _ q v

@[simp] theorem State.get_withPc (s : State) (v : Word) (q : PhysReg) :
    (s.withPc v).get q = if q = .pc then v else s.get q := Regs.get_withPc s.regs v q

@[simp] theorem State.pc_withPc (s : State) (v : Word) : (s.withPc v).pc = v := rfl

@[simp] theorem State.pc_set (s : State) (p : PhysReg) (v : Word) :
    (s.set p v).pc = if p = .pc then v else s.pc := Regs.set_pc s.regs p v

/-- A register number other than 15 names no PC (R22). -/
theorem phys_ne_pc (m : Mode) (i : Reg) (h : i ≠ 15) : phys m i ≠ .pc := by
  revert i; cases m <;> decide

/-- Register number 15 is the PC in every mode (R22). -/
@[simp] theorem phys_fifteen (m : Mode) : phys m 15 = .pc := by cases m <;> rfl

/-- Within one mode two numbers never name one register (R22). -/
theorem phys_injective (m : Mode) (i j : Reg) (h : phys m i = phys m j) : i = j := by
  revert i j; cases m <;> decide

theorem phys_eq_iff (m : Mode) (i j : Reg) : phys m i = phys m j ↔ i = j :=
  ⟨phys_injective m i j, fun h => h ▸ rfl⟩

/-- A low register is never the PC. -/
@[simp] theorem low_ne_fifteen (r : LowReg) : low r ≠ 15 := by revert r; decide

/-- A low register is one physical register in every mode (R21). -/
theorem phys_low (m : Mode) (r : LowReg) : phys m (low r) = phys .user (low r) := by
  revert r; cases m <;> decide

/-- Number 14 of an exception mode is that mode's R14 (R22). -/
@[simp] theorem phys_bank_lr (b : Bank) : phys b.mode 14 = b.lr := by cases b <;> rfl

@[simp] theorem Bank.lr_ne_pc (b : Bank) : b.lr ≠ .pc := by cases b <;> decide

@[simp] theorem Bank.bank_mode (b : Bank) : b.mode.bank? = some b := by cases b <;> rfl

theorem Mode.mode_of_bank {m : Mode} {b : Bank} (h : m.bank? = some b) : b.mode = m := by
  cases m <;> simp [Mode.bank?] at h <;> subst h <;> rfl

@[simp] theorem State.pc_setX (s : State) (m : Mode) (i : Reg) (v : Word) :
    (s.setX m i v).pc = if i = 15 then v else s.pc := by
  unfold State.setX
  by_cases h : i = 15
  · subst h; simp
  · simp [h, phys_ne_pc m i h]

theorem State.x_of_ne (s : State) (m : Mode) (ahead : Word) {i : Reg} (h : i ≠ 15) :
    s.x m ahead i = s.get (phys m i) := by simp [State.x, h]

@[simp] theorem State.x_fifteen (s : State) (m : Mode) (ahead : Word) : s.x m ahead 15 = s.pc + ahead := by
  simp [State.x]

@[simp] theorem State.x_low (s : State) (m : Mode) (ahead : Word) (r : LowReg) :
    s.x m ahead (low r) = s.get (phys m (low r)) := State.x_of_ne s m ahead (low_ne_fifteen r)

@[simp] theorem State.spsr_setSpsr (s : State) (b c : Bank) (v : Word) :
    (s.setSpsr b v).spsr c = if c = b then v else s.spsr c := by
  cases b <;> cases c <;> rfl

/-! ## One lemma per field per update -/

@[simp] theorem State.regs_set (s : State) (p : PhysReg) (v : Word) : (s.set p v).regs = s.regs.set p v := rfl
@[simp] theorem State.cpsr_set (s : State) (p : PhysReg) (v : Word) : (s.set p v).cpsr = s.cpsr := rfl
@[simp] theorem State.spsrs_set (s : State) (p : PhysReg) (v : Word) : (s.set p v).spsrs = s.spsrs := rfl
@[simp] theorem State.mem_set (s : State) (p : PhysReg) (v : Word) : (s.set p v).mem = s.mem := rfl
@[simp] theorem State.bigEndian_set (s : State) (p : PhysReg) (v : Word) : (s.set p v).bigEndian = s.bigEndian := rfl
@[simp] theorem State.pins_set (s : State) (p : PhysReg) (v : Word) : (s.set p v).pins = s.pins := rfl
@[simp] theorem State.bus_set (s : State) (p : PhysReg) (v : Word) : (s.set p v).bus = s.bus := rfl
@[simp] theorem State.freeIndex_set (s : State) (p : PhysReg) (v : Word) : (s.set p v).freeIndex = s.freeIndex := rfl
@[simp] theorem State.mode?_set (s : State) (p : PhysReg) (v : Word) : (s.set p v).mode? = s.mode? := rfl
@[simp] theorem State.flags_set (s : State) (p : PhysReg) (v : Word) : (s.set p v).flags = s.flags := rfl
@[simp] theorem State.spsr_set (s : State) (p : PhysReg) (v : Word) (c : Bank) : (s.set p v).spsr c = s.spsr c := by cases c <;> rfl
@[simp] theorem State.regs_setX (s : State) (m : Mode) (i : Reg) (v : Word) : (s.setX m i v).regs = s.regs.set (phys m i) v := rfl
@[simp] theorem State.cpsr_setX (s : State) (m : Mode) (i : Reg) (v : Word) : (s.setX m i v).cpsr = s.cpsr := rfl
@[simp] theorem State.spsrs_setX (s : State) (m : Mode) (i : Reg) (v : Word) : (s.setX m i v).spsrs = s.spsrs := rfl
@[simp] theorem State.mem_setX (s : State) (m : Mode) (i : Reg) (v : Word) : (s.setX m i v).mem = s.mem := rfl
@[simp] theorem State.bigEndian_setX (s : State) (m : Mode) (i : Reg) (v : Word) : (s.setX m i v).bigEndian = s.bigEndian := rfl
@[simp] theorem State.pins_setX (s : State) (m : Mode) (i : Reg) (v : Word) : (s.setX m i v).pins = s.pins := rfl
@[simp] theorem State.bus_setX (s : State) (m : Mode) (i : Reg) (v : Word) : (s.setX m i v).bus = s.bus := rfl
@[simp] theorem State.freeIndex_setX (s : State) (m : Mode) (i : Reg) (v : Word) : (s.setX m i v).freeIndex = s.freeIndex := rfl
@[simp] theorem State.mode?_setX (s : State) (m : Mode) (i : Reg) (v : Word) : (s.setX m i v).mode? = s.mode? := rfl
@[simp] theorem State.flags_setX (s : State) (m : Mode) (i : Reg) (v : Word) : (s.setX m i v).flags = s.flags := rfl
@[simp] theorem State.spsr_setX (s : State) (m : Mode) (i : Reg) (v : Word) (c : Bank) : (s.setX m i v).spsr c = s.spsr c := by cases c <;> rfl
@[simp] theorem State.cpsr_withPc (s : State) (v : Word) : (s.withPc v).cpsr = s.cpsr := rfl
@[simp] theorem State.spsrs_withPc (s : State) (v : Word) : (s.withPc v).spsrs = s.spsrs := rfl
@[simp] theorem State.mem_withPc (s : State) (v : Word) : (s.withPc v).mem = s.mem := rfl
@[simp] theorem State.bigEndian_withPc (s : State) (v : Word) : (s.withPc v).bigEndian = s.bigEndian := rfl
@[simp] theorem State.pins_withPc (s : State) (v : Word) : (s.withPc v).pins = s.pins := rfl
@[simp] theorem State.bus_withPc (s : State) (v : Word) : (s.withPc v).bus = s.bus := rfl
@[simp] theorem State.freeIndex_withPc (s : State) (v : Word) : (s.withPc v).freeIndex = s.freeIndex := rfl
@[simp] theorem State.mode?_withPc (s : State) (v : Word) : (s.withPc v).mode? = s.mode? := rfl
@[simp] theorem State.flags_withPc (s : State) (v : Word) : (s.withPc v).flags = s.flags := rfl
@[simp] theorem State.spsr_withPc (s : State) (v : Word) (c : Bank) : (s.withPc v).spsr c = s.spsr c := by cases c <;> rfl
@[simp] theorem State.regs_withCpsr (s : State) (v : Word) : (s.withCpsr v).regs = s.regs := rfl
@[simp] theorem State.cpsr_withCpsr (s : State) (v : Word) : (s.withCpsr v).cpsr = v := rfl
@[simp] theorem State.spsrs_withCpsr (s : State) (v : Word) : (s.withCpsr v).spsrs = s.spsrs := rfl
@[simp] theorem State.mem_withCpsr (s : State) (v : Word) : (s.withCpsr v).mem = s.mem := rfl
@[simp] theorem State.bigEndian_withCpsr (s : State) (v : Word) : (s.withCpsr v).bigEndian = s.bigEndian := rfl
@[simp] theorem State.pins_withCpsr (s : State) (v : Word) : (s.withCpsr v).pins = s.pins := rfl
@[simp] theorem State.bus_withCpsr (s : State) (v : Word) : (s.withCpsr v).bus = s.bus := rfl
@[simp] theorem State.freeIndex_withCpsr (s : State) (v : Word) : (s.withCpsr v).freeIndex = s.freeIndex := rfl
@[simp] theorem State.get_withCpsr (s : State) (v : Word) (q : PhysReg) : (s.withCpsr v).get q = s.get q := rfl
@[simp] theorem State.pc_withCpsr (s : State) (v : Word) : (s.withCpsr v).pc = s.pc := rfl
@[simp] theorem State.x_withCpsr (s : State) (v : Word) (n : Mode) (a : Word) (j : Reg) : (s.withCpsr v).x n a j = s.x n a j := rfl
@[simp] theorem State.spsr_withCpsr (s : State) (v : Word) (c : Bank) : (s.withCpsr v).spsr c = s.spsr c := by cases c <;> rfl
@[simp] theorem State.regs_withFlags (s : State) (f : Flags) : (s.withFlags f).regs = s.regs := rfl
@[simp] theorem State.cpsr_withFlags (s : State) (f : Flags) : (s.withFlags f).cpsr = psrWithFlags s.cpsr f := rfl
@[simp] theorem State.spsrs_withFlags (s : State) (f : Flags) : (s.withFlags f).spsrs = s.spsrs := rfl
@[simp] theorem State.mem_withFlags (s : State) (f : Flags) : (s.withFlags f).mem = s.mem := rfl
@[simp] theorem State.bigEndian_withFlags (s : State) (f : Flags) : (s.withFlags f).bigEndian = s.bigEndian := rfl
@[simp] theorem State.pins_withFlags (s : State) (f : Flags) : (s.withFlags f).pins = s.pins := rfl
@[simp] theorem State.bus_withFlags (s : State) (f : Flags) : (s.withFlags f).bus = s.bus := rfl
@[simp] theorem State.freeIndex_withFlags (s : State) (f : Flags) : (s.withFlags f).freeIndex = s.freeIndex := rfl
@[simp] theorem State.get_withFlags (s : State) (f : Flags) (q : PhysReg) : (s.withFlags f).get q = s.get q := rfl
@[simp] theorem State.pc_withFlags (s : State) (f : Flags) : (s.withFlags f).pc = s.pc := rfl
@[simp] theorem State.x_withFlags (s : State) (f : Flags) (n : Mode) (a : Word) (j : Reg) : (s.withFlags f).x n a j = s.x n a j := rfl
@[simp] theorem State.spsr_withFlags (s : State) (f : Flags) (c : Bank) : (s.withFlags f).spsr c = s.spsr c := by cases c <;> rfl
@[simp] theorem State.regs_setSpsr (s : State) (b : Bank) (v : Word) : (s.setSpsr b v).regs = s.regs := by cases b <;> rfl
@[simp] theorem State.cpsr_setSpsr (s : State) (b : Bank) (v : Word) : (s.setSpsr b v).cpsr = s.cpsr := by cases b <;> rfl
@[simp] theorem State.mem_setSpsr (s : State) (b : Bank) (v : Word) : (s.setSpsr b v).mem = s.mem := by cases b <;> rfl
@[simp] theorem State.bigEndian_setSpsr (s : State) (b : Bank) (v : Word) : (s.setSpsr b v).bigEndian = s.bigEndian := by cases b <;> rfl
@[simp] theorem State.pins_setSpsr (s : State) (b : Bank) (v : Word) : (s.setSpsr b v).pins = s.pins := by cases b <;> rfl
@[simp] theorem State.bus_setSpsr (s : State) (b : Bank) (v : Word) : (s.setSpsr b v).bus = s.bus := by cases b <;> rfl
@[simp] theorem State.freeIndex_setSpsr (s : State) (b : Bank) (v : Word) : (s.setSpsr b v).freeIndex = s.freeIndex := by cases b <;> rfl
@[simp] theorem State.get_setSpsr (s : State) (b : Bank) (v : Word) (q : PhysReg) : (s.setSpsr b v).get q = s.get q := by cases b <;> rfl
@[simp] theorem State.pc_setSpsr (s : State) (b : Bank) (v : Word) : (s.setSpsr b v).pc = s.pc := by cases b <;> rfl
@[simp] theorem State.x_setSpsr (s : State) (b : Bank) (v : Word) (n : Mode) (a : Word) (j : Reg) : (s.setSpsr b v).x n a j = s.x n a j := by cases b <;> rfl
@[simp] theorem State.mode?_setSpsr (s : State) (b : Bank) (v : Word) : (s.setSpsr b v).mode? = s.mode? := by cases b <;> rfl
@[simp] theorem State.flags_setSpsr (s : State) (b : Bank) (v : Word) : (s.setSpsr b v).flags = s.flags := by cases b <;> rfl
@[simp] theorem State.regs_drawn (s : State) (k : Nat) : (s.drawn k).regs = s.regs := rfl
@[simp] theorem State.cpsr_drawn (s : State) (k : Nat) : (s.drawn k).cpsr = s.cpsr := rfl
@[simp] theorem State.spsrs_drawn (s : State) (k : Nat) : (s.drawn k).spsrs = s.spsrs := rfl
@[simp] theorem State.mem_drawn (s : State) (k : Nat) : (s.drawn k).mem = s.mem := rfl
@[simp] theorem State.bigEndian_drawn (s : State) (k : Nat) : (s.drawn k).bigEndian = s.bigEndian := rfl
@[simp] theorem State.pins_drawn (s : State) (k : Nat) : (s.drawn k).pins = s.pins := rfl
@[simp] theorem State.bus_drawn (s : State) (k : Nat) : (s.drawn k).bus = s.bus := rfl
@[simp] theorem State.freeIndex_drawn (s : State) (k : Nat) : (s.drawn k).freeIndex = s.freeIndex + k := rfl
@[simp] theorem State.get_drawn (s : State) (k : Nat) (q : PhysReg) : (s.drawn k).get q = s.get q := rfl
@[simp] theorem State.pc_drawn (s : State) (k : Nat) : (s.drawn k).pc = s.pc := rfl
@[simp] theorem State.x_drawn (s : State) (k : Nat) (n : Mode) (a : Word) (j : Reg) : (s.drawn k).x n a j = s.x n a j := rfl
@[simp] theorem State.mode?_drawn (s : State) (k : Nat) : (s.drawn k).mode? = s.mode? := rfl
@[simp] theorem State.flags_drawn (s : State) (k : Nat) : (s.drawn k).flags = s.flags := rfl
@[simp] theorem State.spsr_drawn (s : State) (k : Nat) (c : Bank) : (s.drawn k).spsr c = s.spsr c := by cases c <;> rfl
@[simp] theorem State.regs_popPins (s : State) : (s.popPins).regs = s.regs := rfl
@[simp] theorem State.cpsr_popPins (s : State) : (s.popPins).cpsr = s.cpsr := rfl
@[simp] theorem State.spsrs_popPins (s : State) : (s.popPins).spsrs = s.spsrs := rfl
@[simp] theorem State.mem_popPins (s : State) : (s.popPins).mem = s.mem := rfl
@[simp] theorem State.bigEndian_popPins (s : State) : (s.popPins).bigEndian = s.bigEndian := rfl
@[simp] theorem State.pins_popPins (s : State) : (s.popPins).pins = s.pins.tail := rfl
@[simp] theorem State.bus_popPins (s : State) : (s.popPins).bus = s.bus := rfl
@[simp] theorem State.freeIndex_popPins (s : State) : (s.popPins).freeIndex = s.freeIndex := rfl
@[simp] theorem State.get_popPins (s : State) (q : PhysReg) : (s.popPins).get q = s.get q := rfl
@[simp] theorem State.pc_popPins (s : State) : (s.popPins).pc = s.pc := rfl
@[simp] theorem State.x_popPins (s : State) (n : Mode) (a : Word) (j : Reg) : (s.popPins).x n a j = s.x n a j := rfl
@[simp] theorem State.mode?_popPins (s : State) : (s.popPins).mode? = s.mode? := rfl
@[simp] theorem State.flags_popPins (s : State) : (s.popPins).flags = s.flags := rfl
@[simp] theorem State.spsr_popPins (s : State) (c : Bank) : (s.popPins).spsr c = s.spsr c := by cases c <;> rfl

@[simp] theorem State.mode?_withCpsr (s : State) (v : Word) : (s.withCpsr v).mode? = psrMode v := rfl

@[simp] theorem State.flags_withCpsr (s : State) (v : Word) : (s.withCpsr v).flags = psrFlags v := rfl

/-! ## PSR fields -/

theorem getLsbD_psrWithFlags (p : Word) (f : Flags) (i : Nat) :
    (psrWithFlags p f).getLsbD i =
      if i < 28 then p.getLsbD i
      else if i = 28 then f.v else if i = 29 then f.c else if i = 30 then f.z else decide (i = 31) && f.n := by
  show (BitVec.ofBool f.n ++ BitVec.ofBool f.z ++ BitVec.ofBool f.c ++ BitVec.ofBool f.v
    ++ p.extractLsb 27 0).getLsbD i = _
  simp only [BitVec.getLsbD_append, BitVec.getLsbD_extractLsb, BitVec.getLsbD_ofBool]
  by_cases h : i < 28
  · simp [h]
  · simp only [Nat.reduceSub, Nat.reduceAdd, if_neg h]
    by_cases h1 : i = 28
    · subst h1; simp
    by_cases h2 : i = 29
    · subst h2; simp
    by_cases h3 : i = 30
    · subst h3; simp
    by_cases h4 : i = 31
    · subst h4; simp
    · simp [h1, h2, h3, h4, show ¬ (i - 28 < 1) by omega, show ¬ (i - 28 - 1 < 1) by omega,
        show ¬ (i - 28 - 1 - 1 < 1) by omega]
      omega

theorem getLsbD_psrWithControl (p : Word) (i f t : Bool) (m : Mode) (k : Nat) :
    (psrWithControl p i f t m).getLsbD k =
      if k < 5 then m.bits.getLsbD k
      else if k = 5 then t else if k = 6 then f else if k = 7 then i else p.getLsbD k := by
  show (p.extractLsb 31 8 ++ BitVec.ofBool i ++ BitVec.ofBool f ++ BitVec.ofBool t ++ m.bits).getLsbD k = _
  simp only [BitVec.getLsbD_append, BitVec.getLsbD_extractLsb, BitVec.getLsbD_ofBool]
  by_cases h : k < 5
  · simp [h]
  by_cases h1 : k = 5
  · subst h1; simp
  by_cases h2 : k = 6
  · subst h2; simp
  by_cases h3 : k = 7
  · subst h3; simp
  have h8 : 8 + (k - 5 - 1 - 1 - 1) = k := by omega
  simp [h, h1, h2, h3, show ¬ (k - 5 < 1) by omega, show ¬ (k - 5 - 1 < 1) by omega,
    show ¬ (k - 5 - 1 - 1 < 1) by omega, h8]
  by_cases hk : k < 32
  · intro _; omega
  · rw [BitVec.getLsbD_of_ge p k (by omega)]; simp

theorem getLsbD_psrWithT (p : Word) (t : Bool) (k : Nat) :
    (psrWithT p t).getLsbD k = if k = 5 then t else p.getLsbD k := by
  show (p.extractLsb 31 6 ++ BitVec.ofBool t ++ p.extractLsb 4 0).getLsbD k = _
  simp only [BitVec.getLsbD_append, BitVec.getLsbD_extractLsb, BitVec.getLsbD_ofBool]
  by_cases h1 : k = 5
  · subst h1; simp
  by_cases h : k < 5
  · simp [h, h1]
  have h8 : 6 + (k - 5 - 1) = k := by omega
  simp [h, h1, show ¬ (k - 5 < 1) by omega, h8]
  by_cases hk : k < 32
  · intro _; omega
  · rw [BitVec.getLsbD_of_ge p k (by omega)]; simp

theorem psrWithFlags_control (p : Word) (f : Flags) :
    (psrWithFlags p f).extractLsb 27 0 = p.extractLsb 27 0 := by
  apply BitVec.eq_of_getLsbD_eq
  intro i hi
  have : i < 28 := hi
  simp [getLsbD_psrWithFlags, this]

@[simp] theorem psrFlags_psrWithFlags (p : Word) (f : Flags) : psrFlags (psrWithFlags p f) = f := by
  cases f; simp only [psrFlags, getLsbD_psrWithFlags]; simp

@[simp] theorem psrT_psrWithFlags (p : Word) (f : Flags) : psrT (psrWithFlags p f) = psrT p := by
  simp only [psrT, getLsbD_psrWithFlags]; simp

@[simp] theorem psrI_psrWithFlags (p : Word) (f : Flags) : psrI (psrWithFlags p f) = psrI p := by
  simp only [psrI, getLsbD_psrWithFlags]; simp

@[simp] theorem psrF_psrWithFlags (p : Word) (f : Flags) : psrF (psrWithFlags p f) = psrF p := by
  simp only [psrF, getLsbD_psrWithFlags]; simp

/-- The mode of a PSR is read from its five low bits. -/
theorem psrMode_congr {p q : Word} (h : ∀ k < 5, p.getLsbD k = q.getLsbD k) : psrMode p = psrMode q := by
  have e : p.extractLsb 4 0 = q.extractLsb 4 0 := by
    apply BitVec.eq_of_getLsbD_eq
    intro k hk
    have h5 : k < 5 := hk
    simp [h k h5]
  simp [psrMode, e]

@[simp] theorem psrMode_psrWithFlags (p : Word) (f : Flags) : psrMode (psrWithFlags p f) = psrMode p := by
  apply psrMode_congr
  intro k hk
  rw [getLsbD_psrWithFlags, if_pos (by omega)]

@[simp] theorem Mode.ofBits_bits (m : Mode) : Mode.ofBits m.bits = some m := by cases m <;> rfl

/-- The mode bits a PSR reads are the mode's own. -/
theorem Mode.bits_of_ofBits {v : BitVec 5} {m : Mode} (h : Mode.ofBits v = some m) : m.bits = v := by
  revert v; cases m <;> decide

@[simp] theorem psrI_psrWithControl (p : Word) (i f t : Bool) (m : Mode) : psrI (psrWithControl p i f t m) = i := by
  simp only [psrI, getLsbD_psrWithControl]; simp

@[simp] theorem psrF_psrWithControl (p : Word) (i f t : Bool) (m : Mode) : psrF (psrWithControl p i f t m) = f := by
  simp only [psrF, getLsbD_psrWithControl]; simp

@[simp] theorem psrT_psrWithControl (p : Word) (i f t : Bool) (m : Mode) : psrT (psrWithControl p i f t m) = t := by
  simp only [psrT, getLsbD_psrWithControl]; simp

@[simp] theorem psrMode_psrWithControl (p : Word) (i f t : Bool) (m : Mode) :
    psrMode (psrWithControl p i f t m) = some m := by
  have h : (psrWithControl p i f t m).extractLsb 4 0 = m.bits := by
    apply BitVec.eq_of_getLsbD_eq
    intro k hk
    have h5 : k < 5 := hk
    rw [BitVec.getLsbD_extractLsb, Nat.zero_add, getLsbD_psrWithControl, if_pos h5]
    simp [h5]
  simp [psrMode, h]

@[simp] theorem psrFlags_psrWithControl (p : Word) (i f t : Bool) (m : Mode) :
    psrFlags (psrWithControl p i f t m) = psrFlags p := by
  simp only [psrFlags, getLsbD_psrWithControl]; simp

@[simp] theorem psrT_psrWithT (p : Word) (t : Bool) : psrT (psrWithT p t) = t := by
  simp only [psrT, getLsbD_psrWithT]; simp

@[simp] theorem psrI_psrWithT (p : Word) (t : Bool) : psrI (psrWithT p t) = psrI p := by
  simp only [psrI, getLsbD_psrWithT]; simp

@[simp] theorem psrF_psrWithT (p : Word) (t : Bool) : psrF (psrWithT p t) = psrF p := by
  simp only [psrF, getLsbD_psrWithT]; simp

@[simp] theorem psrFlags_psrWithT (p : Word) (t : Bool) : psrFlags (psrWithT p t) = psrFlags p := by
  simp only [psrFlags, getLsbD_psrWithT]; simp

@[simp] theorem psrMode_psrWithT (p : Word) (t : Bool) : psrMode (psrWithT p t) = psrMode p := by
  apply psrMode_congr
  intro k hk
  rw [getLsbD_psrWithT, if_neg (by omega)]

end Sys2Proof.Machine
end

