-- ==== Sys2Proof/Laws/Memory.lean ====
section
/-! SUPPORT. The laws of memory: read after write, the canonical form kept by every memory operation, and what
`memRead` can do. -/

namespace Sys2Proof.Machine

/-- Read after write: the byte written at its address, the old byte elsewhere. -/
@[simp] theorem Memory.read_write (mem : Memory) (a : Nat) (b : Byte) (k : Nat) (h : mem.Pairwise (fun c d => c.1 < d.1)) :
    (mem.write a b).read k = if k = a then some b else mem.read k := by
  induction mem with
  | nil => simp only [Memory.write, Memory.read]; grind
  | cons c rest ih =>
    obtain ⟨x, v⟩ := c
    have hr := (List.pairwise_cons.mp h).2
    have ih := ih hr
    have absent : ∀ (l : Memory) (y : Nat), (∀ d ∈ l, y < d.1) → Memory.read l y = none := by
      intro l
      induction l with
      | nil => intros; rfl
      | cons d l ihl =>
        intro y hy
        have h1 := hy d (by simp)
        simp only [Memory.read]
        rw [if_neg (by omega)]
        exact ihl y (fun e he => hy e (by simp [he]))
    simp only [Memory.write]
    split
    · simp only [Memory.read]; grind
    · split
      · simp only [Memory.read]; grind
      · simp only [Memory.read, ih]; grind

/-- Every entry of a written memory is the new one or an old one. -/
theorem Memory.mem_write {mem : Memory} {a : Nat} {b : Byte} {c : Host.Cell} (h : c ∈ mem.write a b) :
    c = (a, b) ∨ c ∈ mem := by
  induction mem with
  | nil => simpa [Memory.write] using h
  | cons d rest ih =>
    obtain ⟨x, v⟩ := d
    simp only [Memory.write] at h
    split at h
    · simpa using h
    · split at h <;> simp at h ⊢ <;> grind

/-- A write inside the address space keeps the canonical form. -/
theorem Memory.wf_write {mem : Memory} {a : Nat} {b : Byte} (h : mem.wf) (ha : a < Config.addressEnd) :
    (mem.write a b).wf := by
  obtain ⟨hs, hb⟩ := h
  refine ⟨?_, ?_⟩
  · induction mem with
    | nil => simp [Memory.write]
    | cons d rest ih =>
      obtain ⟨x, v⟩ := d
      have hp := List.pairwise_cons.mp hs
      have hr := ih hp.2 (fun c hc => hb c (by simp [hc]))
      simp only [Memory.write]
      split
      · refine List.pairwise_cons.mpr ⟨?_, hs⟩
        intro e he
        rcases List.mem_cons.mp he with rfl | he
        · assumption
        · have := hp.1 e he
          simp only at this ⊢
          omega
      · split
        · rename_i h1 h2
          subst h2
          exact List.pairwise_cons.mpr ⟨fun e he => hp.1 e he, hp.2⟩
        · refine List.pairwise_cons.mpr ⟨?_, hr⟩
          intro e he
          rcases Memory.mem_write he with rfl | he
          · simp only; omega
          · exact hp.1 e he
  · intro c hc
    rcases Memory.mem_write hc with rfl | hc
    · exact ha
    · exact hb c hc

/-- The writes of other bus masters keep the canonical form (R77). -/
theorem Memory.wf_foreignWrites {mem : Memory} (h : mem.wf) (ws : List (Word × Byte)) :
    (mem.foreignWrites ws).wf := by
  induction ws generalizing mem with
  | nil => exact h
  | cons w ws ih => exact ih (Memory.wf_write h w.1.isLt)

/-- Bytes written at ascending addresses inside the address space keep the canonical form (R68). -/
theorem Memory.wf_writeBytes {mem : Memory} {a : Nat} {bs : List Byte} (h : mem.wf)
    (ha : a + bs.length ≤ Config.addressEnd) : (mem.writeBytes a bs).wf := by
  induction bs generalizing mem a with
  | nil => exact h
  | cons b bs ih =>
    simp only [List.length_cons] at ha
    exact ih (Memory.wf_write h (by omega)) (by omega)

/-- A byte no foreign write names reads as before. -/
theorem Memory.read_foreignWrites {mem : Memory} (h : mem.wf) (ws : List (Word × Byte)) (a : Nat)
    (ha : ∀ w ∈ ws, w.1.toNat ≠ a) : (mem.foreignWrites ws).read a = mem.read a := by
  induction ws generalizing mem with
  | nil => rfl
  | cons w ws ih =>
    have h1 := ih (Memory.wf_write (b := w.2) h w.1.isLt) (fun x hx => ha x (by simp [hx]))
    have h2 := ha w (by simp)
    show ((mem.write w.1.toNat w.2).foreignWrites ws).read a = _
    rw [h1, Memory.read_write _ _ _ _ h.1, if_neg (Ne.symm h2)]

/-- A byte outside the bytes written reads as before; a byte inside reads as written. -/
theorem Memory.read_writeBytes {mem : Memory} {a : Nat} {bs : List Byte} (h : mem.wf)
    (ha : a + bs.length ≤ Config.addressEnd) (k : Nat) :
    (mem.writeBytes a bs).read k =
      if a ≤ k ∧ k < a + bs.length then bs[k - a]? else mem.read k := by
  induction bs generalizing mem a with
  | nil => simp only [Memory.writeBytes, List.length_nil]; rw [if_neg (by omega)]
  | cons b bs ih =>
    simp only [List.length_cons] at ha
    simp only [Memory.writeBytes, List.length_cons]
    rw [ih (Memory.wf_write h (by omega)) (by omega), Memory.read_write _ _ _ _ h.1]
    by_cases hk : k = a
    · subst hk
      rw [if_neg (by omega), if_pos rfl, if_pos (by omega)]
      simp
    · by_cases hk2 : a + 1 ≤ k ∧ k < a + 1 + bs.length
      · rw [if_pos hk2, if_pos (by omega), show k - a = (k - (a + 1)) + 1 by omega, List.getElem?_cons_succ]
      · rw [if_neg hk2, if_neg hk, if_neg (by omega)]

/-- What reading bytes answers: all of them, or nothing where one is absent. -/
theorem Memory.readBytes_eq_some {mem : Memory} {a n : Nat} {bs : List Byte} :
    mem.readBytes a n = some bs ↔ bs.length = n ∧ ∀ k < n, mem.read (a + k) = bs[k]? := by
  induction n generalizing a bs with
  | zero => simp [Memory.readBytes]
  | succ n ih =>
    simp only [Memory.readBytes]
    constructor
    · intro h
      split at h
      · rename_i b cs hb hc
        obtain ⟨h1, h2⟩ := ih.mp hc
        simp only [Option.some.injEq] at h
        subst h
        refine ⟨by simp [h1], ?_⟩
        intro k hk
        cases k with
        | zero => simpa using hb
        | succ k =>
          have := h2 k (by omega)
          rw [show a + (k + 1) = a + 1 + k by omega, this]
          simp
      · cases h
    · rintro ⟨h1, h2⟩
      cases bs with
      | nil => simp at h1
      | cons b bs =>
        have hb := h2 0 (by omega)
        have hc := (ih (a := a + 1) (bs := bs)).mpr ⟨by simpa using h1, fun k hk => by
          have := h2 (k + 1) (by omega)
          rw [show a + 1 + k = a + (k + 1) by omega, this]
          simp⟩
        simp only [Nat.add_zero] at hb
        rw [hb, hc]
        simp

/-- Reset memory is in canonical form. -/
theorem resetWith_mem_wf (be : Bool) : (State.resetWith be).mem.wf := by
  simp [State.resetWith, Memory.wf]

/-! ## Accesses -/

/-- The state one access leaves: one bus entry fewer, and the foreign writes of that entry done. -/
theorem State.busAccess_eq (s : State) :
    s.busAccess.2 = { s with bus := s.bus.tail, mem := s.mem.foreignWrites (s.bus.headD BusEvent.quiet).writes } ∧
      s.busAccess.1 = (s.bus.headD BusEvent.quiet).abort := by
  rcases h : s.bus with _ | ⟨e, rest⟩ <;> simp [State.busAccess, h, BusEvent.quiet, Memory.foreignWrites]
  cases s; simp_all

@[simp] theorem State.busAccess_regs (s : State) : s.busAccess.2.regs = s.regs := by rw [s.busAccess_eq.1]
@[simp] theorem State.busAccess_cpsr (s : State) : s.busAccess.2.cpsr = s.cpsr := by rw [s.busAccess_eq.1]
@[simp] theorem State.busAccess_spsrs (s : State) : s.busAccess.2.spsrs = s.spsrs := by rw [s.busAccess_eq.1]
@[simp] theorem State.busAccess_bigEndian (s : State) : s.busAccess.2.bigEndian = s.bigEndian := by
  rw [s.busAccess_eq.1]
@[simp] theorem State.busAccess_pins (s : State) : s.busAccess.2.pins = s.pins := by rw [s.busAccess_eq.1]
@[simp] theorem State.busAccess_bus (s : State) : s.busAccess.2.bus = s.bus.tail := by rw [s.busAccess_eq.1]
@[simp] theorem State.busAccess_freeIndex (s : State) : s.busAccess.2.freeIndex = s.freeIndex := by
  rw [s.busAccess_eq.1]
@[simp] theorem State.busAccess_pc (s : State) : s.busAccess.2.pc = s.pc := by rw [s.busAccess_eq.1]; rfl
@[simp] theorem State.busAccess_get (s : State) (p : PhysReg) : s.busAccess.2.get p = s.get p := by
  rw [s.busAccess_eq.1]; rfl
@[simp] theorem State.busAccess_mode? (s : State) : s.busAccess.2.mode? = s.mode? := by rw [s.busAccess_eq.1]; rfl
@[simp] theorem State.busAccess_flags (s : State) : s.busAccess.2.flags = s.flags := by rw [s.busAccess_eq.1]; rfl

theorem State.busAccess_wf {s : State} (h : s.mem.wf) : s.busAccess.2.mem.wf := by
  rw [s.busAccess_eq.1]; exact Memory.wf_foreignWrites h _

/-- What a read that answers a value has done: the access was aligned and inside the address space, the memory
system did not abort it, and the value is the assembled bytes. -/
theorem memRead_value {kind : AccessKind} {a : Word} {w : Width} {s s1 : State} {v : Word} :
    memRead kind a w s = .value v s1 ↔
      a.toNat % w.bytes = 0 ∧ a.toNat + w.bytes ≤ Config.addressEnd ∧ s.busAccess.1 = false ∧ s1 = s.busAccess.2 ∧
        ∃ bs, s1.mem.readBytes a.toNat w.bytes = some bs ∧ v = BitVec.ofNat 32 (assembleBytes s.bigEndian bs) := by
  unfold memRead
  split
  · simp_all
  · split
    · simp_all
    · split
      · simp_all
      · split
        · simp_all
        · simp_all
          constructor
          · rintro ⟨rfl, rfl⟩; simp_all
          · rintro ⟨h1, _, h2, h3⟩; subst h1; simp_all

/-- What a read that is aborted has done. -/
theorem memRead_abort {kind : AccessKind} {a : Word} {w : Width} {s s1 : State} :
    memRead kind a w s = .abort s1 ↔
      a.toNat % w.bytes = 0 ∧ a.toNat + w.bytes ≤ Config.addressEnd ∧ s.busAccess.1 = true ∧ s1 = s.busAccess.2 := by
  unfold memRead
  split
  · simp_all
  · split
    · simp_all
    · split
      · simp_all; exact eq_comm
      · split <;> simp_all

end Sys2Proof.Machine
end

