-- ==== Sys2Proof/Laws/Ops.lean ====
section
/-! SUPPORT. One lemma per shared operation that says everything it can do when it answers a next state; proofs
about an instruction cite these in place of unfolding the operation. -/

namespace Sys2Proof.Machine

/-! ## Where a meaning runs -/

theorem inMode_next {s t : State} {body : Mode → Out} :
    inMode s body = .next t ↔ ∃ m, s.mode? = some m ∧ body m = .next t := by
  unfold inMode; split <;> simp_all

theorem inMode_of {s : State} {m : Mode} (h : s.mode? = some m) (body : Mode → Out) : inMode s body = body m := by
  simp [inMode, h]

theorem inMode_illegal {s : State} (h : s.mode? = none) (body : Mode → Out) :
    inMode s body = .fault .illegalMode := by
  simp [inMode, h]

theorem advance_next {s t : State} {n : Nat} :
    s.advance n = .next t ↔ s.pc.toNat + n < Config.addressEnd ∧ t = s.withPc (s.pc + BitVec.ofNat 32 n) := by
  unfold State.advance; split <;> simp_all [eq_comm]

theorem advance_of {s : State} {n : Nat} (h : s.pc.toNat + n < Config.addressEnd) :
    s.advance n = .next (s.withPc (s.pc + BitVec.ofNat 32 n)) := advance_next.mpr ⟨h, rfl⟩

theorem armInstr_next {c : Cond} {s t : State} {body : Mode → Out} :
    armInstr c s body = .next t ↔
      ∃ m, s.mode? = some m ∧
        ((condPasses c s.flags = true ∧ body m = .next t) ∨
          (condPasses c s.flags = false ∧ s.pc.toNat + 4 < Config.addressEnd ∧ t = s.withPc (s.pc + 4#32))) := by
  unfold armInstr
  rw [inMode_next]
  constructor
  · rintro ⟨m, hm, h⟩
    refine ⟨m, hm, ?_⟩
    split at h
    · exact .inl ⟨by assumption, h⟩
    · exact .inr ⟨by simp_all, advance_next.mp h⟩
  · rintro ⟨m, hm, ⟨hc, h⟩ | ⟨hc, h⟩⟩
    · exact ⟨m, hm, by simp [hc, h]⟩
    · exact ⟨m, hm, by simpa [hc] using advance_next.mpr h⟩

theorem armInstr_of {c : Cond} {s : State} {m : Mode} (h : s.mode? = some m) (hc : condPasses c s.flags = true)
    (body : Mode → Out) : armInstr c s body = body m := by
  simp [armInstr, inMode, h, hc]

theorem armInstr_skip {c : Cond} {s : State} {m : Mode} (h : s.mode? = some m) (hc : condPasses c s.flags = false)
    (body : Mode → Out) : armInstr c s body = s.advance 4 := by
  simp [armInstr, inMode, h, hc]

/-! ## Writing the pc -/

theorem branchTo_next {s t : State} {target : Int} {len : Nat} :
    s.branchTo target len = .next t ↔
      (0 ≤ target ∧ target ≤ Config.addressEnd - len) ∧ t = s.withPc (BitVec.ofInt 32 target) := by
  unfold State.branchTo; split <;> simp_all [eq_comm]

theorem jumpArm_next {s t : State} {v : Word} :
    s.jumpArm v = .next t ↔ v.extractLsb 1 0 = 0#2 ∧ t = s.withPc v := by
  unfold State.jumpArm
  split
  · simp_all
  · simp_all; exact eq_comm

theorem jumpThumb_next {s t : State} {v : Word} :
    s.jumpThumb v = .next t ↔ t = s.withPc (v &&& 0xFFFFFFFE#32) := by
  unfold State.jumpThumb; simp [eq_comm]

theorem branchExchange_next {s t : State} {v : Word} :
    s.branchExchange v = .next t ↔
      ¬ (v.getLsbD 0 = false ∧ v.getLsbD 1 = true) ∧
        t = (s.withCpsr (psrWithT s.cpsr (v.getLsbD 0))).withPc (v &&& 0xFFFFFFFE#32) := by
  unfold State.branchExchange
  split
  · simp_all
  · rename_i h; simp only [h, not_false_eq_true, true_and, Host.Outcome.next.injEq]; exact eq_comm

/-- Where an exception return goes in the state it restores (R143): a halfword address in Thumb state. -/
theorem exceptionReturn_next {s t : State} {m : Mode} {v : Word} :
    s.exceptionReturn m v = .next t ↔
      ∃ b, m.bank? = some b ∧ (psrT (s.spsr b) = false → v.extractLsb 1 0 = 0#2) ∧
        t = (s.withCpsr (s.spsr b)).withPc (if psrT (s.spsr b) then v &&& 0xFFFFFFFE#32 else v) := by
  unfold State.exceptionReturn
  cases hb : m.bank? with
  | none => simp
  | some b =>
    simp only [Option.some.injEq, exists_eq_left']
    by_cases hT : psrT (s.spsr b) = true
    · simp [hT, eq_comm]
    · by_cases ha : v.extractLsb 1 0 = 0#2
      · simp only [hT, ha]; simp [eq_comm]
      · simp [hT, ha]

/-! ## Results -/

theorem writeResult_next {s t : State} {m : Mode} {S : Bool} {rd : Reg} {v : Word} {f : Flags} :
    writeResult s m S rd v f = .next t ↔
      (rd = 15 ∧ S = true ∧ s.exceptionReturn m v = .next t) ∨
      (rd = 15 ∧ S = false ∧ s.jumpArm v = .next t) ∨
      (rd ≠ 15 ∧ s.pc.toNat + 4 < Config.addressEnd ∧
        t = (if S then (s.setX m rd v).withFlags f else s.setX m rd v).withPc (s.pc + 4#32)) := by
  unfold writeResult
  by_cases h : rd = 15
  · cases S <;> simp [h]
  · cases S <;> simp [h, advance_next]

theorem writeResult_of {s : State} {m : Mode} {S : Bool} {rd : Reg} {v : Word} {f : Flags} (h : rd ≠ 15)
    (hp : s.pc.toNat + 4 < Config.addressEnd) :
    writeResult s m S rd v f =
      .next ((if S then (s.setX m rd v).withFlags f else s.setX m rd v).withPc (s.pc + 4#32)) :=
  writeResult_next.mpr (.inr (.inr ⟨h, hp, rfl⟩))

theorem cmpOp_next {s t : State} {a b : Word} :
    cmpOp s a b = .next t ↔
      s.pc.toNat + 4 < Config.addressEnd ∧ t = (s.withFlags (subWithFlags a b).2).withPc (s.pc + 4#32) := by
  simp [cmpOp, advance_next]

theorem unlessPcAmount_next {rs : Reg} {body : Out} {t : State} :
    unlessPcAmount rs body = .next t ↔ rs ≠ 15 ∧ body = .next t := by
  unfold unlessPcAmount; split <;> simp_all

theorem thumbResult_next {s t : State} {m : Mode} {rd : LowReg} {r : Word × Flags} :
    thumbResult s m rd r = .next t ↔
      s.pc.toNat + 2 < Config.addressEnd ∧
        t = ((s.setX m (low rd) r.1).withFlags r.2).withPc (s.pc + 2#32) := by
  simp [thumbResult, advance_next]

theorem thumbCompare_next {s t : State} {a b : Word} :
    thumbCompare s a b = .next t ↔
      s.pc.toNat + 2 < Config.addressEnd ∧ t = (s.withFlags (subWithFlags a b).2).withPc (s.pc + 2#32) := by
  simp [thumbCompare, advance_next]

theorem unlessLowPair_next {a b : Reg} {body : Out} {t : State} :
    unlessLowPair a b body = .next t ↔ highPair a b = true ∧ body = .next t := by
  unfold unlessLowPair; split <;> simp_all

theorem thumbHighWrite_next {s t : State} {m : Mode} {d : Reg} {v : Word} :
    thumbHighWrite s m d v = .next t ↔
      (d = 15 ∧ t = s.withPc (v &&& 0xFFFFFFFE#32)) ∨
      (d ≠ 15 ∧ s.pc.toNat + 2 < Config.addressEnd ∧ t = (s.setX m d v).withPc (s.pc + 2#32)) := by
  unfold thumbHighWrite
  split
  · simp_all [jumpThumb_next]
  · simp_all [advance_next]

/-! ## PSR writes -/

theorem writePsr_next {s t : State} {m : Mode} {p : PsrName} {f : PsrFields} {v : Word} :
    writePsr s m p f v = .next t ↔
      s.pc.toNat + 4 < Config.addressEnd ∧
      ((p = .cpsr ∧ psrT (mergeBits (cpsrMask m f) s.cpsr v) = psrT s.cpsr ∧
          t = (s.withCpsr (mergeBits (cpsrMask m f) s.cpsr v)).withPc (s.pc + 4#32)) ∨
       (p = .spsr ∧ ∃ b, m.bank? = some b ∧
          t = (s.setSpsr b (mergeBits (msrMask f) (s.spsr b) v)).withPc (s.pc + 4#32))) := by
  cases p with
  | cpsr =>
    by_cases h : psrT (mergeBits (cpsrMask m f) s.cpsr v) = psrT s.cpsr
    · simp [writePsr, h, advance_next]
    · simp [writePsr, h]
  | spsr =>
    cases hb : m.bank? with
    | none => simp [writePsr, hb]
    | some b => simp [writePsr, hb, advance_next]

theorem getLsbD_mergeBits (mask old new : Word) (k : Nat) :
    (mergeBits mask old new).getLsbD k = if mask.getLsbD k then new.getLsbD k else old.getLsbD k := by
  by_cases hk : k < 32
  · simp only [mergeBits, BitVec.getLsbD_or, BitVec.getLsbD_and, BitVec.getLsbD_not, hk]
    cases mask.getLsbD k <;> simp
  · rw [BitVec.getLsbD_of_ge _ _ (by omega), BitVec.getLsbD_of_ge new _ (by omega), BitVec.getLsbD_of_ge old _ (by omega)]
    simp

theorem getLsbD_flagsMask (k : Nat) : (0xF0000000#32).getLsbD k = decide (28 ≤ k ∧ k < 32) := by
  by_cases hk : k < 32
  · revert k; decide
  · rw [BitVec.getLsbD_of_ge _ _ (by omega)]; simp; omega

theorem getLsbD_controlMask (k : Nat) : (0x000000FF#32).getLsbD k = decide (k < 8) := by
  by_cases hk : k < 32
  · revert k; decide
  · rw [BitVec.getLsbD_of_ge _ _ (by omega)]; simp; omega

/-- The bits an MSR selects (R175): 31 to 28 by `f`, 7 to 0 by `c`, no other. -/
theorem getLsbD_msrMask (f : PsrFields) (k : Nat) :
    (msrMask f).getLsbD k = ((f.f && decide (28 ≤ k ∧ k < 32)) || (f.c && decide (k < 8))) := by
  unfold msrMask
  rw [BitVec.getLsbD_or]
  cases f.f <;> cases f.c <;> simp [getLsbD_flagsMask, getLsbD_controlMask]

/-- In User mode only the flags are selected (R175). -/
theorem getLsbD_cpsrMask (m : Mode) (f : PsrFields) (k : Nat) :
    (cpsrMask m f).getLsbD k =
      ((f.f && decide (28 ≤ k ∧ k < 32)) || (f.c && decide (k < 8 ∧ m ≠ .user))) := by
  by_cases hm : m = .user
  · subst hm
    simp only [cpsrMask, Mode.privileged, Bool.false_eq_true, if_false, BitVec.getLsbD_and, getLsbD_msrMask,
      getLsbD_flagsMask]
    cases f.f <;> cases f.c <;> simp <;> omega
  · have hp : m.privileged = true := by cases m <;> simp_all [Mode.privileged]
    simp [cpsrMask, hp, hm, getLsbD_msrMask]

/-! ## Exceptions -/

/-- What an exception entry leaves in every register and every PSR (R193). -/
theorem takeException_spec (s : State) (e : ExcKind) (link : Word) :
    (∀ p, (s.takeException e link).get p =
        if p = .pc then e.vector else if p = e.bank.lr then link else s.get p) ∧
      (∀ b, (s.takeException e link).spsr b = if b = e.bank then s.cpsr else s.spsr b) ∧
      (s.takeException e link).cpsr = e.entryPsr s.cpsr ∧
      (s.takeException e link).mem = s.mem ∧ (s.takeException e link).bigEndian = s.bigEndian ∧
      (s.takeException e link).pins = s.pins ∧ (s.takeException e link).bus = s.bus ∧
      (s.takeException e link).freeIndex = s.freeIndex := by
  refine ⟨?_, ?_, rfl, ?_, ?_, ?_, ?_, ?_⟩
  · intro p
    simp [State.takeException]
  · intro b; simp [State.takeException]
  all_goals simp [State.takeException]

theorem entryPsr_mode (e : ExcKind) (p : Word) : psrMode (e.entryPsr p) = some e.bank.mode := by
  simp [ExcKind.entryPsr]

theorem entryPsr_T (e : ExcKind) (p : Word) : psrT (e.entryPsr p) = false := by simp [ExcKind.entryPsr]

theorem entryPsr_I (e : ExcKind) (p : Word) : psrI (e.entryPsr p) = true := by simp [ExcKind.entryPsr]

theorem entryPsr_F (e : ExcKind) (p : Word) : psrF (e.entryPsr p) = (e.setsF || psrF p) := by
  simp [ExcKind.entryPsr]

theorem getLsbD_entryPsr_high (e : ExcKind) (p : Word) (k : Nat) (h : 8 ≤ k) :
    (e.entryPsr p).getLsbD k = p.getLsbD k := by
  rw [ExcKind.entryPsr, getLsbD_psrWithControl]
  rw [if_neg (by omega), if_neg (by omega), if_neg (by omega), if_neg (by omega)]

end Sys2Proof.Machine
end

