-- ==== Sys2Proof/Laws/Load.lean ====
section
/-! SUPPORT. What the accesses of one instruction find and leave: `memRead` and `loadWords` in terms of the bus
schedule, and what writing loaded words does to the registers. -/

namespace Sys2Proof.Machine

/-! ## The bus schedule -/

/-- The state `k` accesses leave. -/
def State.accessed (s : State) (k : Nat) : State := { s with bus := s.bus.drop k, mem := s.memAfter k }

@[simp] theorem State.accessed_zero (s : State) : s.accessed 0 = s := rfl

theorem State.busAccess_snd (s : State) : s.busAccess.2 = s.accessed 1 := by
  rw [s.busAccess_eq.1]
  rcases h : s.bus with _ | ⟨e, rest⟩ <;>
    simp [State.accessed, State.memAfter, h, BusEvent.quiet, Memory.foreignWrites]

theorem State.busAccess_fst (s : State) : s.busAccess.1 = s.abortsAt 0 := by
  rw [s.busAccess_eq.2]
  rcases h : s.bus with _ | ⟨e, rest⟩ <;> simp [State.abortsAt, h, BusEvent.quiet]

theorem State.memAfter_accessed (s : State) (j k : Nat) : (s.accessed j).memAfter k = s.memAfter (j + k) := by
  simp only [State.accessed, State.memAfter, List.take_add, List.foldl_append]

theorem State.abortsAt_accessed (s : State) (j k : Nat) : (s.accessed j).abortsAt k = s.abortsAt (j + k) := by
  simp [State.accessed, State.abortsAt]

theorem State.accessed_accessed (s : State) (j k : Nat) : (s.accessed j).accessed k = s.accessed (j + k) := by
  have h := s.memAfter_accessed j k
  simp only [State.accessed, List.drop_drop] at h ⊢
  simp only [h]

@[simp] theorem State.accessed_regs (s : State) (k : Nat) : (s.accessed k).regs = s.regs := rfl
@[simp] theorem State.accessed_cpsr (s : State) (k : Nat) : (s.accessed k).cpsr = s.cpsr := rfl
@[simp] theorem State.accessed_spsrs (s : State) (k : Nat) : (s.accessed k).spsrs = s.spsrs := rfl
@[simp] theorem State.accessed_spsr (s : State) (k : Nat) (b : Bank) : (s.accessed k).spsr b = s.spsr b := by
  cases b <;> rfl
@[simp] theorem State.accessed_mem (s : State) (k : Nat) : (s.accessed k).mem = s.memAfter k := rfl
@[simp] theorem State.accessed_bus (s : State) (k : Nat) : (s.accessed k).bus = s.bus.drop k := rfl
@[simp] theorem State.accessed_pins (s : State) (k : Nat) : (s.accessed k).pins = s.pins := rfl
@[simp] theorem State.accessed_bigEndian (s : State) (k : Nat) : (s.accessed k).bigEndian = s.bigEndian := rfl
@[simp] theorem State.accessed_freeIndex (s : State) (k : Nat) : (s.accessed k).freeIndex = s.freeIndex := rfl
@[simp] theorem State.accessed_get (s : State) (k : Nat) (p : PhysReg) : (s.accessed k).get p = s.get p := rfl
@[simp] theorem State.accessed_pc (s : State) (k : Nat) : (s.accessed k).pc = s.pc := rfl
@[simp] theorem State.accessed_mode? (s : State) (k : Nat) : (s.accessed k).mode? = s.mode? := rfl
@[simp] theorem State.accessed_flags (s : State) (k : Nat) : (s.accessed k).flags = s.flags := rfl

/-- Foreign writes keep the canonical form, however many accesses they come with. -/
theorem State.memAfter_wf {s : State} (h : s.mem.wf) (k : Nat) : (s.memAfter k).wf := by
  unfold State.memAfter
  generalize s.bus.take k = es
  generalize s.mem = mem at h
  induction es generalizing mem with
  | nil => exact h
  | cons e es ih => exact ih _ (Memory.wf_foreignWrites h e.writes)

/-- An address none of the foreign writes of `k` accesses names reads as before. -/
theorem State.read_memAfter {s : State} (h : s.mem.wf) (k a : Nat)
    (ha : ∀ e ∈ s.bus.take k, ∀ w ∈ e.writes, w.1.toNat ≠ a) : (s.memAfter k).read a = s.mem.read a := by
  unfold State.memAfter
  generalize s.bus.take k = es at ha
  generalize s.mem = mem at h
  induction es generalizing mem with
  | nil => rfl
  | cons e es ih =>
    have h1 := ih (fun x hx => ha x (by simp [hx])) _ (Memory.wf_foreignWrites h e.writes)
    rw [List.foldl_cons, h1, Memory.read_foreignWrites h e.writes a (ha e (by simp))]

/-! ## Reads -/

/-- The four bytes of a word assemble to it (R64, R65, R67). -/
theorem assemble_word {mem : Memory} {be : Bool} {a : Nat} {bs : List Byte} (h : mem.readBytes a 4 = some bs) :
    wordAt mem be a = some (BitVec.ofNat 32 (assembleBytes be bs)) := by
  obtain ⟨hl, hr⟩ := Memory.readBytes_eq_some.mp h
  match bs, hl with
  | [b0, b1, b2, b3], _ =>
    have h0 := hr 0 (by omega)
    have h1 := hr 1 (by omega)
    have h2 := hr 2 (by omega)
    have h3 := hr 3 (by omega)
    simp at h0 h1 h2 h3
    simp only [wordAt, h0, h1, h2, h3, Option.some.injEq]
    apply BitVec.eq_of_toNat_eq
    have := b0.isLt; have := b1.isLt; have := b2.isLt; have := b3.isLt
    cases be
    · show (b3 ++ b2 ++ b1 ++ b0).toNat = _
      simp only [toNat_append_add, assembleBytes, BitVec.toNat_ofNat]
      simp
      omega
    · show (b0 ++ b1 ++ b2 ++ b3).toNat = _
      simp only [toNat_append_add, assembleBytes, BitVec.toNat_ofNat]
      simp
      omega

/-- A word is there exactly when its four bytes are. -/
theorem wordAt_isSome {mem : Memory} {be : Bool} {a : Nat} :
    (wordAt mem be a).isSome = (mem.readBytes a 4).isSome := by
  simp only [wordAt, Memory.readBytes]
  cases h0 : mem.read a <;> cases h1 : mem.read (a + 1) <;> cases h2 : mem.read (a + 2) <;>
    cases h3 : mem.read (a + 3) <;> simp_all

/-- A word read that answers. -/
theorem memRead_word {kind : AccessKind} {a : Word} {s : State} {v : Word} (ha : a.toNat % 4 = 0)
    (hq : s.abortsAt 0 = false) (hv : wordAt (s.memAfter 1) s.bigEndian a.toNat = some v) :
    memRead kind a .word s = .value v (s.accessed 1) := by
  apply memRead_value.mpr
  refine ⟨ha, ?_, by rw [s.busAccess_fst, hq], (s.busAccess_snd).symm, ?_⟩
  · have := a.isLt; simp only [Width.bytes, Config.addressEnd]; omega
  · have hs := wordAt_isSome (mem := s.memAfter 1) (be := s.bigEndian) (a := a.toNat)
    rw [hv] at hs
    obtain ⟨bs, hbs⟩ := Option.isSome_iff_exists.mp hs.symm
    refine ⟨bs, hbs, ?_⟩
    have := assemble_word (be := s.bigEndian) hbs
    rw [hv] at this
    exact Option.some.inj this

theorem memRead_word_abort {kind : AccessKind} {a : Word} {s : State} (ha : a.toNat % 4 = 0)
    (hq : s.abortsAt 0 = true) : memRead kind a .word s = .abort (s.accessed 1) := by
  apply memRead_abort.mpr
  refine ⟨ha, ?_, by rw [s.busAccess_fst, hq], (s.busAccess_snd).symm⟩
  have := a.isLt; simp only [Width.bytes, Config.addressEnd]; omega

/-- A read that answers a value leaves the state one access further. -/
theorem memRead_value_state {kind : AccessKind} {a : Word} {w : Width} {s s1 : State} {v : Word}
    (h : memRead kind a w s = .value v s1) : s1 = s.accessed 1 := by
  rw [(memRead_value.mp h).2.2.2.1, s.busAccess_snd]

theorem memRead_abort_state {kind : AccessKind} {a : Word} {w : Width} {s s1 : State}
    (h : memRead kind a w s = .abort s1) : s1 = s.accessed 1 := by
  rw [(memRead_abort.mp h).2.2.2, s.busAccess_snd]

/-! ## The reads of a load multiple -/

/-- Registers paired with the words of a sequence. -/
def pairWords (f : Nat → Word) : Nat → List Reg → List (Reg × Word)
  | _, [] => []
  | j, i :: rest => (i, f j) :: pairWords f (j + 1) rest

theorem pairWords_fst (f : Nat → Word) (j : Nat) (regs : List Reg) :
    (pairWords f j regs).map Prod.fst = regs := by
  induction regs generalizing j with
  | nil => rfl
  | cons i rest ih => simp [pairWords, ih]

/-- All reads answer (R180): the registers with the words, one access a register. -/
theorem loadWords_loaded {regs : List Reg} {addr : Word} {s : State} {f : Nat → Word} (j : Nat)
    (ha : addr.toNat % 4 = 0) (hr : addr.toNat + 4 * regs.length ≤ Config.addressEnd)
    (hv : ∀ k, k < regs.length → s.abortsAt k = false ∧
      wordAt (s.memAfter (k + 1)) s.bigEndian (addr.toNat + 4 * k) = some (f (j + k))) :
    loadWords regs addr s = .loaded (pairWords f j regs) (s.accessed regs.length) := by
  induction regs generalizing addr s j with
  | nil => rfl
  | cons i rest ih =>
    have h0 := hv 0 (by simp)
    simp only [Nat.mul_zero, Nat.add_zero, Nat.zero_add] at h0
    simp only [List.length_cons] at hr hv
    rw [loadWords, memRead_word ha h0.1 h0.2]
    simp only
    cases rest with
    | nil => rfl
    | cons i2 rest2 =>
      simp only [List.length_cons] at hr
      have hadd : (addr + 4#32).toNat = addr.toNat + 4 := by
        simp only [Config.addressEnd] at hr
        rw [BitVec.toNat_add]
        simp
        omega
      rw [ih (s := s.accessed 1) (addr := addr + 4#32) (j + 1) (by rw [hadd]; omega)
        (by simp only [List.length_cons]; rw [hadd]; omega)
        (by
          intro k hk
          have h1 := hv (k + 1) (by omega)
          rw [State.abortsAt_accessed, State.memAfter_accessed, hadd, State.accessed_bigEndian]
          rw [show 1 + k = k + 1 by omega, show 1 + (k + 1) = k + 1 + 1 by omega,
            show addr.toNat + 4 + 4 * k = addr.toNat + 4 * (k + 1) by omega,
            show j + 1 + k = j + (k + 1) by omega]
          exact h1)]
      simp only [pairWords, State.accessed_accessed, List.length_cons]
      rw [Nat.add_comm 1]

/-- Read number `k` is the first to abort (R184). -/
theorem loadWords_aborted {regs : List Reg} {addr : Word} {s : State} {f : Nat → Word} (j : Nat) {k : Nat}
    (ha : addr.toNat % 4 = 0) (hr : addr.toNat + 4 * regs.length ≤ Config.addressEnd) (hk : k < regs.length)
    (hv : ∀ i, i < k → s.abortsAt i = false ∧
      wordAt (s.memAfter (i + 1)) s.bigEndian (addr.toNat + 4 * i) = some (f (j + i)))
    (hab : s.abortsAt k = true) :
    loadWords regs addr s = .aborted (pairWords f j (regs.take k)) (s.accessed (k + 1)) := by
  induction regs generalizing addr s j k with
  | nil => simp at hk
  | cons i rest ih =>
    simp only [List.length_cons] at hr hk
    cases k with
    | zero =>
      rw [loadWords, memRead_word_abort ha hab]
      rfl
    | succ k =>
      have h0 := hv 0 (by omega)
      simp only [Nat.mul_zero, Nat.add_zero, Nat.zero_add] at h0
      rw [loadWords, memRead_word ha h0.1 h0.2]
      simp only
      have hadd : (addr + 4#32).toNat = addr.toNat + 4 := by
        simp only [Config.addressEnd] at hr
        rw [BitVec.toNat_add]
        simp
        omega
      rw [ih (s := s.accessed 1) (addr := addr + 4#32) (j + 1) (k := k) (by rw [hadd]; omega)
        (by rw [hadd]; omega) (by omega)
        (by
          intro i hi
          have h1 := hv (i + 1) (by omega)
          rw [State.abortsAt_accessed, State.memAfter_accessed, hadd, State.accessed_bigEndian]
          rw [show 1 + i = i + 1 by omega, show 1 + (i + 1) = i + 1 + 1 by omega,
            show addr.toNat + 4 + 4 * i = addr.toNat + 4 * (i + 1) by omega,
            show j + 1 + i = j + (i + 1) by omega]
          exact h1)
        (by rw [State.abortsAt_accessed, Nat.add_comm]; exact hab)]
      simp only [pairWords, List.take_succ_cons, State.accessed_accessed]
      rw [Nat.add_comm 1]

/-- Whatever the reads find: the state is some accesses further, and the words are those of the first registers. -/
theorem loadWords_loaded_inv {regs : List Reg} {addr : Word} {s t : State} {vals : List (Reg × Word)}
    (h : loadWords regs addr s = .loaded vals t) : vals.map Prod.fst = regs ∧ t = s.accessed regs.length := by
  induction regs generalizing addr s t vals with
  | nil => simp [loadWords] at h; obtain ⟨rfl, rfl⟩ := h; exact ⟨rfl, rfl⟩
  | cons i rest ih =>
    rw [loadWords] at h
    split at h <;> try cases h
    rename_i v s1 hm
    split at h <;> cases h
    rename_i vals2 _ hl
    obtain ⟨h1, h2⟩ := ih hl
    rw [memRead_value_state hm, State.accessed_accessed, Nat.add_comm] at h2
    exact ⟨by simp [h1], h2⟩

theorem loadWords_aborted_inv {regs : List Reg} {addr : Word} {s t : State} {vals : List (Reg × Word)}
    (h : loadWords regs addr s = .aborted vals t) :
    ∃ k, k < regs.length ∧ vals.map Prod.fst = regs.take k ∧ t = s.accessed (k + 1) := by
  induction regs generalizing addr s t vals with
  | nil => simp [loadWords] at h
  | cons i rest ih =>
    rw [loadWords] at h
    split at h
    · rename_i v s1 hm
      split at h <;> cases h
      rename_i vals2 hl
      obtain ⟨k, h1, h2, h3⟩ := ih hl
      rw [memRead_value_state hm, State.accessed_accessed] at h3
      exact ⟨k + 1, by simp; omega, by simp [h2], by rw [h3, Nat.add_comm 1]⟩
    · rename_i s1 hm
      cases h
      exact ⟨0, by simp, rfl, memRead_abort_state hm⟩
    · cases h
    · cases h

/-! ## Writing the words -/

/-- Writing loaded words changes general registers only. -/
theorem writeLoaded_regs (dest : Reg → PhysReg) (vals : List (Reg × Word)) (s : State) :
    ∃ r, writeLoaded dest vals s = { s with regs := r } := by
  induction vals generalizing s with
  | nil => exact ⟨s.regs, rfl⟩
  | cons x rest ih =>
    obtain ⟨i, v⟩ := x
    simp only [writeLoaded]
    by_cases h : i = 15
    · simpa [h] using ih s
    · obtain ⟨r, hr⟩ := ih (s.set (dest i) v)
      exact ⟨r, by simp only [h, if_false, hr]; rfl⟩

theorem writeSome_regs (dest : Reg → PhysReg) (choice : Word) (vals : List (Reg × Word)) (s : State) :
    ∃ r, writeSome dest choice vals s = { s with regs := r } := by
  induction vals generalizing s with
  | nil => exact ⟨s.regs, rfl⟩
  | cons x rest ih =>
    obtain ⟨i, v⟩ := x
    simp only [writeSome]
    split
    · obtain ⟨r, hr⟩ := ih (s.set (dest i) v)
      exact ⟨r, by rw [hr]; rfl⟩
    · exact ih s

/-- A register no written number names keeps its value. -/
theorem get_writeLoaded_other {dest : Reg → PhysReg} {vals : List (Reg × Word)} {s : State} {p : PhysReg}
    (h : ∀ i ∈ vals.map Prod.fst, i ≠ 15 → p ≠ dest i) : (writeLoaded dest vals s).get p = s.get p := by
  induction vals generalizing s with
  | nil => rfl
  | cons x rest ih =>
    obtain ⟨i, v⟩ := x
    simp only [writeLoaded]
    rw [ih (fun j hj => h j (by simp at hj ⊢; exact .inr hj))]
    split
    · rfl
    · rw [State.get_set_other _ _ (h i (by simp) (by assumption))]

theorem get_writeSome_other {dest : Reg → PhysReg} {choice : Word} {vals : List (Reg × Word)} {s : State}
    {p : PhysReg} (h : ∀ i ∈ vals.map Prod.fst, i ≠ 15 → p ≠ dest i) :
    (writeSome dest choice vals s).get p = s.get p := by
  induction vals generalizing s with
  | nil => rfl
  | cons x rest ih =>
    obtain ⟨i, v⟩ := x
    simp only [writeSome]
    rw [ih (fun j hj => h j (by simp at hj ⊢; exact .inr hj))]
    split
    · rename_i hc
      rw [State.get_set_other _ _ (h i (by simp) hc.1)]
    · rfl

/-- A listed register ends with its word, where no other listed number names the same register. -/
theorem get_writeLoaded_mem {dest : Reg → PhysReg} {vals : List (Reg × Word)} {s : State} {i : Reg} {v : Word}
    (hn : (vals.map Prod.fst).Nodup) (hm : (i, v) ∈ vals) (h15 : i ≠ 15)
    (hd : ∀ j ∈ vals.map Prod.fst, j ≠ 15 → dest j = dest i → j = i) :
    (writeLoaded dest vals s).get (dest i) = v := by
  induction vals generalizing s with
  | nil => cases hm
  | cons x rest ih =>
    obtain ⟨j, w⟩ := x
    simp only [List.map_cons, List.nodup_cons] at hn
    simp only [writeLoaded]
    rcases List.mem_cons.mp hm with heq | hm
    · cases heq
      rw [get_writeLoaded_other]
      · simp [h15]
      · intro j hj hj15 he
        have := hd j (by simp at hj ⊢; exact .inr hj) hj15 he.symm
        subst this
        exact hn.1 hj
    · exact ih hn.2 hm (fun k hk => hd k (by simp at hk ⊢; exact .inr hk))

/-- After an abort a register read before it holds its old value or its word. -/
theorem get_writeSome_mem {dest : Reg → PhysReg} {choice : Word} {vals : List (Reg × Word)} {s : State} {i : Reg}
    {v : Word} (hn : (vals.map Prod.fst).Nodup) (hm : (i, v) ∈ vals)
    (hd : ∀ j ∈ vals.map Prod.fst, j ≠ 15 → dest j = dest i → j = i) :
    (writeSome dest choice vals s).get (dest i) = s.get (dest i) ∨
      (writeSome dest choice vals s).get (dest i) = v := by
  induction vals generalizing s with
  | nil => cases hm
  | cons x rest ih =>
    obtain ⟨j, w⟩ := x
    simp only [List.map_cons, List.nodup_cons] at hn
    simp only [writeSome]
    rcases List.mem_cons.mp hm with heq | hm
    · cases heq
      rw [get_writeSome_other]
      · split <;> simp
      · intro j hj hj15 he
        have := hd j (by simp at hj ⊢; exact .inr hj) hj15 he.symm
        subst this
        exact hn.1 hj
    · rcases ih (s := if j ≠ 15 ∧ choice.getLsbD j.val = true then s.set (dest j) w else s) hn.2 hm
        (fun k hk => hd k (by simp at hk ⊢; exact .inr hk)) with h | h
      · left
        rw [h]
        split
        · rename_i hc
          rw [State.get_set_other]
          intro he
          have := hd j (by simp) hc.1 he.symm
          subst this
          exact hn.1 (List.mem_map.mpr ⟨_, hm, rfl⟩)
        · rfl
      · exact .inr h

/-! ## The whole of a load multiple -/

/-- A load multiple that answers a next state read every word and finished, or met an abort (R180, R184). -/
theorem loadMultiple_next {s t : State} {m : Mode} {mode : AddrMode} {wb : Bool} {rn : Reg} {regs : List Reg}
    {dest : Reg → PhysReg} {thumb : Bool} {finish : List (Reg × Word) → State → Out}
    (h : loadMultiple s m mode wb rn regs dest thumb finish = .next t) :
    (∃ vals, vals.map Prod.fst = regs ∧
        finish vals (if wb then (s.accessed regs.length).set (phys m rn)
            (BitVec.ofInt 32 (ldmRange mode (s.get (phys m rn)) regs.length).2)
          else s.accessed regs.length) = .next t) ∨
      ∃ k vals, k < regs.length ∧ vals.map Prod.fst = regs.take k ∧
        t = ldmAbort (s.accessed (k + 1)) dest vals (phys m rn)
          (if wb then BitVec.ofInt 32 (ldmRange mode (s.get (phys m rn)) regs.length).2
            else s.get (phys m rn)) thumb := by
  simp only [loadMultiple] at h
  split at h
  · cases h
  · split at h
    · cases h
    · split at h
      · rename_i vals s1 hl
        obtain ⟨h1, rfl⟩ := loadWords_loaded_inv hl
        exact .inl ⟨vals, h1, h⟩
      · rename_i vals s1 hl
        obtain ⟨k, hk, h1, rfl⟩ := loadWords_aborted_inv hl
        cases h
        exact .inr ⟨k, vals, hk, h1, rfl⟩
      · cases h
      · cases h

/-- The state after a data abort (R184, R193, R204), in every field. -/
theorem ldmAbort_spec (s : State) (dest : Reg → PhysReg) (vals : List (Reg × Word)) (baseReg : PhysReg)
    (baseAfter : Word) (thumb : Bool) :
    (∀ p, (ldmAbort s dest vals baseReg baseAfter thumb).get p =
        if p = .pc then 0x10#32
        else if p = .r14Abt then
          (((writeSome dest (Config.freeWord s.freeIndex) vals s).set baseReg baseAfter).pc + 8#32)
        else if p = baseReg then baseAfter
        else (writeSome dest (Config.freeWord s.freeIndex) vals s).get p) ∧
      (∀ b, (ldmAbort s dest vals baseReg baseAfter thumb).spsr b = if b = .abt then s.cpsr else s.spsr b) ∧
      (ldmAbort s dest vals baseReg baseAfter thumb).cpsr = ExcKind.dabt.entryPsr s.cpsr ∧
      (ldmAbort s dest vals baseReg baseAfter thumb).mem = s.mem ∧
      (ldmAbort s dest vals baseReg baseAfter thumb).bigEndian = s.bigEndian ∧
      (ldmAbort s dest vals baseReg baseAfter thumb).pins = s.pins ∧
      (ldmAbort s dest vals baseReg baseAfter thumb).bus = s.bus := by
  unfold ldmAbort State.raise
  obtain ⟨r, hr⟩ := writeSome_regs dest (Config.freeWord s.freeIndex) vals s
  have hc : (writeSome dest (Config.freeWord s.freeIndex) vals s).cpsr = s.cpsr := by rw [hr]
  have hs : ∀ b, (writeSome dest (Config.freeWord s.freeIndex) vals s).spsr b = s.spsr b := by
    intro b; rw [hr]; cases b <;> rfl
  obtain ⟨h1, h2, h3, h4, h5, h6, h7, -⟩ := takeException_spec
    (((writeSome dest (Config.freeWord s.freeIndex) vals s).set baseReg baseAfter).drawn 1) .dabt
    ((((writeSome dest (Config.freeWord s.freeIndex) vals s).set baseReg baseAfter).drawn 1).pc +
      ExcKind.dabt.linkOffset thumb)
  refine ⟨?_, ?_, ?_, ?_, ?_, ?_, ?_⟩
  · intro p
    rw [h1 p]
    simp only [State.get_drawn, State.get_set, State.pc_drawn]
    rfl
  · intro b
    rw [h2 b]
    simp only [State.cpsr_drawn, State.cpsr_set, State.spsr_drawn, State.spsr_set, hc, hs]
    rfl
  · rw [h3]; simp only [State.cpsr_drawn, State.cpsr_set, hc]
  · rw [h4, State.mem_drawn, State.mem_set, hr]
  · rw [h5, State.bigEndian_drawn, State.bigEndian_set, hr]
  · rw [h6, State.pins_drawn, State.pins_set, hr]
  · rw [h7, State.bus_drawn, State.bus_set, hr]

/-! ## Register lists -/

theorem mem_allRegs (i : Reg) : i ∈ allRegs := by revert i; decide

theorem mem_regsOf {list : BitVec 16} {i : Reg} : i ∈ regsOf list ↔ list.getLsbD i.val = true := by
  simp [regsOf, mem_allRegs]

theorem nodup_regsOf (list : BitVec 16) : (regsOf list).Nodup :=
  List.Nodup.filter _ (by decide)

end Sys2Proof.Machine
end

