-- ==== Sys2Proof/Laws/PerInstr.lean ====
section
/-! SUPPORT. Per-instruction families (LAWS.json): a statement about every instruction as syntax, one lemma per
constructor. -/

namespace Sys2Proof.Laws.EncodingState

/-- The encoding lies in the instruction set the opcode table gives the row, and exactly the ARM rows have a
condition field (R90, R91, R92). -/
def Statement (i : Instr) : Prop :=
  (i.isThumb = true ↔ ∃ h, encode i = .thumb h) ∧ (i.isThumb = false ↔ ∃ c, i.armCond = some c)

theorem of_arm {i : Instr} {c : Cond} {w : Word} (h1 : i.isThumb = false) (h2 : i.armCond = some c)
    (h3 : encode i = .arm w) : Statement i := by
  simp [Statement, h1, h2, h3]

theorem of_thumb {i : Instr} {h : Half} (h1 : i.isThumb = true) (h2 : i.armCond = none)
    (h3 : encode i = .thumb h) : Statement i := by
  simp [Statement, h1, h2, h3]

theorem bx (cond : Cond) (rm : Reg) :
    Statement (.bx cond rm) := of_arm rfl rfl rfl

theorem mrs (cond : Cond) (psr : PsrName) (rd : Reg) :
    Statement (.mrs cond psr rd) := of_arm rfl rfl rfl

theorem msrReg (cond : Cond) (psr : PsrName) (fields : PsrFields) (rm : Reg) :
    Statement (.msrReg cond psr fields rm) := of_arm rfl rfl rfl

theorem msrImm (cond : Cond) (psr : PsrName) (fields : PsrFields) (rot : BitVec 4) (imm8 : BitVec 8) :
    Statement (.msrImm cond psr fields rot imm8) := of_arm rfl rfl rfl

theorem movImm (cond : Cond) (setFlags : Bool) (rd : Reg) (rot : BitVec 4) (imm8 : BitVec 8) :
    Statement (.movImm cond setFlags rd rot imm8) := of_arm rfl rfl rfl

theorem movReg (cond : Cond) (setFlags : Bool) (rd : Reg) (shiftImm : BitVec 5) (type : ShiftType) (rm : Reg) :
    Statement (.movReg cond setFlags rd shiftImm type rm) := of_arm rfl rfl rfl

theorem movRsr (cond : Cond) (setFlags : Bool) (rd rs : Reg) (type : ShiftType) (rm : Reg) :
    Statement (.movRsr cond setFlags rd rs type rm) := of_arm rfl rfl rfl

theorem addImm (cond : Cond) (setFlags : Bool) (rn rd : Reg) (rot : BitVec 4) (imm8 : BitVec 8) :
    Statement (.addImm cond setFlags rn rd rot imm8) := of_arm rfl rfl rfl

theorem addReg (cond : Cond) (setFlags : Bool) (rn rd : Reg) (shiftImm : BitVec 5) (type : ShiftType) (rm : Reg) :
    Statement (.addReg cond setFlags rn rd shiftImm type rm) := of_arm rfl rfl rfl

theorem addRsr (cond : Cond) (setFlags : Bool) (rn rd rs : Reg) (type : ShiftType) (rm : Reg) :
    Statement (.addRsr cond setFlags rn rd rs type rm) := of_arm rfl rfl rfl

theorem subImm (cond : Cond) (setFlags : Bool) (rn rd : Reg) (rot : BitVec 4) (imm8 : BitVec 8) :
    Statement (.subImm cond setFlags rn rd rot imm8) := of_arm rfl rfl rfl

theorem subReg (cond : Cond) (setFlags : Bool) (rn rd : Reg) (shiftImm : BitVec 5) (type : ShiftType) (rm : Reg) :
    Statement (.subReg cond setFlags rn rd shiftImm type rm) := of_arm rfl rfl rfl

theorem subRsr (cond : Cond) (setFlags : Bool) (rn rd rs : Reg) (type : ShiftType) (rm : Reg) :
    Statement (.subRsr cond setFlags rn rd rs type rm) := of_arm rfl rfl rfl

theorem cmpImm (cond : Cond) (rn : Reg) (rot : BitVec 4) (imm8 : BitVec 8) :
    Statement (.cmpImm cond rn rot imm8) := of_arm rfl rfl rfl

theorem cmpReg (cond : Cond) (rn : Reg) (shiftImm : BitVec 5) (type : ShiftType) (rm : Reg) :
    Statement (.cmpReg cond rn shiftImm type rm) := of_arm rfl rfl rfl

theorem cmpRsr (cond : Cond) (rn rs : Reg) (type : ShiftType) (rm : Reg) :
    Statement (.cmpRsr cond rn rs type rm) := of_arm rfl rfl rfl

theorem undefined (cond : Cond) (hi : BitVec 20) (lo : BitVec 4) :
    Statement (.undefined cond hi lo) := of_arm rfl rfl rfl

theorem ldmPcSpsr (cond : Cond) (mode : AddrMode) (wb : Bool) (rn : Reg) (list : BitVec 15) :
    Statement (.ldmPcSpsr cond mode wb rn list) := of_arm rfl rfl rfl

theorem ldmUser (cond : Cond) (mode : AddrMode) (wb : Bool) (rn : Reg) (list : BitVec 15) :
    Statement (.ldmUser cond mode wb rn list) := of_arm rfl rfl rfl

theorem ldm (cond : Cond) (mode : AddrMode) (wb : Bool) (rn : Reg) (list : BitVec 16) :
    Statement (.ldm cond mode wb rn list) := of_arm rfl rfl rfl

theorem b (cond : Cond) (imm24 : BitVec 24) :
    Statement (.b cond imm24) := of_arm rfl rfl rfl

theorem bl (cond : Cond) (imm24 : BitVec 24) :
    Statement (.bl cond imm24) := of_arm rfl rfl rfl

theorem swi (cond : Cond) (imm24 : BitVec 24) :
    Statement (.swi cond imm24) := of_arm rfl rfl rfl

theorem tAddReg (rn rs rd : LowReg) :
    Statement (.tAddReg rn rs rd) := of_thumb rfl rfl rfl

theorem tAddImm3 (imm3 : BitVec 3) (rs rd : LowReg) :
    Statement (.tAddImm3 imm3 rs rd) := of_thumb rfl rfl rfl

theorem tMovImm8 (rd : LowReg) (imm8 : BitVec 8) :
    Statement (.tMovImm8 rd imm8) := of_thumb rfl rfl rfl

theorem tCmpImm8 (rd : LowReg) (imm8 : BitVec 8) :
    Statement (.tCmpImm8 rd imm8) := of_thumb rfl rfl rfl

theorem tAddImm8 (rd : LowReg) (imm8 : BitVec 8) :
    Statement (.tAddImm8 rd imm8) := of_thumb rfl rfl rfl

theorem tCmpReg (rs rd : LowReg) :
    Statement (.tCmpReg rs rd) := of_thumb rfl rfl rfl

theorem tAddHi (s d : Reg) :
    Statement (.tAddHi s d) := of_thumb rfl rfl rfl

theorem tCmpHi (s d : Reg) :
    Statement (.tCmpHi s d) := of_thumb rfl rfl rfl

theorem tMovHi (s d : Reg) :
    Statement (.tMovHi s d) := of_thumb rfl rfl rfl

theorem tBx (s : Reg) :
    Statement (.tBx s) := of_thumb rfl rfl rfl

theorem tAddPc (rd : LowReg) (imm8 : BitVec 8) :
    Statement (.tAddPc rd imm8) := of_thumb rfl rfl rfl

theorem tAddSp (rd : LowReg) (imm8 : BitVec 8) :
    Statement (.tAddSp rd imm8) := of_thumb rfl rfl rfl

theorem tAddSpImm7 (subtract : Bool) (imm7 : BitVec 7) :
    Statement (.tAddSpImm7 subtract imm7) := of_thumb rfl rfl rfl

theorem tLdmia (rb : LowReg) (list : BitVec 8) :
    Statement (.tLdmia rb list) := of_thumb rfl rfl rfl

theorem tUndefined (imm8 : BitVec 8) :
    Statement (.tUndefined imm8) := of_thumb rfl rfl rfl

theorem tSwi (imm8 : BitVec 8) :
    Statement (.tSwi imm8) := of_thumb rfl rfl rfl

theorem tBcond (cond : Cond) (soffset8 : BitVec 8) :
    Statement (.tBcond cond soffset8) := of_thumb rfl rfl rfl

theorem tB (offset11 : BitVec 11) :
    Statement (.tB offset11) := of_thumb rfl rfl rfl

theorem tBlHi (offset11 : BitVec 11) :
    Statement (.tBlHi offset11) := of_thumb rfl rfl rfl

theorem tBlLo (offset11 : BitVec 11) :
    Statement (.tBlLo offset11) := of_thumb rfl rfl rfl

end Sys2Proof.Laws.EncodingState
end

