-- ==== Sys2Proof/Tests/Slice0.lean ====
section
/-! SUPPORT. Tests. Words and expected values are those of spec/95_test_vectors.md (vector names in the comments) or
are worked out by hand from the encodings of spec/30_encoding.md; the witnesses at the end show that the hypotheses
of the statements are met together. -/

namespace Sys2Proof.Tests.Slice0

open Sys2Proof.Machine

/-- A small state: a CPSR, a pc, some registers, big-endian memory of nothing. -/
def st (cpsr pc : Word) (rs : List (PhysReg × Word)) : State :=
  rs.foldl (fun s r => s.set r.1 r.2) (((State.resetWith true).withCpsr cpsr).withPc pc)

/-- The state with words stored at ascending word addresses. -/
def withWords (s : State) (a : Nat) (ws : List Word) : State :=
  { s with mem := s.mem.writeBytes a (ws.flatMap (layoutBytes true 4)) }

/-- The words 0x9008 to 0x9018 of file 95, section 2.7. -/
def withTable (s : State) : State := withWords s 0x9008 [0xA8, 0xAC, 0xB0, 0xB4, 0xB8]

/-- One step that fetches the ARM word `w`. -/
def runArm (s : State) (w : Nat) : Out := step (s.withFetchWord 32 w)

/-- One step that fetches the Thumb halfword `h`. -/
def runThumb (s : State) (h : Nat) : Out := step (s.withFetchWord 16 h)

/-- The outcome is a next state that `p` holds of. -/
def after (o : Out) (p : State → Bool) : Bool :=
  match o with
  | .next t => p t
  | .fault _ => false
  | .refused _ => false

/-- The outcome is this refusal. -/
def refuses (o : Out) (r : Refusal) : Bool :=
  match o with
  | .next _ => false
  | .fault _ => false
  | .refused q => q == r

/-! ## Well-formedness -/

/-- R114: 1110 in a Thumb conditional branch is the undefined instruction. -/
theorem test_wf_refuses_branch_on_al :
    Instr.wellFormed (.tBcond .al 0#8) = false := by decide

theorem test_wf_accepts_branch_on_le :
    Instr.wellFormed (.tBcond .le 0#8) = true := by decide

/-- P2 of file 93. -/
theorem test_predictable_refuses_bx_pc :
    Instr.predictable (.bx .al 15) = false := by decide

/-- R172. -/
theorem test_predictable_refuses_mrs_pc :
    Instr.predictable (.mrs .al .cpsr 15) = false := by decide

/-- R173. -/
theorem test_predictable_refuses_msr_pc :
    Instr.predictable (.msrReg .al .cpsr { f := true, s := false, x := false, c := true } 15) = false := by decide

/-- R98. -/
theorem test_predictable_refuses_mov_rs_pc :
    Instr.predictable (.movRsr .al false 0 15 .lsl 1) = false := by decide

/-- R98. -/
theorem test_predictable_refuses_add_rs_pc :
    Instr.predictable (.addRsr .al false 0 0 15 .lsl 1) = false := by decide

/-- R98. -/
theorem test_predictable_refuses_sub_rs_pc :
    Instr.predictable (.subRsr .al false 0 0 15 .lsl 1) = false := by decide

/-- R98. -/
theorem test_predictable_refuses_cmp_rs_pc :
    Instr.predictable (.cmpRsr .al 0 15 .lsl 1) = false := by decide

/-- R185. -/
theorem test_predictable_refuses_ldm_base_pc :
    Instr.predictable (.ldm .al .ia false 15 1#16) = false := by decide

/-- R185. -/
theorem test_predictable_refuses_ldm_empty :
    Instr.predictable (.ldm .al .ia false 0 0#16) = false := by decide

/-- R185. -/
theorem test_predictable_refuses_ldm_writeback_loaded :
    Instr.predictable (.ldm .al .ia true 0 3#16) = false := by decide

/-- R182. -/
theorem test_predictable_refuses_ldm_return_base_pc :
    Instr.predictable (.ldmPcSpsr .al .ia false 15 1#15) = false := by decide

/-- R182. -/
theorem test_predictable_refuses_ldm_return_writeback_loaded :
    Instr.predictable (.ldmPcSpsr .al .ia true 1 2#15) = false := by decide

/-- R183. -/
theorem test_predictable_refuses_ldm_user_writeback :
    Instr.predictable (.ldmUser .al .ia true 0 2#15) = false := by decide

/-- R183. -/
theorem test_predictable_refuses_ldm_user_base_pc :
    Instr.predictable (.ldmUser .al .ia false 15 2#15) = false := by decide

/-- R183. -/
theorem test_predictable_refuses_ldm_user_empty :
    Instr.predictable (.ldmUser .al .ia false 0 0#15) = false := by decide

/-- R110. -/
theorem test_predictable_refuses_add_low_pair :
    Instr.predictable (.tAddHi 0 1) = false := by decide

/-- R110. -/
theorem test_predictable_refuses_cmp_low_pair :
    Instr.predictable (.tCmpHi 0 1) = false := by decide

/-- R161. -/
theorem test_predictable_refuses_cmp_high_pc :
    Instr.predictable (.tCmpHi 0 15) = false := by decide

/-- R110. -/
theorem test_predictable_refuses_mov_low_pair :
    Instr.predictable (.tMovHi 0 1) = false := by decide

/-- R186. -/
theorem test_predictable_refuses_ldmia_empty :
    Instr.predictable (.tLdmia 0 0#8) = false := by decide

/-! ## Decoding: a word of every constructor -/

/-- S5, S6, S12, S8. -/
theorem test_decode_status :
    decode (.arm 0xE10F0000#32) = .ok (.mrs .al .cpsr 0) ∧
    decode (.arm 0xE14F0000#32) = .ok (.mrs .al .spsr 0) ∧
    decode (.arm 0xE121F000#32) = .ok (.msrReg .al .cpsr { f := false, s := false, x := false, c := true } 0) ∧
    decode (.arm 0xE328F4F0#32) = .ok (.msrImm .al .cpsr { f := true, s := false, x := false, c := false } 4#4 0xF0#8) := by decide

/-- P2, A9, A16. -/
theorem test_decode_mov :
    decode (.arm 0xE3A04A09#32) = .ok (.movImm .al false 4 0xA#4 0x09#8) ∧
    decode (.arm 0xE1B00021#32) = .ok (.movReg .al true 0 0#5 .lsr 1) ∧
    decode (.arm 0xE1B00211#32) = .ok (.movRsr .al true 0 2 .lsl 1) := by decide

/-- A26, A8, and by R95 and R98 `ADD R3, R1, R2, LSL R4`: 1110 000 0100 0 0001 0011 0100 0 00 1 0010. -/
theorem test_decode_add :
    decode (.arm 0xE28F0001#32) = .ok (.addImm .al false 15 0 0#4 1#8) ∧
    decode (.arm 0xE0800001#32) = .ok (.addReg .al false 0 0 0#5 .lsl 1) ∧
    decode (.arm 0xE0813412#32) = .ok (.addRsr .al false 1 3 4 .lsl 2) := by decide

/-- X5, A5, and by R95 and R98 `SUBS R3, R1, R2, LSR R4`: 1110 000 0010 1 0001 0011 0100 0 01 1 0010. -/
theorem test_decode_sub :
    decode (.arm 0xE25EF004#32) = .ok (.subImm .al true 14 15 0#4 4#8) ∧
    decode (.arm 0xE0510002#32) = .ok (.subReg .al true 1 0 0#5 .lsl 2) ∧
    decode (.arm 0xE0513432#32) = .ok (.subRsr .al true 1 3 4 .lsr 2) := by decide

/-- P3, A7, and by R95 and R98 `CMP R1, R2, ASR R4`: 1110 000 1010 1 0001 0000 0100 0 10 1 0010. -/
theorem test_decode_cmp :
    decode (.arm 0xE3500001#32) = .ok (.cmpImm .al 0 0#4 1#8) ∧
    decode (.arm 0xE1510002#32) = .ok (.cmpReg .al 1 0#5 .lsl 2) ∧
    decode (.arm 0xE1510452#32) = .ok (.cmpRsr .al 1 4 .asr 2) := by decide

/-- S3, S1, S4, S2. -/
theorem test_decode_exceptions :
    decode (.arm 0xE7F000F0#32) = .ok (.undefined .al 0xF8007#20 0#4) ∧
    decode (.arm 0xEF123456#32) = .ok (.swi .al 0x123456#24) ∧
    decode (.thumb 0xDE00#16) = .ok (.tUndefined 0#8) ∧
    decode (.thumb 0xDF05#16) = .ok (.tSwi 5#8) := by decide

/-- L16, L17, P2, L7, L3, L5, L19. -/
theorem test_decode_ldm :
    decode (.arm 0xE8FD8001#32) = .ok (.ldmPcSpsr .al .ia true 13 1#15) ∧
    decode (.arm 0xE8D06000#32) = .ok (.ldmUser .al .ia false 0 0x6000#15) ∧
    decode (.arm 0xE8B4000E#32) = .ok (.ldm .al .ia true 4 0x000E#16) ∧
    decode (.arm 0xE9100006#32) = .ok (.ldm .al .db false 0 6#16) ∧
    decode (.arm 0xE9900006#32) = .ok (.ldm .al .ib false 0 6#16) ∧
    decode (.arm 0xE8100006#32) = .ok (.ldm .al .da false 0 6#16) ∧
    decode (.thumb 0xC806#16) = .ok (.tLdmia 0 6#8) := by decide

/-- B1, B7, B8. -/
theorem test_decode_branches :
    decode (.arm 0x1AFFFFFC#32) = .ok (.b .ne 0xFFFFFC#24) ∧
    decode (.arm 0xEB000001#32) = .ok (.bl .al 1#24) ∧
    decode (.arm 0xE12FFF10#32) = .ok (.bx .al 0) := by decide

/-- H5, H6, H1, H4, H3, H8. -/
theorem test_decode_thumb_low :
    decode (.thumb 0x1888#16) = .ok (.tAddReg 2 1 0) ∧
    decode (.thumb 0x1C48#16) = .ok (.tAddImm3 1#3 1 0) ∧
    decode (.thumb 0x210A#16) = .ok (.tMovImm8 1 10#8) ∧
    decode (.thumb 0x290F#16) = .ok (.tCmpImm8 1 15#8) ∧
    decode (.thumb 0x3105#16) = .ok (.tAddImm8 1 5#8) ∧
    decode (.thumb 0x4288#16) = .ok (.tCmpReg 1 0) := by decide

/-- H10, H9, H11, B23. -/
theorem test_decode_thumb_high :
    decode (.thumb 0x4440#16) = .ok (.tAddHi 8 0) ∧
    decode (.thumb 0x4541#16) = .ok (.tCmpHi 8 1) ∧
    decode (.thumb 0x4688#16) = .ok (.tMovHi 1 8) ∧
    decode (.thumb 0x4778#16) = .ok (.tBx 15) := by decide

/-- H13, H15, H16, H17. -/
theorem test_decode_thumb_address :
    decode (.thumb 0xA002#16) = .ok (.tAddPc 0 2#8) ∧
    decode (.thumb 0xA802#16) = .ok (.tAddSp 0 2#8) ∧
    decode (.thumb 0xB004#16) = .ok (.tAddSpImm7 false 4#7) ∧
    decode (.thumb 0xB084#16) = .ok (.tAddSpImm7 true 4#7) := by decide

/-- B12, B15, B18, B17. -/
theorem test_decode_thumb_branches :
    decode (.thumb 0xD003#16) = .ok (.tBcond .eq 3#8) ∧
    decode (.thumb 0xE7F6#16) = .ok (.tB 0x7F6#11) ∧
    decode (.thumb 0xF7FF#16) = .ok (.tBlHi 0x7FF#11) ∧
    decode (.thumb 0xF87E#16) = .ok (.tBlLo 0x07E#11) := by decide

/-- K6. -/
theorem test_decode_refuses_1111 :
    decode (.arm 0xF1A00000#32) = .error .cond1111 := by decide

/-- Section 2.9, A28, A29. -/
theorem test_decode_refuses_arm :
    decode (.arm 0xE5901000#32) = .error .unspecifiedEncoding ∧
    decode (.arm 0xE0010392#32) = .error .unspecifiedEncoding ∧
    decode (.arm 0xE0000001#32) = .error .unspecifiedEncoding ∧
    decode (.arm 0xE8A4000E#32) = .error .unspecifiedEncoding ∧
    decode (.arm 0xE1010092#32) = .error .unspecifiedEncoding ∧
    decode (.arm 0xEE010F10#32) = .error .unspecifiedEncoding ∧
    decode (.arm 0xE1D010B0#32) = .error .unspecifiedEncoding ∧
    decode (.arm 0xE3100001#32) = .error .unspecifiedEncoding ∧
    decode (.arm 0xE3A11001#32) = .error .unspecifiedEncoding ∧
    decode (.arm 0xE1501001#32) = .error .unspecifiedEncoding := by decide

/-- Section 2.9. -/
theorem test_decode_refuses_thumb :
    decode (.thumb 0x6801#16) = .error .unspecifiedEncoding ∧
    decode (.thumb 0xB500#16) = .error .unspecifiedEncoding ∧
    decode (.thumb 0xBD00#16) = .error .unspecifiedEncoding ∧
    decode (.thumb 0x0001#16) = .error .unspecifiedEncoding ∧
    decode (.thumb 0x1A40#16) = .error .unspecifiedEncoding ∧
    decode (.thumb 0x3801#16) = .error .unspecifiedEncoding ∧
    decode (.thumb 0x4008#16) = .error .unspecifiedEncoding ∧
    decode (.thumb 0x4780#16) = .error .unspecifiedEncoding ∧
    decode (.thumb 0xC006#16) = .error .unspecifiedEncoding ∧
    decode (.thumb 0xE800#16) = .error .unspecifiedEncoding ∧
    decode (.thumb 0x4800#16) = .error .unspecifiedEncoding := by decide

theorem test_table_words :
    decodeTableWord 32 0xEB000001 = some (.bl .al 1#24) ∧ decodeTableWord 16 0xD003 = some (.tBcond .eq 3#8) ∧
    decodeTableWord 16 0xE800 = none := by decide

/-- M7. -/
theorem test_little_endian_bytes :
    decodeBytes false false [0x00#8, 0x00#8, 0xA0#8, 0xE3#8] = .ok (.movImm .al false 0 0#4 0#8) := by decide

/-! ## Memory -/

/-- M1. -/
theorem test_read_word :
    (memRead .data 0x9000#32 .word (withWords (st 0x1F 0 []) 0x9000 [0x11223344]),
      wordAt (withWords (st 0x1F 0 []) 0x9000 [0x11223344]).mem false 0x9000) =
    (.value 0x11223344#32 (withWords (st 0x1F 0 []) 0x9000 [0x11223344]), some 0x44332211#32) := by decide

/-- M3. -/
theorem test_read_half :
    memRead .data 0x9002#32 .halfword { withWords (st 0x1F 0 []) 0x9000 [0x11223344] with bigEndian := false } =
    .value 0x4433#32 { withWords (st 0x1F 0 []) 0x9000 [0x11223344] with bigEndian := false } := by decide

/-- M5. -/
theorem test_read_misaligned :
    memRead .data 0x9002#32 .word (withTable (st 0x1F 0 [])) = .refused .misalignedAccess := by decide

/-! ## One step -/

/-- B1. -/
theorem test_b_taken :
    after (runArm (st 0x10 0x8010 []) 0x1AFFFFFC) (fun t => t.pc == 0x8008#32) = true := by decide

/-- B6. -/
theorem test_b_wrap :
    refuses (runArm (st 0x10 0x8000 []) 0xEA800000) .pcWrap = true := by decide

/-- B7. -/
theorem test_bl :
    after (runArm (st 0x10 0x8004 []) 0xEB000001) (fun t => t.pc == 0x8010#32 && t.get .r14 == 0x8008#32) = true := by decide

/-- B8. -/
theorem test_bx_to_thumb :
    after (runArm (st 0x10 0x8004 [(.r0, 0x8011)]) 0xE12FFF10) (fun t => t.pc == 0x8010#32 && t.cpsr == 0x30#32) = true := by decide

/-- B10. -/
theorem test_bx_misaligned :
    refuses (runArm (st 0x10 0x8004 [(.r0, 0x8032)]) 0xE12FFF10) .misalignedPc = true := by decide

/-- B12. -/
theorem test_tBcond_taken :
    after (runThumb (st 0x40000030 0x8016 []) 0xD003) (fun t => t.pc == 0x8020#32) = true := by decide

/-- B13. -/
theorem test_tBcond_not_taken :
    after (runThumb (st 0x30 0x8016 []) 0xD003) (fun t => t.pc == 0x8018#32) = true := by decide

/-- B15. -/
theorem test_tB :
    after (runThumb (st 0x30 0x8020 []) 0xE7F6) (fun t => t.pc == 0x8010#32) = true := by decide

/-- B18. -/
theorem test_tBlHi_negative :
    after (runThumb (st 0x30 0x1000 []) 0xF7FF) (fun t => t.pc == 0x1002#32 && t.get .r14 == 4#32) = true := by decide

/-- B19. -/
theorem test_tBlLo :
    after (runThumb (st 0x30 0x1002 [(.r14, 4)]) 0xFF7E) (fun t => t.pc == 0x0F00#32 && t.get .r14 == 0x1005#32) = true := by decide

/-- B23. -/
theorem test_tBx_pc :
    after (runThumb (st 0x30 0x8018 []) 0x4778) (fun t => t.pc == 0x801C#32 && t.cpsr == 0x10#32) = true := by decide

/-- B24. -/
theorem test_tBx_pc_misaligned :
    refuses (runThumb (st 0x30 0x801A []) 0x4778) .misalignedPc = true := by decide

/-- B20. -/
theorem test_tMovHi_to_pc :
    after (runThumb (st 0x30 0x8018 [(.r14, 0x1005)]) 0x46F7) (fun t => t.pc == 0x1004#32 && t.cpsr == 0x30#32) = true := by decide

/-- B26. -/
theorem test_tAddHi_to_pc :
    after (runThumb (st 0x30 0x8000 [(.r0, 0x10)]) 0x4487) (fun t => t.pc == 0x8014#32) = true := by decide

/-- A2. -/
theorem test_addReg_overflow :
    after (runArm (st 0x1F 0x8000 [(.r1, 0x7FFFFFFF), (.r2, 1)]) 0xE0910002) (fun t => t.get .r0 == 0x80000000#32 && t.cpsr == 0x9000001F#32 && t.pc == 0x8004#32) = true := by decide

/-- A25. -/
theorem test_addReg_pc :
    after (runArm (st 0x1F 0x8000 []) 0xE08F000F) (fun t => t.get .r0 == 0x00010010#32) = true := by decide

/-- A5. -/
theorem test_subReg_borrow :
    after (runArm (st 0x1F 0x8000 [(.r1, 0), (.r2, 1)]) 0xE0510002) (fun t => t.get .r0 == 0xFFFFFFFF#32 && t.cpsr == 0x8000001F#32) = true := by decide

/-- A7. -/
theorem test_cmpReg :
    after (runArm (st 0x1F 0x8000 [(.r1, 0x80000000), (.r2, 1)]) 0xE1510002) (fun t => t.get .r0 == 0#32 && t.cpsr == 0x3000001F#32) = true := by decide

/-- A10. -/
theorem test_movReg_rrx :
    after (runArm (st 0x2000001F 0x8000 [(.r1, 3)]) 0xE1B00061) (fun t => t.get .r0 == 0x80000001#32 && t.cpsr == 0xA000001F#32) = true := by decide

/-- B25. -/
theorem test_movReg_pc_misaligned :
    refuses (runArm (st 0x1F 0x8000 [(.r14, 0x8006)]) 0xE1A0F00E) .misalignedPc = true := by decide

/-- A18. -/
theorem test_movRsr_byte_zero :
    after (runArm (st 0x2000001F 0x8000 [(.r1, 1), (.r2, 0x100)]) 0xE1B00211) (fun t => t.get .r0 == 1#32 && t.cpsr == 0x2000001F#32) = true := by decide

/-- A24. -/
theorem test_movRsr_pc :
    after (runArm (st 0x1F 0x8000 []) 0xE1A0021F) (fun t => t.get .r0 == 0x800C#32) = true := by decide

/-- A22. -/
theorem test_movImm_rotated :
    after (runArm (st 0x1F 0x8000 []) 0xE3B004FF) (fun t => t.get .r0 == 0xFF000000#32 && t.cpsr == 0xA000001F#32) = true := by decide

/-- A26. -/
theorem test_addImm_pc :
    after (runArm (st 0x1F 0x8000 []) 0xE28F0001) (fun t => t.get .r0 == 0x8009#32) = true := by decide

/-- R98, R145: 5 + 3 * 4. -/
theorem test_addRsr :
    after (runArm (st 0x1F 0x8000 [(.r1, 5), (.r2, 3), (.r4, 2)]) 0xE0813412) (fun t => t.get .r3 == 17#32 && t.cpsr == 0x1F#32) = true := by decide

/-- R98, R146: 5 - 40 / 8. -/
theorem test_subRsr :
    after (runArm (st 0x1F 0x8000 [(.r1, 5), (.r2, 40), (.r4, 3)]) 0xE0513432) (fun t => t.get .r3 == 0#32 && t.cpsr == 0x6000001F#32) = true := by decide

/-- R98, R147: 0 - (-1) is 1 with a borrow. -/
theorem test_cmpRsr :
    after (runArm (st 0x1F 0x8000 [(.r1, 0), (.r2, 0x80000000), (.r4, 32)]) 0xE1510452) (fun t => t.cpsr == 0x1F#32 && t.get .r0 == 0#32) = true := by decide

/-- P3. -/
theorem test_cmpImm :
    after (runArm (st 0x1F 0x8000 [(.r0, 1)]) 0xE3500001) (fun t => t.cpsr == 0x6000001F#32) = true := by decide

/-- X5. -/
theorem test_subImm_return :
    after (runArm ((st 0x60000092 0x64 [(.r14Irq, 0x8016)]).setSpsr .irq 0x60000030) 0xE25EF004) (fun t => t.pc == 0x8012#32 && t.cpsr == 0x60000030#32) = true := by decide

/-- A30 with SUBS. -/
theorem test_subImm_no_spsr :
    refuses (runArm (st 0x10 0x8000 []) 0xE25EF004) .noSpsr = true := by decide

/-- H2. -/
theorem test_tMovImm8 :
    after (runThumb (st 0xB0000030 0x8000 []) 0x2000) (fun t => t.get .r0 == 0#32 && t.cpsr == 0x70000030#32) = true := by decide

/-- H3. -/
theorem test_tAddImm8 :
    after (runThumb (st 0x30 0x8000 [(.r1, 10)]) 0x3105) (fun t => t.get .r1 == 15#32 && t.cpsr == 0x30#32) = true := by decide

/-- H4. -/
theorem test_tCmpImm8 :
    after (runThumb (st 0x30 0x8000 [(.r1, 15)]) 0x290F) (fun t => t.cpsr == 0x60000030#32) = true := by decide

/-- H5. -/
theorem test_tAddReg :
    after (runThumb (st 0x30 0x8000 [(.r1, 3), (.r2, 4)]) 0x1888) (fun t => t.get .r0 == 7#32 && t.pc == 0x8002#32) = true := by decide

/-- H6. -/
theorem test_tAddImm3 :
    after (runThumb (st 0x30 0x8000 [(.r1, 0xFFFFFFFF)]) 0x1C48) (fun t => t.get .r0 == 0#32 && t.cpsr == 0x60000030#32) = true := by decide

/-- H8. -/
theorem test_tCmpReg :
    after (runThumb (st 0x30 0x8000 [(.r0, 1), (.r1, 2)]) 0x4288) (fun t => t.cpsr == 0x80000030#32) = true := by decide

/-- H9. -/
theorem test_tCmpHi :
    after (runThumb (st 0x30 0x8000 [(.r1, 15), (.r8, 15)]) 0x4541) (fun t => t.cpsr == 0x60000030#32) = true := by decide

/-- H19. -/
theorem test_tCmpHi_pc :
    refuses (runThumb (st 0x30 0x8000 []) 0x4587) .unpredictable = true := by decide

/-- H10. -/
theorem test_tAddHi :
    after (runThumb (st 0xF0000030 0x8000 [(.r0, 1), (.r8, 15)]) 0x4440) (fun t => t.get .r0 == 16#32 && t.cpsr == 0xF0000030#32) = true := by decide

/-- H11. -/
theorem test_tMovHi :
    after (runThumb (st 0x30 0x8000 [(.r1, 15)]) 0x4688) (fun t => t.get .r8 == 15#32) = true := by decide

/-- H13. -/
theorem test_tAddPc :
    after (runThumb (st 0x30 0x8012 []) 0xA002) (fun t => t.get .r0 == 0x801C#32) = true := by decide

/-- H15. -/
theorem test_tAddSp :
    after (runThumb (st 0x30 0x8000 [(.r13, 0x2000)]) 0xA802) (fun t => t.get .r0 == 0x2008#32) = true := by decide

/-- H17. -/
theorem test_tAddSpImm7_down :
    after (runThumb (st 0x30 0x8000 [(.r13, 0x2000)]) 0xB084) (fun t => t.get .r13 == 0x1FF0#32) = true := by decide

/-- S1. -/
theorem test_swi :
    after (runArm (st 0x10 0x8000 []) 0xEF123456) (fun t => t.get .r14Svc == 0x8004#32 && t.spsr .svc == 0x10#32 && t.cpsr == 0x93#32 && t.pc == 8#32) = true := by decide

/-- S2. -/
theorem test_tSwi :
    after (runThumb (st 0x30 0x8012 []) 0xDF05) (fun t => t.get .r14Svc == 0x8014#32 && t.spsr .svc == 0x30#32 && t.cpsr == 0x93#32 && t.pc == 8#32) = true := by decide

/-- S3. -/
theorem test_undefined :
    after (runArm (st 0x80000010 0x8000 []) 0xE7F000F0) (fun t => t.get .r14Und == 0x8004#32 && t.spsr .und == 0x80000010#32 && t.cpsr == 0x8000009B#32 && t.pc == 4#32) = true := by decide

/-- S4. -/
theorem test_tUndefined :
    after (runThumb (st 0x30 0x8012 []) 0xDE00) (fun t => t.get .r14Und == 0x8014#32 && t.spsr .und == 0x30#32 && t.cpsr == 0x9B#32 && t.pc == 4#32) = true := by decide

/-- S5. -/
theorem test_mrs :
    after (runArm (st 0xD3 0x8000 []) 0xE10F0000) (fun t => t.get .r0 == 0xD3#32) = true := by decide

/-- S6. -/
theorem test_mrs_no_spsr :
    refuses (runArm (st 0x10 0x8000 []) 0xE14F0000) .noSpsr = true := by decide

/-- S10. -/
theorem test_msrImm_user :
    after (runArm (st 0x10 0x8000 []) 0xE321F01F) (fun t => t.cpsr == 0x10#32 && t.pc == 0x8004#32) = true := by decide

/-- S7. -/
theorem test_msrImm_mode :
    after (runArm (st 0xD3 0x8000 []) 0xE321F01F) (fun t => t.cpsr == 0x1F#32) = true := by decide

/-- S11. -/
theorem test_msrReg_spsr :
    after (runArm (st 0x92 0x8000 [(.r0, 0x60000030)]) 0xE169F000) (fun t => t.spsr .irq == 0x60000030#32 && t.cpsr == 0x92#32) = true := by decide

/-- S12. -/
theorem test_msrReg_thumb_bit :
    refuses (runArm (st 0xD3 0x8000 [(.r0, 0x33)]) 0xE121F000) .unpredictable = true := by decide

/-- L8. -/
theorem test_ldm_db_writeback :
    after (runArm (withTable (st 0x1F 0x8000 [(.r0, 0x9010)])) 0xE9300006) (fun t => t.get .r1 == 0xA8#32 && t.get .r2 == 0xAC#32 && t.get .r0 == 0x9008#32) = true := by decide

/-- L15. -/
theorem test_ldm_pc_misaligned :
    refuses (runArm (withWords (st 0x1F 0x8000 [(.r13, 0x2000)]) 0x2000 [7, 0x8102]) 0xE8BD8001) .misalignedPc = true := by decide

/-- L16. -/
theorem test_ldmPcSpsr :
    after (runArm ((withWords (st 0x92 0x8000 [(.r13Irq, 0x3000)]) 0x3000 [5, 0x8013]).setSpsr .irq 0x60000030) 0xE8FD8001) (fun t => t.get .r0 == 5#32 && t.get .r13Irq == 0x3008#32 && t.cpsr == 0x60000030#32 && t.pc == 0x8012#32) = true := by decide

/-- L17. -/
theorem test_ldmUser :
    after (runArm (withTable (st 0xD3 0x8000 [(.r0, 0x9010), (.r13Svc, 0x1111), (.r14Svc, 0x2222)])) 0xE8D06000) (fun t => t.get .r13 == 0xB0#32 && t.get .r14 == 0xB4#32 && t.get .r13Svc == 0x1111#32 && t.get .r14Svc == 0x2222#32) = true := by decide

/-- L18. -/
theorem test_ldmUser_in_user :
    refuses (runArm (withTable (st 0x10 0x8000 [(.r0, 0x9010)])) 0xE8D06000) .unpredictable = true := by decide

/-- L20. -/
theorem test_tLdmia_base_loaded :
    after (runThumb (withTable (st 0x30 0x8000 [(.r0, 0x9010)])) 0xC803) (fun t => t.get .r0 == 0xB0#32 && t.get .r1 == 0xB4#32 && t.pc == 0x8002#32) = true := by decide

/-- L21. -/
theorem test_tLdmia_empty :
    refuses (runThumb (st 0x30 0x8000 []) 0xC800) .unpredictable = true := by decide

/-- L22 with the first word aborted. -/
theorem test_ldm_abort :
    after (runArm ({ withTable (st 0x1F 0x8000 [(.r4, 0x9008)]) with bus := [{ abort := true, writes := [] }] }) 0xE8B4000E) (fun t => t.get .r4 == 0x9014#32 && t.get .r14Abt == 0x8008#32 && t.spsr .abt == 0x1F#32 && t.cpsr == 0x97#32 && t.pc == 0x10#32 && t.get .r1 == 0#32) = true := by decide

/-- K7. -/
theorem test_failed_condition :
    after (runArm (st 0x10 0x8000 []) 0x0F000000) (fun t => { t with mem := [] } == st 0x10 0x8004 []) = true := by decide

/-- K4. -/
theorem test_conditions_after_overflow :
    ([.eq, .ne, .cs, .cc, .mi, .pl, .vs, .vc, .hi, .ls, .ge, .lt, .gt, .le, .al].filter fun c =>
      condPasses c (subWithFlags 0x80000000#32 1#32).2) = [.ne, .cs, .pl, .vs, .hi, .lt, .le, .al] := by decide

/-- X1. -/
theorem test_fiq_before_irq :
    after (step { st 0x10 0x8000 [] with pins := [{ reset := false, fiq := true, irq := true }] })
    (fun t => t.get .r14Fiq == 0x8004#32 && t.spsr .fiq == 0x10#32 && t.cpsr == 0xD1#32 && t.pc == 0x1C#32) = true := by decide

/-- X3. -/
theorem test_irq_keeps_F :
    after (step { st 0x53 0x8000 [] with pins := [{ reset := false, fiq := true, irq := true }] })
    (fun t => t.get .r14Irq == 0x8004#32 && t.spsr .irq == 0x53#32 && t.cpsr == 0xD2#32 && t.pc == 0x18#32) = true := by decide

/-- X7. -/
theorem test_prefetch_abort :
    after (step { st 0x30 0x8002 [] with bus := [{ abort := true, writes := [] }] })
    (fun t => t.get .r14Abt == 0x8006#32 && t.spsr .abt == 0x30#32 && t.cpsr == 0x97#32 && t.pc == 0x0C#32) = true := by decide

/-- M11. -/
theorem test_fetch_misaligned :
    refuses (step (st 0x30 0x8001 [])) .misalignedPc = true := by decide

/-- S13. -/
theorem test_illegal_mode_stops :
    step (st 0x00 0x8000 []) = .fault .illegalMode := by rfl

/-- Log entry 7: reset memory lists nothing. -/
theorem test_fetch_of_nothing :
    step State.reset = .fault .absentMemory := by rfl

/-- R77: what another bus master stored is what the fetch reads. -/
theorem test_foreign_write_is_fetched :
    after (step { (st 0x10 0x8000 []).withFetchWord 32 0xE3A00001 with bus := [{ abort := false, writes := [(0x8003, 7)] }] })
    (fun t => t.get .r0 == 7#32) = true := by decide

/-! ## Witnesses

For each statement with hypotheses, a state and operands that meet them together; one for each clause, at the ends of
its range. -/

/-- System mode at 0x8000. -/
abbrev sys : State := st 0x1F 0x8000 []

/-- User mode at 0x8000. -/
abbrev usr : State := st 0x10 0x8000 []

/-- User mode, Thumb state, at 0x8010. -/
abbrev thumb : State := st 0x30 0x8010 []

/-- IRQ mode at 0x8000 with an SPSR of User mode, Thumb state. -/
abbrev irqT : State := (st 0x92 0x8000 []).setSpsr .irq 0x30

/-- IRQ mode at 0x8000 with an SPSR of User mode, ARM state. -/
abbrev irqA : State := (st 0x92 0x8000 []).setSpsr .irq 0x10

/-- The table of words at 0x9008, R0 at 0x9010, Supervisor mode with an SPSR of User mode. -/
abbrev tab : State := (withTable (st 0xD3 0x8000 [(.r0, 0x9010)])).setSpsr .svc 0x10

/-- The last word of the address space. -/
abbrev top : State := withWords (st 0x1F 0xFFFFFFFC []) 0xFFFFFFFC [0x11223344]

theorem witness_DecodeEncodeAgree :
    Instr.wellFormed (.tBcond .le 0xFF#8) = true := by decide

theorem witness_EncodeDecodeAgree :
    decode (.arm 0xE12FFF10#32) = .ok (.bx .al 0) ∧ decode (.thumb 0xD003#16) = .ok (.tBcond .eq 3#8) := by decide

theorem witness_CondFieldDecidesFirst :
    decode (.arm 0xE12FFF10#32) = .ok (.bx .al 0) ∧ Instr.armCond (.bx .al 0) = some .al := by decide

theorem witness_ReadsFollowByteOrder :
    top.abortsAt 0 = false ∧
    (0xFFFFFFFC#32).toNat % 4 = 0 ∧ wordAt (top.memAfter 1) top.bigEndian (0xFFFFFFFC#32).toNat = some 0x11223344#32 ∧
    (0xFFFFFFFE#32).toNat % 2 = 0 ∧ halfAt (top.memAfter 1) top.bigEndian (0xFFFFFFFE#32).toNat = some 0x3344#16 ∧
    (top.memAfter 1).read (0xFFFFFFFF#32).toNat = some 0x44#8 := by decide

theorem witness_ReadsThatAnswerNoValue :
    (0xFFFFFFFF#32).toNat % Width.bytes .halfword ≠ 0 ∧
    ((0xFFFFFFFC#32).toNat % Width.bytes .word = 0 ∧
      State.abortsAt { top with bus := [{ abort := true, writes := [] }] } 0 = true) ∧
    ((0x0#32).toNat % Width.bytes .word = 0 ∧ top.abortsAt 0 = false ∧ 3 < Width.bytes .word ∧
      (top.memAfter 1).read ((0x0#32).toNat + 3) = none) := by decide

theorem witness_WriteThenRead :
    top.mem.wf ∧ ∃ t, memWrite 0xFFFFFFFC#32 .word 5#32 top = .written t := ⟨by decide, _, by rfl⟩

theorem witness_BankingRule :
    (14 : Reg) ≠ 15 := by decide

theorem witness_RotatedImmediateBits :
    (31 < 32) ∧ (0#4).toNat = 0 ∧ (15#4).toNat ≠ 0 := by decide

theorem witness_ShiftByImmediateTable :
    sys.get (phys .system 14) = (if (14 : Reg) = 15 then sys.pc + 8#32 else sys.get (phys .system 14)) ∧
    (0#5).toNat = 0 ∧ (1#5).toNat ≠ 0 ∧ (31#5).toNat ≠ 0 := by decide

theorem witness_ShiftByRegisterTable :
    (2 : Reg) ≠ 15 ∧ ∀ n ∈ [0, 1, 31, 32, 33, 64, 255], n = ((st 0x1F 0x8000 [(.r2, BitVec.ofNat 32 n)]).get (phys .system 2)).toNat % 256 := by decide

theorem witness_StepRunsDecoded :
    (usr.withFetchWord 32 0xE12FFF10).undisturbed ∧ (usr.withFetchWord 32 0xE12FFF10).mode?.isSome = true ∧
    (usr.withFetchWord 32 0xE12FFF10).pcAligned ∧ (usr.withFetchWord 32 0xE12FFF10).abortsAt 0 = false ∧
    (usr.withFetchWord 32 0xE12FFF10).codeAtPc = some (.arm 0xE12FFF10#32) ∧
    decode (.arm 0xE12FFF10#32) = .ok (.bx .al 0) := by decide

theorem witness_StepRunsDecoded_thumb :
    (thumb.withFetchWord 16 0xD003).undisturbed ∧ (thumb.withFetchWord 16 0xD003).mode?.isSome = true ∧
    (thumb.withFetchWord 16 0xD003).pcAligned ∧ (thumb.withFetchWord 16 0xD003).abortsAt 0 = false ∧
    (thumb.withFetchWord 16 0xD003).codeAtPc = some (.thumb 0xD003#16) ∧
    decode (.thumb 0xD003#16) = .ok (.tBcond .eq 3#8) := by decide

theorem witness_StepRefusesUnadmitted :
    ((st 0x30 0x8001 []).undisturbed ∧ (st 0x30 0x8001 []).mode?.isSome = true ∧ ¬ (st 0x30 0x8001 []).pcAligned) ∧
    ((usr.withFetchWord 32 0xE5901000).undisturbed ∧ (usr.withFetchWord 32 0xE5901000).pcAligned ∧
      (usr.withFetchWord 32 0xE5901000).abortsAt 0 = false ∧
      (usr.withFetchWord 32 0xE5901000).codeAtPc = some (.arm 0xE5901000#32) ∧
      decode (.arm 0xE5901000#32) = .error .unspecifiedEncoding) ∧
    (usr.withFetchWord 32 0xF1A00000).codeAtPc = some (.arm 0xF1A00000#32) ∧
      decode (.arm 0xF1A00000#32) = .error .cond1111 := by decide

theorem witness_DisabledInterruptIgnored :
    psrI (st 0xD3 0x8000 []).cpsr = true ∧ psrF (st 0xD3 0x8000 []).cpsr = true := by decide

theorem witness_FailedConditionOnlyAdvances :
    Instr.armCond (.swi .eq 0#24) = some .eq ∧ usr.mode?.isSome = true ∧ condPasses .eq usr.flags = false ∧
    usr.canAdvance 4 ∧ (st 0x10 0xFFFFFFF8 []).canAdvance 4 ∧ ¬ (st 0x10 0xFFFFFFFC []).canAdvance 4 := by decide

theorem witness_IllegalModeOnlyResets :
    (st 0x00 0x8000 []).mode? = none ∧ (st 0x00 0x8000 []).now.reset = false ∧
    ((st 0x00 0x8000 []).withNow { reset := true, fiq := false, irq := false }).mode? = none ∧
    ((st 0x00 0x8000 []).withNow { reset := true, fiq := false, irq := false }).now.reset = true := by decide

theorem witness_SwiEntryAndReturn :
    (usr.mode? = some .user ∧ condPasses .al usr.flags = true ∧ psrT usr.cpsr = false ∧ usr.pcAligned) ∧
    (thumb.mode? = some .user ∧ psrT thumb.cpsr = true ∧ thumb.pcAligned) := by decide

theorem witness_UndefinedEntryAndReturn :
    (usr.mode? = some .user ∧ condPasses .al usr.flags = true ∧ psrT usr.cpsr = false ∧ usr.pcAligned) ∧
    (thumb.mode? = some .user ∧ psrT thumb.cpsr = true ∧ thumb.pcAligned) := by decide

/-- X3. -/
theorem witness_IrqEntryAndReturn :
    ((st 0x53 0x8000 []).withNow { reset := false, fiq := true, irq := true }).mode? = some .supervisor ∧
    ((st 0x53 0x8000 []).withNow { reset := false, fiq := true, irq := true }).now.reset = false ∧
    (((st 0x53 0x8000 []).withNow { reset := false, fiq := true, irq := true }).now.fiq = true →
      psrF ((st 0x53 0x8000 []).withNow { reset := false, fiq := true, irq := true }).cpsr = true) ∧
    ((st 0x53 0x8000 []).withNow { reset := false, fiq := true, irq := true }).now.irq = true ∧
    psrI ((st 0x53 0x8000 []).withNow { reset := false, fiq := true, irq := true }).cpsr = false ∧
    ((st 0x53 0x8000 []).withNow { reset := false, fiq := true, irq := true }).pcAligned := by decide

theorem witness_FiqEntryAndReturn :
    (thumb.withNow { reset := false, fiq := true, irq := true }).mode? = some .user ∧
    (thumb.withNow { reset := false, fiq := true, irq := true }).now.reset = false ∧
    (thumb.withNow { reset := false, fiq := true, irq := true }).now.fiq = true ∧
    psrF (thumb.withNow { reset := false, fiq := true, irq := true }).cpsr = false ∧
    (thumb.withNow { reset := false, fiq := true, irq := true }).pcAligned ∧
    8 ≤ (8 : Reg).val ∧ (14 : Reg).val ≤ 14 ∧ Mode.user ≠ .fiq := by decide

theorem witness_PrefetchAbortEntryAndReturn :
    State.mode? { thumb with bus := [{ abort := true, writes := [] }] } = some .user ∧
    State.undisturbed { thumb with bus := [{ abort := true, writes := [] }] } ∧
    State.pcAligned { thumb with bus := [{ abort := true, writes := [] }] } ∧
    State.abortsAt { thumb with bus := [{ abort := true, writes := [] }] } 0 = true := by decide

/-- L22: the second of three words aborts. -/
abbrev abortSecond : State :=
  { withTable (st 0x1F 0x8000 [(.r4, 0x9008)]) with bus := [BusEvent.quiet, { abort := true, writes := [] }] }

/-- The shape of `LDMIA R4!, {R1, R2, R3}`. -/
abbrev shapeL22 : LoadShape := { mode := .ia, wb := true, rn := 4, list := 0x000E#16, userBank := false }

theorem witness_DataAbortInLoadMultiple :
    loadShape (.ldm .al .ia true 4 0x000E#16) = some shapeL22 ∧
    Instr.predictable (.ldm .al .ia true 4 0x000E#16) = true ∧ abortSecond.mode? = some .system ∧
    condPasses .al abortSecond.flags = true ∧ shapeL22.userBank = false ∧
    isExceptionReturn (.ldm .al .ia true 4 0x000E#16) = false ∧ shapeL22.inRange abortSecond .system ∧
    1 < shapeL22.count ∧ shapeL22.reads abortSecond .system 1 ∧ abortSecond.abortsAt 1 = true ∧
    (shapeL22.list.getLsbD (1 : Reg).val = true ∧ shapeL22.rank 1 < 1 ∧ shapeL22.dest .system 1 ≠ phys .system 4) := by
  unfold LoadShape.inRange LoadShape.reads
  decide

theorem witness_ResetFromAnyState :
    (usr.withNow { reset := true, fiq := false, irq := false }).now.reset = true := by decide

theorem witness_ArmMoveResult :
    sys.mode? = some .system ∧ condPasses .al sys.flags = true ∧ (14 : Reg) ≠ 15 ∧ sys.canAdvance 4 ∧
    (st 0x1F 0xFFFFFFF8 []).canAdvance 4 := by decide

theorem witness_ArmAddResult :
    sys.mode? = some .system ∧ condPasses .al sys.flags = true ∧ (14 : Reg) ≠ 15 ∧ sys.canAdvance 4 ∧
    sys.x .system 8#32 15 = 0x8008#32 ∧ sys.x .system 12#32 15 = 0x800C#32 := by decide

theorem witness_ArmSubResult :
    sys.mode? = some .system ∧ condPasses .al sys.flags = true ∧ (14 : Reg) ≠ 15 ∧ sys.canAdvance 4 ∧
    sys.x .system 8#32 15 = 0x8008#32 ∧ sys.x .system 12#32 15 = 0x800C#32 := by decide

theorem witness_ArmCompareResult :
    sys.mode? = some .system ∧ condPasses .al sys.flags = true ∧ (14 : Reg) ≠ 15 ∧ sys.canAdvance 4 := by decide

theorem witness_PcDestinationBranches :
    sys.mode? = some .system ∧ condPasses .al sys.flags = true ∧ (14 : Reg) ≠ 15 ∧
    (0xFFFFFFFC#32).toNat % 4 = 0 ∧ (0xFFFFFFFE#32).toNat % 4 ≠ 0 := by decide

theorem witness_ExceptionReturnForms :
    (irqT.mode? = some .irq ∧ condPasses .al irqT.flags = true ∧ Mode.bank? .irq = some .irq ∧ psrT (irqT.spsr .irq) = true) ∧
    (irqA.mode? = some .irq ∧ psrT (irqA.spsr .irq) = false ∧ (4#32).toNat % 4 = 0 ∧ (6#32).toNat % 4 ≠ 0) ∧
    (sys.mode? = some .system ∧ Mode.bank? .system = none) ∧ (14 : Reg) ≠ 15 := by decide

theorem witness_ThumbLowRegisterResult :
    thumb.mode? = some .user ∧ thumb.canAdvance 2 ∧ (st 0x30 0xFFFFFFFC []).canAdvance 2 := by decide

theorem witness_ThumbHighRegisterResult :
    thumb.mode? = some .user ∧ thumb.canAdvance 2 ∧ (8 ≤ (8 : Reg).val ∨ 8 ≤ (0 : Reg).val) ∧
    (8 ≤ (0 : Reg).val ∨ 8 ≤ (15 : Reg).val) ∧ (7 : Reg).val < 8 := by decide

theorem witness_ThumbAddressResult :
    thumb.mode? = some .user ∧ thumb.canAdvance 2 ∧
    (0x8018#32).toNat = ((thumb.pc.toNat + 4) % 2 ^ 32 / 4 * 4 + 4 * (1#8).toNat) % 2 ^ 32 := by decide

/-- Targets at both ends of the address space and one word past them. -/
theorem witness_ArmBranchTargets :
    sys.mode? = some .system ∧ condPasses .al sys.flags = true ∧
    (0 : Int) = (st 0x1F 0 []).pc.toNat + 8 + 4 * (0xFFFFFE#24).toInt ∧
    (2 ^ 32 - 4 : Int) = (st 0x1F 0xFFFFFFF4 []).pc.toNat + 8 + 4 * (0#24).toInt ∧
    (2 ^ 32 : Int) = (st 0x1F 0xFFFFFFF8 []).pc.toNat + 8 + 4 * (0#24).toInt ∧
    (-4 : Int) = (st 0x1F 0 []).pc.toNat + 8 + 4 * (0xFFFFFD#24).toInt := by decide

theorem witness_BranchExchangeResult :
    (st 0x10 0x8000 [(.r14, 0x8011)]).mode? = some .user ∧ condPasses .al (st 0x10 0x8000 [(.r14, 0x8011)]).flags = true ∧ (14 : Reg) ≠ 15 ∧
    (st 0x10 0x8000 [(.r14, 0x8011)]).get (phys .user 14) = 0x8011#32 ∧ (0x8011#32).toNat % 4 ≠ 2 ∧
    (st 0x10 0x8000 [(.r14, 0x8012)]).get (phys .user 14) = 0x8012#32 ∧ (0x8012#32).toNat % 4 = 2 ∧
    thumb.pc + 4#32 = 0x8014#32 ∧ (0x8014#32).toNat % 4 ≠ 2 ∧
    (st 0x30 0x8012 []).pc + 4#32 = 0x8016#32 ∧ (0x8016#32).toNat % 4 = 2 := by decide

theorem witness_ThumbBranchTargets :
    thumb.mode? = some .user ∧ condPasses .al thumb.flags = true ∧ condPasses .eq thumb.flags = false ∧ thumb.canAdvance 2 ∧
    (0 : Int) = (st 0x30 0 []).pc.toNat + 4 + 2 * (0x7FE#11).toInt ∧
    (2 ^ 32 - 2 : Int) = (st 0x30 0xFFFFFFFA []).pc.toNat + 4 + 2 * (0#11).toInt ∧
    (2 ^ 32 : Int) = (st 0x30 0xFFFFFFFC []).pc.toNat + 4 + 2 * (0#8).toInt ∧
    (-2 : Int) = (st 0x30 0 []).pc.toNat + 4 + 2 * (0xFD#8).toInt := by decide

theorem witness_ThumbBlHalves :
    thumb.mode? = some .user ∧ thumb.canAdvance 2 ∧
    ((st 0x30 0x1002 [(.r14, 0xFFFFF000)]).get (phys .user 14)).toNat % 2 = 0 ∧
    (2 ^ 32 - 2 : Nat) = ((st 0x30 0x1002 [(.r14, 0xFFFFF000)]).get (phys .user 14)).toNat + 2 * (0x7FF#11).toNat ∧
    (2 ^ 32 : Nat) = ((st 0x30 0x1002 [(.r14, 0xFFFFF002)]).get (phys .user 14)).toNat + 2 * (0x7FF#11).toNat ∧
    ((st 0x30 0x1002 [(.r14, 5)]).get (phys .user 14)).toNat % 2 = 1 := by decide

/-- B18, B19. -/
theorem witness_ThumbBlPairCalls :
    (st 0x30 0x1000 []).mode? = some .user ∧ (st 0x30 0x1000 []).pc.toNat % 2 = 0 ∧ (st 0x30 0x1000 []).canAdvance 4 ∧
    (0xF00 : Int) = (st 0x30 0x1000 []).pc.toNat + 4 + 4096 * (0x7FF#11).toInt + 2 * (0x77E#11).toNat ∧
    0 ≤ ((st 0x30 0x1000 []).pc.toNat : Int) + 4 + 4096 * (0x7FF#11).toInt ∧ (0xF00 : Int) ≤ 2 ^ 32 - 2 := by decide

theorem witness_MrsResult :
    (irqA.mode? = some .irq ∧ condPasses .al irqA.flags = true ∧ (14 : Reg) ≠ 15 ∧ irqA.canAdvance 4 ∧ Mode.bank? .irq = some .irq) ∧
    (usr.mode? = some .user ∧ Mode.bank? .user = none) := by decide

/-- The fields `f` and `c`. -/
abbrev fc : PsrFields := { f := true, s := false, x := false, c := true }

theorem witness_MsrCpsrResult :
    (st 0xD3 0x8000 [(.r0, 0xF000001F)]).mode? = some .supervisor ∧
    condPasses .al (st 0xD3 0x8000 [(.r0, 0xF000001F)]).flags = true ∧
    (∀ k, k < 32 → (0xF000001F#32).getLsbD k =
      if (fc.f = true ∧ 28 ≤ k) ∨ (fc.c = true ∧ k < 8 ∧ Mode.supervisor ≠ .user) then (0xF000001F#32).getLsbD k
      else (st 0xD3 0x8000 [(.r0, 0xF000001F)]).cpsr.getLsbD k) ∧
    (0 : Reg) ≠ 15 ∧ (st 0xD3 0x8000 [(.r0, 0xF000001F)]).get (phys .supervisor 0) = 0xF000001F#32 ∧
    psrT 0xF000001F#32 = psrT (st 0xD3 0x8000 [(.r0, 0xF000001F)]).cpsr ∧
    (st 0xD3 0x8000 [(.r0, 0xF000001F)]).canAdvance 4 := by decide

theorem witness_MsrCpsrResult_thumb_bit :
    (st 0xD3 0x8000 []).mode? = some .supervisor ∧ condPasses .al (st 0xD3 0x8000 []).flags = true ∧
    (∀ k, k < 32 → (0x33#32).getLsbD k =
      if (fc.f = true ∧ 28 ≤ k) ∨ (fc.c = true ∧ k < 8 ∧ Mode.supervisor ≠ .user) then (0x33#32).getLsbD k
      else (st 0xD3 0x8000 []).cpsr.getLsbD k) ∧
    (operandImm 0#4 0x33#8 false).1 = 0x33#32 ∧ psrT 0x33#32 ≠ psrT (st 0xD3 0x8000 []).cpsr := by decide

theorem witness_MsrSpsrResult :
    irqA.mode? = some .irq ∧ condPasses .al irqA.flags = true ∧ Mode.bank? .irq = some .irq ∧ irqA.canAdvance 4 ∧
    (∀ j, j < 32 → (0x33#32).getLsbD j =
      if (fc.f = true ∧ 28 ≤ j) ∨ (fc.c = true ∧ j < 8) then (0x33#32).getLsbD j else (irqA.spsr .irq).getLsbD j) ∧
    (operandImm 0#4 0x33#8 false).1 = 0x33#32 ∧ (0 : Reg) ≠ 15 ∧
    ((st 0x92 0x8000 [(.r0, 0x33)]).setSpsr .irq 0x10).get (phys .irq 0) = 0x33#32 ∧
    usr.mode? = some .user ∧ Mode.bank? .user = none := by decide

theorem witness_LdmResult :
    loadShape (.ldm .al .db true 0 6#16) = some { mode := .db, wb := true, rn := 0, list := 6#16, userBank := false } ∧
    Instr.predictable (.ldm .al .db true 0 6#16) = true ∧ tab.mode? = some .supervisor ∧
    condPasses .al tab.flags = true ∧ (6#16).getLsbD 15 = false ∧ tab.canAdvance 4 ∧
    LoadShape.inRange { mode := .db, wb := true, rn := 0, list := 6#16, userBank := false } tab .supervisor ∧
    LoadShape.reads { mode := .db, wb := true, rn := 0, list := 6#16, userBank := false } tab .supervisor (LoadShape.count { mode := .db, wb := true, rn := 0, list := 6#16, userBank := false }) := by
  unfold LoadShape.inRange LoadShape.reads
  decide

theorem witness_LdmResult_pc :
    loadShape (.ldm .al .ia false 0 0x8002#16) = some { mode := .ia, wb := false, rn := 0, list := 0x8002#16, userBank := false } ∧
    Instr.predictable (.ldm .al .ia false 0 0x8002#16) = true ∧ tab.mode? = some .supervisor ∧
    condPasses .al tab.flags = true ∧ (0x8002#16).getLsbD 15 = true ∧
    LoadShape.wordFor { mode := .ia, wb := false, rn := 0, list := 0x8002#16, userBank := false } tab .supervisor 15 = some 0xB4#32 ∧
    (0xB4#32).toNat % 4 = 0 ∧
    LoadShape.inRange { mode := .ia, wb := false, rn := 0, list := 0x8002#16, userBank := false } tab .supervisor ∧
    LoadShape.reads { mode := .ia, wb := false, rn := 0, list := 0x8002#16, userBank := false } tab .supervisor (LoadShape.count { mode := .ia, wb := false, rn := 0, list := 0x8002#16, userBank := false }) := by
  unfold LoadShape.inRange LoadShape.reads
  decide

theorem witness_LdmResult_pc_misaligned :
    loadShape (.ldm .al .ia true 13 0x8001#16) = some { mode := .ia, wb := true, rn := 13, list := 0x8001#16, userBank := false } ∧
    Instr.predictable (.ldm .al .ia true 13 0x8001#16) = true ∧ (withWords (st 0x1F 0x8000 [(.r13, 0x2000)]) 0x2000 [7, 0x8102]).mode? = some .system ∧
    condPasses .al (withWords (st 0x1F 0x8000 [(.r13, 0x2000)]) 0x2000 [7, 0x8102]).flags = true ∧ (0x8001#16).getLsbD 15 = true ∧
    LoadShape.wordFor { mode := .ia, wb := true, rn := 13, list := 0x8001#16, userBank := false } (withWords (st 0x1F 0x8000 [(.r13, 0x2000)]) 0x2000 [7, 0x8102]) .system 15 = some 0x8102#32 ∧
    (0x8102#32).toNat % 4 ≠ 0 ∧
    LoadShape.inRange { mode := .ia, wb := true, rn := 13, list := 0x8001#16, userBank := false } (withWords (st 0x1F 0x8000 [(.r13, 0x2000)]) 0x2000 [7, 0x8102]) .system ∧
    LoadShape.reads { mode := .ia, wb := true, rn := 13, list := 0x8001#16, userBank := false } (withWords (st 0x1F 0x8000 [(.r13, 0x2000)]) 0x2000 [7, 0x8102]) .system (LoadShape.count { mode := .ia, wb := true, rn := 13, list := 0x8001#16, userBank := false }) := by
  unfold LoadShape.inRange LoadShape.reads
  decide

theorem witness_LdmReturnResult :
    loadShape (.ldmPcSpsr .al .ia true 0 2#15) = some { mode := .ia, wb := true, rn := 0, list := 0x8002#16, userBank := false } ∧
    Instr.predictable (.ldmPcSpsr .al .ia true 0 2#15) = true ∧ tab.mode? = some .supervisor ∧
    condPasses .al tab.flags = true ∧ Mode.bank? .supervisor = some .svc ∧
    LoadShape.wordFor { mode := .ia, wb := true, rn := 0, list := 0x8002#16, userBank := false } tab .supervisor 15 = some 0xB4#32 ∧
    (psrT (tab.spsr .svc) = true ∨ (0xB4#32).toNat % 4 = 0) ∧
    LoadShape.inRange { mode := .ia, wb := true, rn := 0, list := 0x8002#16, userBank := false } tab .supervisor ∧
    LoadShape.reads { mode := .ia, wb := true, rn := 0, list := 0x8002#16, userBank := false } tab .supervisor (LoadShape.count { mode := .ia, wb := true, rn := 0, list := 0x8002#16, userBank := false }) := by
  unfold LoadShape.inRange LoadShape.reads
  decide

theorem witness_LdmReturnResult_misaligned :
    loadShape (.ldmPcSpsr .al .ia true 0 2#15) = some { mode := .ia, wb := true, rn := 0, list := 0x8002#16, userBank := false } ∧
    Instr.predictable (.ldmPcSpsr .al .ia true 0 2#15) = true ∧ ((withWords (st 0xD3 0x8000 [(.r0, 0x2000)]) 0x2000 [7, 0x8102]).setSpsr .svc 0x10).mode? = some .supervisor ∧
    condPasses .al ((withWords (st 0xD3 0x8000 [(.r0, 0x2000)]) 0x2000 [7, 0x8102]).setSpsr .svc 0x10).flags = true ∧ Mode.bank? .supervisor = some .svc ∧
    LoadShape.wordFor { mode := .ia, wb := true, rn := 0, list := 0x8002#16, userBank := false } ((withWords (st 0xD3 0x8000 [(.r0, 0x2000)]) 0x2000 [7, 0x8102]).setSpsr .svc 0x10) .supervisor 15 = some 0x8102#32 ∧
    psrT (((withWords (st 0xD3 0x8000 [(.r0, 0x2000)]) 0x2000 [7, 0x8102]).setSpsr .svc 0x10).spsr .svc) = false ∧ (0x8102#32).toNat % 4 ≠ 0 ∧
    LoadShape.inRange { mode := .ia, wb := true, rn := 0, list := 0x8002#16, userBank := false } ((withWords (st 0xD3 0x8000 [(.r0, 0x2000)]) 0x2000 [7, 0x8102]).setSpsr .svc 0x10) .supervisor ∧
    LoadShape.reads { mode := .ia, wb := true, rn := 0, list := 0x8002#16, userBank := false } ((withWords (st 0xD3 0x8000 [(.r0, 0x2000)]) 0x2000 [7, 0x8102]).setSpsr .svc 0x10) .supervisor (LoadShape.count { mode := .ia, wb := true, rn := 0, list := 0x8002#16, userBank := false }) := by
  unfold LoadShape.inRange LoadShape.reads
  decide

theorem witness_LdmReturnResult_no_spsr :
    loadShape (.ldmPcSpsr .al .ia true 0 2#15) = some { mode := .ia, wb := true, rn := 0, list := 0x8002#16, userBank := false } ∧
    usr.mode? = some .user ∧ condPasses .al usr.flags = true ∧ Mode.bank? .user = none := by decide

theorem witness_LdmUserBankResult :
    loadShape (.ldmUser .al .ia false 0 0x6000#15) = some { mode := .ia, wb := false, rn := 0, list := 0x6000#16, userBank := true } ∧
    Instr.predictable (.ldmUser .al .ia false 0 0x6000#15) = true ∧ tab.mode? = some .supervisor ∧
    condPasses .al tab.flags = true ∧ (Mode.bank? .supervisor).isSome = true ∧ tab.canAdvance 4 ∧
    LoadShape.inRange { mode := .ia, wb := false, rn := 0, list := 0x6000#16, userBank := true } tab .supervisor ∧
    LoadShape.reads { mode := .ia, wb := false, rn := 0, list := 0x6000#16, userBank := true } tab .supervisor (LoadShape.count { mode := .ia, wb := false, rn := 0, list := 0x6000#16, userBank := true }) := by
  unfold LoadShape.inRange LoadShape.reads
  decide

theorem witness_LdmUserBankResult_no_bank :
    loadShape (.ldmUser .al .ia false 0 0x6000#15) = some { mode := .ia, wb := false, rn := 0, list := 0x6000#16, userBank := true } ∧
    usr.mode? = some .user ∧ condPasses .al usr.flags = true ∧ Mode.bank? .user = none := by decide

theorem witness_ThumbLdmiaResult :
    loadShape (.tLdmia 0 6#8) = some { mode := .ia, wb := true, rn := 0, list := 6#16, userBank := false } ∧
    Instr.predictable (.tLdmia 0 6#8) = true ∧ (withTable (st 0x30 0x8000 [(.r0, 0x9010)])).mode? = some .user ∧
    (withTable (st 0x30 0x8000 [(.r0, 0x9010)])).canAdvance 2 ∧
    LoadShape.inRange { mode := .ia, wb := true, rn := 0, list := 6#16, userBank := false } (withTable (st 0x30 0x8000 [(.r0, 0x9010)])) .user ∧
    LoadShape.reads { mode := .ia, wb := true, rn := 0, list := 6#16, userBank := false } (withTable (st 0x30 0x8000 [(.r0, 0x9010)])) .user (LoadShape.count { mode := .ia, wb := true, rn := 0, list := 6#16, userBank := false }) := by
  unfold LoadShape.inRange LoadShape.reads
  decide

theorem witness_LoadMultipleAddressRefusals :
    loadShape (.ldm .al .db false 0 2#16) = some { mode := .db, wb := false, rn := 0, list := 2#16, userBank := false } ∧
    Instr.predictable (.ldm .al .db false 0 2#16) = true ∧ sys.mode? = some .system ∧
    Instr.armCond (.ldm .al .db false 0 2#16) = some .al ∧ condPasses .al sys.flags = true ∧
    isExceptionReturn (.ldm .al .db false 0 2#16) = false ∧
    ((st 0x1F 0x8000 [(.r0, 0x9012)]).get (phys .system 0)).toNat % 4 ≠ 0 ∧ (sys.get (phys .system 0)).toNat % 4 = 0 ∧
    LoadShape.start { mode := .db, wb := false, rn := 0, list := 2#16, userBank := false } sys .system < 0 := by decide

theorem witness_LoadMultipleAddressRefusals_top :
    ((st 0x1F 0x8000 [(.r0, 0xFFFFFFFC)]).get (phys .system 0)).toNat % 4 = 0 ∧
    (Config.addressEnd : Int) <
      LoadShape.start { mode := .ia, wb := false, rn := 0, list := 6#16, userBank := false } (st 0x1F 0x8000 [(.r0, 0xFFFFFFFC)]) .system +
        4 * LoadShape.count { mode := .ia, wb := false, rn := 0, list := 6#16, userBank := false } := by decide

theorem witness_ConstrainedFormsRefused :
    sys.mode? = some .system ∧ Instr.armCond (.bx .al 15) = some .al ∧ condPasses .al sys.flags = true ∧
    Instr.predictable (.bx .al 15) = false ∧ Instr.predictable (.ldmPcSpsr .al .ia false 15 1#15) = false ∧
    Mode.bank? .system = none ∧ Mode.bank? .irq = some .irq ∧ Instr.predictable (.tCmpHi 7 7) = false ∧
    Instr.predictable (.tCmpHi 0 15) = false ∧ Instr.predictable (.tMovHi 7 7) = false := by decide

theorem witness_RegisterFrame :
    sys.mode? = some .system ∧ (∃ t, exec (.movImm .al false 3 0#4 1#8) sys = .next t) ∧ PhysReg.r4 ≠ .pc ∧
    mayWrite .system (.movImm .al false 3 0#4 1#8) .r4 = false := ⟨by decide, ⟨_, by rfl⟩, by decide, by decide⟩

theorem witness_FlagFrame :
    (∃ t, exec (.movImm .al false 3 0#4 1#8) sys = .next t) ∧ flagEffect (.movImm .al false 3 0#4 1#8) = .none ∧
    (∃ t, exec (.tMovImm8 3 1#8) thumb = .next t) ∧ flagEffect (.tMovImm8 3 1#8) = .nz ∧
    (∃ t, exec (.movImm .al true 3 0#4 1#8) sys = .next t) ∧ flagEffect (.movImm .al true 3 0#4 1#8) = .nzc := ⟨⟨_, by rfl⟩, by decide, ⟨_, by rfl⟩, by decide, ⟨_, by rfl⟩, by decide⟩

theorem witness_StatusRegisterFrame :
    sys.mode? = some .system ∧ (∃ t, exec (.movImm .al false 3 0#4 1#8) sys = .next t) ∧
    27 < 28 ∧ isExceptionReturn (.movImm .al false 3 0#4 1#8) = false ∧
    msrSelects .system (.movImm .al false 3 0#4 1#8) 27 = false ∧ mayRaise (.movImm .al false 3 0#4 1#8) = none ∧
    writesSpsr .system (.movImm .al false 3 0#4 1#8) .irq = false := ⟨by decide, ⟨_, by rfl⟩, by decide, by decide, by decide, by decide, by decide⟩

theorem witness_MemoryFrame :
    (∃ t, exec (.movImm .al false 3 0#4 1#8) sys = .next t) ∧ loadShape (.movImm .al false 3 0#4 1#8) = none ∧ sys.mem.wf ∧
    (∃ t, exec (.ldm .al .db true 0 6#16) tab = .next t) ∧ tab.mem.wf := ⟨⟨_, by rfl⟩, by decide, by decide, ⟨_, by rfl⟩, by decide⟩

theorem witness_OperatingStateChanges :
    ∃ t, exec (.tSwi 0#8) thumb = .next t ∧ psrT t.cpsr ≠ psrT thumb.cpsr := ⟨_, by rfl, by decide⟩

theorem witness_StepKeepsInvariant :
    (usr.withFetchWord 32 0xE3A00001).Inv ∧ ∃ t, step (usr.withFetchWord 32 0xE3A00001) = .next t := ⟨by decide, _, by rfl⟩

theorem witness_UserModeConfinement :
    (usr.withFetchWord 32 0xEF000000).mode? = some .user ∧ ∃ t, step (usr.withFetchWord 32 0xEF000000) = .next t := ⟨by decide, _, by rfl⟩

end Sys2Proof.Tests.Slice0
end

section
/-! The flag formulas of R8 in exact arithmetic: what each flag of an addition and of a subtraction says about the
two numbers, and from that the obligations on additions and on the conditions after a comparison. -/

namespace Sys2Proof.Machine

/-! ## Signs and overflow -/

/-- Bit 31 is the sign. -/
theorem getLsbD_31_eq_sign (x : Word) : x.getLsbD 31 = decide (x.toInt < 0) :=
  (BitVec.msb_eq_getLsbD_last x).symm.trans x.msb_eq_toInt

theorem toInt_word_bounds (x : Word) : -2 ^ 31 ≤ x.toInt ∧ x.toInt < 2 ^ 31 :=
  ⟨x.le_toInt, x.toInt_lt⟩

/-- The one wrap a sum or difference of two signed words can need. -/
theorem bmod_word {d : Int} (lo : -2 ^ 32 ≤ d) (hi : d < 2 ^ 32) :
    d.bmod (2 ^ 32) = if d < -2 ^ 31 then d + 2 ^ 32 else if 2 ^ 31 ≤ d then d - 2 ^ 32 else d := by
  rw [Int.bmod_def]
  split_ifs <;> omega

/-- The sum as a signed number: exact, or off by one turn where it overflows. -/
theorem toInt_add_word (a b : Word) :
    (a + b).toInt = if a.toInt + b.toInt < -2 ^ 31 then a.toInt + b.toInt + 2 ^ 32
      else if 2 ^ 31 ≤ a.toInt + b.toInt then a.toInt + b.toInt - 2 ^ 32 else a.toInt + b.toInt := by
  have ha := toInt_word_bounds a
  have hb := toInt_word_bounds b
  rw [BitVec.toInt_add, bmod_word (by omega) (by omega)]

/-- The difference as a signed number: exact, or off by one turn where it overflows. -/
theorem toInt_sub_word (a b : Word) :
    (a - b).toInt = if a.toInt - b.toInt < -2 ^ 31 then a.toInt - b.toInt + 2 ^ 32
      else if 2 ^ 31 ≤ a.toInt - b.toInt then a.toInt - b.toInt - 2 ^ 32 else a.toInt - b.toInt := by
  have ha := toInt_word_bounds a
  have hb := toInt_word_bounds b
  rw [BitVec.toInt_sub, bmod_word (by omega) (by omega)]

/-! ## The flags of an addition -/

@[simp] theorem addWithFlags_result (a b : Word) : (addWithFlags a b).1 = a + b := rfl

theorem addWithFlags_n (a b : Word) : (addWithFlags a b).2.n = decide ((a + b).toInt < 0) :=
  getLsbD_31_eq_sign (a + b)

theorem addWithFlags_z (a b : Word) : (addWithFlags a b).2.z = decide ((a.toNat + b.toNat) % 2 ^ 32 = 0) := by
  show decide (a + b = 0#32) = _
  simp only [← BitVec.toNat_inj, BitVec.toNat_add, BitVec.toNat_ofNat, Nat.zero_mod]

theorem addWithFlags_c (a b : Word) : (addWithFlags a b).2.c = decide (2 ^ 32 ≤ a.toNat + b.toNat) := rfl

/-- The bit formula of V, equal signs in and another sign out, is signed overflow. -/
theorem addWithFlags_v (a b : Word) :
    (addWithFlags a b).2.v = decide (¬ (-2 ^ 31 ≤ a.toInt + b.toInt ∧ a.toInt + b.toInt < 2 ^ 31)) := by
  have ha := toInt_word_bounds a
  have hb := toInt_word_bounds b
  have hr := toInt_add_word a b
  simp only [addWithFlags, getLsbD_31_eq_sign]
  rw [Bool.eq_iff_iff]
  simp only [Bool.and_eq_true, beq_iff_eq, bne_iff_ne, ne_eq, decide_eq_decide, decide_eq_true_eq]
  split_ifs at hr <;> omega

/-! ## The flags of a subtraction -/

@[simp] theorem subWithFlags_result (a b : Word) : (subWithFlags a b).1 = a - b := rfl

theorem subWithFlags_n (a b : Word) : (subWithFlags a b).2.n = decide ((a - b).toInt < 0) :=
  getLsbD_31_eq_sign (a - b)

theorem subWithFlags_z (a b : Word) : (subWithFlags a b).2.z = decide (a = b) := by
  show decide (a - b = 0#32) = _
  simp only [BitVec.sub_eq_iff_eq_add, BitVec.zero_add]

theorem subWithFlags_c (a b : Word) : (subWithFlags a b).2.c = decide (b.toNat ≤ a.toNat) := rfl

/-- The bit formula of V, unlike signs in and a result unlike the first, is signed overflow. -/
theorem subWithFlags_v (a b : Word) :
    (subWithFlags a b).2.v = decide (¬ (-2 ^ 31 ≤ a.toInt - b.toInt ∧ a.toInt - b.toInt < 2 ^ 31)) := by
  have ha := toInt_word_bounds a
  have hb := toInt_word_bounds b
  have hr := toInt_sub_word a b
  simp only [subWithFlags, getLsbD_31_eq_sign]
  rw [Bool.eq_iff_iff]
  simp only [Bool.and_eq_true, bne_iff_ne, ne_eq, decide_eq_decide, decide_eq_true_eq]
  split_ifs at hr <;> omega

/-- N differs from V exactly on the signed order: the sign of the wrapped difference, corrected by the overflow, is
the sign of the exact one. -/
theorem subWithFlags_n_bne_v (a b : Word) :
    ((subWithFlags a b).2.n != (subWithFlags a b).2.v) = decide (a.toInt < b.toInt) := by
  have ha := toInt_word_bounds a
  have hb := toInt_word_bounds b
  have hr := toInt_sub_word a b
  rw [subWithFlags_n, subWithFlags_v, Bool.eq_iff_iff]
  simp only [bne_iff_ne, ne_eq, decide_eq_decide, decide_eq_true_eq]
  split_ifs at hr <;> omega

theorem subWithFlags_n_beq_v (a b : Word) :
    ((subWithFlags a b).2.n == (subWithFlags a b).2.v) = decide (b.toInt ≤ a.toInt) := by
  have h := subWithFlags_n_bne_v a b
  rw [bne, Bool.not_eq_eq_eq_not] at h
  rw [h, ← decide_not, decide_eq_decide, not_lt]

/-! ## The conditions that read more than one flag -/

theorem condPasses_hi_sub (a b : Word) :
    condPasses .hi (subWithFlags a b).2 = true ↔ b.toNat < a.toNat := by
  simp only [condPasses, subWithFlags_c, subWithFlags_z, ← BitVec.toNat_inj, Bool.and_eq_true, Bool.not_eq_true',
    decide_eq_true_eq, decide_eq_false_iff_not]
  omega

theorem condPasses_ls_sub (a b : Word) :
    condPasses .ls (subWithFlags a b).2 = true ↔ a.toNat ≤ b.toNat := by
  simp only [condPasses, subWithFlags_c, subWithFlags_z, ← BitVec.toNat_inj, Bool.or_eq_true, Bool.not_eq_true',
    decide_eq_true_eq, decide_eq_false_iff_not]
  omega

theorem condPasses_ge_sub (a b : Word) :
    condPasses .ge (subWithFlags a b).2 = true ↔ b.toInt ≤ a.toInt := by
  simp only [condPasses, subWithFlags_n_beq_v, decide_eq_true_eq]

theorem condPasses_lt_sub (a b : Word) :
    condPasses .lt (subWithFlags a b).2 = true ↔ a.toInt < b.toInt := by
  simp only [condPasses, subWithFlags_n_bne_v, decide_eq_true_eq]

theorem condPasses_gt_sub (a b : Word) :
    condPasses .gt (subWithFlags a b).2 = true ↔ b.toInt < a.toInt := by
  simp only [condPasses, subWithFlags_z, subWithFlags_n_beq_v, ← BitVec.toInt_inj, Bool.and_eq_true,
    Bool.not_eq_true', decide_eq_true_eq, decide_eq_false_iff_not]
  omega

theorem condPasses_le_sub (a b : Word) :
    condPasses .le (subWithFlags a b).2 = true ↔ a.toInt ≤ b.toInt := by
  simp only [condPasses, subWithFlags_z, subWithFlags_n_bne_v, ← BitVec.toInt_inj, Bool.or_eq_true,
    decide_eq_true_eq]
  omega

/-! ## The obligations on the flags -/

/-- Settles O11: each flag's formula in arithmetic. -/
theorem addFlagsExact : Obligations.AddFlagsExact := by
  intro a b
  refine ⟨BitVec.toNat_add a b, ?_, ?_, ?_, ?_⟩
  · rw [addWithFlags_n, addWithFlags_result, decide_eq_true_iff]
  · rw [addWithFlags_z, decide_eq_true_iff]
  · rw [addWithFlags_c, decide_eq_true_iff]
  · rw [addWithFlags_v, decide_eq_true_iff]

/-- Settles O12: the conditions on one flag by that flag's formula, the others by their lemma. -/
theorem compareConditions : Obligations.CompareConditions := by
  intro a b
  have hdiff : ((subWithFlags a b).1.toInt - (a.toInt - b.toInt)) % 2 ^ 32 = 0 := by
    rw [subWithFlags_result, toInt_sub_word]
    split_ifs <;> omega
  refine ⟨hdiff, ?eq, ?ne, ?cs, ?cc, ?mi, ?pl, ?vs, ?vc, condPasses_hi_sub a b, condPasses_ls_sub a b,
    condPasses_ge_sub a b, condPasses_lt_sub a b, condPasses_gt_sub a b, condPasses_le_sub a b, rfl⟩
  case eq | ne => simp [condPasses, subWithFlags_z]
  case cs | cc => simp [condPasses, subWithFlags_c]
  case mi | pl => simp [condPasses, subWithFlags_n]
  case vs | vc => simp only [condPasses, subWithFlags_v, decide_not, Bool.not_not, Bool.not_eq_true',
    decide_eq_false_iff_not, decide_eq_true_eq]

end Sys2Proof.Machine
end

section
/-! The front of an undisturbed step: what the fetch finds at an aligned pc, and that the step executes what the
decoder makes of it (R11, R71, R91). -/

namespace Sys2Proof.Machine

/-- The two bytes of a halfword are read together and assemble to it (R64 to R66). -/
theorem readBytes_of_halfAt {mem : Memory} {be : Bool} {a : Nat} {v : Half} (h : halfAt mem be a = some v) :
    ∃ bs, mem.readBytes a 2 = some bs ∧ v.setWidth 32 = BitVec.ofNat 32 (assembleBytes be bs) := by
  unfold halfAt at h
  split at h
  case h_2 => cases h
  case h_1 b0 b1 h0 h1 =>
    obtain rfl := Option.some.inj h
    refine ⟨[b0, b1], by simp [Memory.readBytes, h0, h1], BitVec.eq_of_toNat_eq ?_⟩
    have hle : (b1 ++ b0 : Half).toNat = _ := toNat_append_add b1 b0
    have hbe : (b0 ++ b1 : Half).toNat = _ := toNat_append_add b0 b1
    cases be <;> simp [assembleBytes, hle, hbe]

/-- A halfword read that answers. -/
theorem memRead_half {kind : AccessKind} {a : Word} {s : State} {v : Half} (ha : a.toNat % 2 = 0)
    (hq : s.abortsAt 0 = false) (hv : halfAt (s.memAfter 1) s.bigEndian a.toNat = some v) :
    memRead kind a .halfword s = .value (v.setWidth 32) (s.accessed 1) := by
  have hend : a.toNat + Width.halfword.bytes ≤ Config.addressEnd := by
    have := a.isLt
    simp only [Width.bytes, Config.addressEnd]
    omega
  exact memRead_value.mpr
    ⟨ha, hend, s.busAccess_fst.trans hq, s.busAccess_snd.symm, readBytes_of_halfAt hv⟩

/-- The fetch answers the instruction bits that stand at the pc, in either operating state. -/
theorem memRead_fetch_codeAtPc {s : State} {c : Code} (hpc : s.pcAligned) (hq : s.abortsAt 0 = false)
    (hc : s.codeAtPc = some c) :
    ∃ v, memRead .fetch s.pc (fetchWidth (psrT s.cpsr)) s = .value v (s.accessed 1) ∧
      fetchedCode (psrT s.cpsr) v = c := by
  unfold State.codeAtPc at hc
  unfold State.pcAligned at hpc
  cases hT : psrT s.cpsr
  case true =>
    rw [hT] at hpc hc
    obtain ⟨h, hh, rfl⟩ := Option.map_eq_some_iff.mp hc
    exact ⟨_, memRead_half hpc hq hh, by simp [fetchedCode]⟩
  case false =>
    rw [hT] at hpc hc
    obtain ⟨w, hw, rfl⟩ := Option.map_eq_some_iff.mp hc
    exact ⟨w, memRead_word hpc hq hw, rfl⟩

/-- Where the bits at the pc decode to an instruction, a fetch that is not aborted answers it. -/
theorem fetchDecode_of_decode_ok {s : State} {c : Code} {i : Instr} (hpc : s.pcAligned) (hq : s.abortsAt 0 = false)
    (hc : s.codeAtPc = some c) (hdec : decode c = .ok i) : fetchDecode s = .execute i (s.accessed 1) := by
  obtain ⟨v, hread, rfl⟩ := memRead_fetch_codeAtPc hpc hq hc
  simp only [fetchDecode, hread, hdec]

/-- Where no request is taken and the mode is legal, a step begins with the fetch. -/
theorem stepFront_of_undisturbed {s : State} (h : s.undisturbed) (hm : s.mode?.isSome = true) :
    stepFront s = fetchDecode s.popPins := by
  obtain ⟨hreset, hfiq, hirq⟩ := h
  have hnone : s.mode?.isNone = false := by rw [← Option.not_isSome, hm]; rfl
  have hf : (s.now.fiq && !psrF s.cpsr) = false := by simpa using hfiq
  have hi : (s.now.irq && !psrI s.cpsr) = false := by simpa using hirq
  simp [stepFront, frontOf, hreset, hnone, hf, hi]

/-- The step's requests and one access used up: the state the fetch leaves. -/
theorem popPins_accessed_one (s : State) : s.popPins.accessed 1 = s.fetched := by
  simp only [State.accessed, State.popPins, State.fetched, List.drop_one]
  rfl

/-- Settles O16: the step's front is the fetch, the fetch answers the bits at the pc, and what they decode to is
executed. -/
theorem stepRunsDecoded : Obligations.StepRunsDecoded := by
  intro s c i hund hmode hpc hq hc hdec
  have hfront : stepFront s = .execute i s.fetched := by
    rw [stepFront_of_undisturbed hund hmode, fetchDecode_of_decode_ok (s := s.popPins) hpc hq hc hdec,
      popPins_accessed_one]
  rw [step, hfront]

end Sys2Proof.Machine
end

section
/-! What one instruction can do, said once. Every instruction that answers a next state does one of four things, the
constructors of `Effect`: it changes what its tables allow and moves the pc, it exchanges the operating state (BX), it
returns from an exception, or it enters one. The frame and the invariants are read off these four. -/

namespace Sys2Proof.Machine

/-! ## Aligned addresses -/

theorem getLsbD_halfwordMask (k : Nat) : (0xFFFFFFFE#32).getLsbD k = decide (1 ≤ k ∧ k < 32) := by
  by_cases hk : k < 32
  · revert k; decide
  · rw [BitVec.getLsbD_of_ge _ _ (by omega)]; simp; omega

/-- Clearing bit 0 rounds down to a halfword (R138). -/
theorem toNat_and_halfwordMask (v : Word) : (v &&& 0xFFFFFFFE#32).toNat = v.toNat / 2 * 2 := by
  have h : v &&& 0xFFFFFFFE#32 = v >>> 1 <<< 1 := by
    apply BitVec.eq_of_getLsbD_eq
    intro k hk
    rw [BitVec.getLsbD_and, getLsbD_halfwordMask, BitVec.getLsbD_shiftLeft, BitVec.getLsbD_ushiftRight]
    by_cases h0 : k = 0
    · subst h0; simp
    · simp [hk, show 1 ≤ k by omega, h0, show 1 + (k - 1) = k by omega]
  have := v.isLt
  rw [h, BitVec.toNat_shiftLeft, BitVec.toNat_ushiftRight, Nat.shiftRight_eq_div_pow, Nat.shiftLeft_eq]
  omega

theorem extractLsb_one_zero_eq_zero_iff (v : Word) : v.extractLsb 1 0 = 0#2 ↔ v.toNat % 4 = 0 := by
  rw [extractLsb_eq_iff]
  simp

@[simp] theorem fetchWidth_bytes_thumb : (fetchWidth true).bytes = 2 := rfl

@[simp] theorem fetchWidth_bytes_arm : (fetchWidth false).bytes = 4 := rfl

/-- A target BX admits is aligned for the operating state it selects (R132, R137). -/
theorem branchExchange_target_aligned {v : Word} (h : ¬ (v.getLsbD 0 = false ∧ v.getLsbD 1 = true)) :
    (v &&& 0xFFFFFFFE#32).toNat % (fetchWidth (v.getLsbD 0)).bytes = 0 := by
  rw [toNat_and_halfwordMask]
  cases h0 : v.getLsbD 0 with
  | true => rw [fetchWidth_bytes_thumb]; omega
  | false =>
    have h1 : v.getLsbD 1 = false := Bool.eq_false_iff.mpr fun h1 => h ⟨h0, h1⟩
    simp only [getLsbD_eq_div, decide_eq_false_iff_not] at h0 h1
    rw [fetchWidth_bytes_arm]
    omega

/-- The target of an exception return is aligned for the operating state it restores (R143). -/
theorem exceptionReturn_target_aligned {v p : Word} (h : psrT p = false → v.extractLsb 1 0 = 0#2) :
    (if psrT p then v &&& 0xFFFFFFFE#32 else v).toNat % (fetchWidth (psrT p)).bytes = 0 := by
  cases hT : psrT p with
  | true => rw [if_pos rfl, toNat_and_halfwordMask, fetchWidth_bytes_thumb]; omega
  | false => exact (extractLsb_one_zero_eq_zero_iff v).mp (h hT)

/-- A word-aligned address is aligned in either operating state. -/
theorem aligned_of_mod_four {n : Nat} (h : n % 4 = 0) (thumb : Bool) : n % (fetchWidth thumb).bytes = 0 := by
  cases thumb
  · exact h
  · rw [fetchWidth_bytes_thumb]; omega

theorem vector_aligned (e : ExcKind) (thumb : Bool) : e.vector.toNat % (fetchWidth thumb).bytes = 0 :=
  aligned_of_mod_four (by cases e <;> rfl) thumb

/-- A branch target inside the address space is the number it was computed as (R130). -/
theorem toNat_ofInt_target {target : Int} {len : Nat} (h0 : 0 ≤ target) (h1 : target ≤ Config.addressEnd - len)
    (hlen : 0 < len) : ((BitVec.ofInt 32 target).toNat : Int) = target := by
  rw [BitVec.toNat_ofInt]
  simp only [Config.addressEnd] at h1
  omega

/-- Branch offsets are multiples of the instruction width (R99, R114, R116). -/
theorem toInt_append_zero_emod {w : Nat} (x : BitVec w) (k : Nat) : (x ++ 0#k).toInt % (2 ^ k : Nat) = 0 := by
  have hn : ((2 ^ k : Nat) : Int) ∣ ((x ++ 0#k).toNat : Int) := by
    rw [toNat_append_add]
    exact_mod_cast Dvd.intro_left x.toNat (by simp)
  have hw : ((2 ^ k : Nat) : Int) ∣ ((2 ^ (w + k) : Nat) : Int) := by
    exact_mod_cast pow_dvd_pow 2 (Nat.le_add_left k w)
  rw [BitVec.toInt_eq_toNat_cond]
  split
  · exact Int.emod_eq_zero_of_dvd hn
  · exact Int.emod_eq_zero_of_dvd (Int.dvd_sub hn hw)

/-- Registers written after an abort leave the CPSR alone (R184). -/
@[simp] theorem cpsr_writeSome (dest : Reg → PhysReg) (choice : Word) (vals : List (Reg × Word)) (s : State) :
    (writeSome dest choice vals s).cpsr = s.cpsr := by
  obtain ⟨r, hr⟩ := writeSome_regs dest choice vals s
  rw [hr]

/-! ## What stays while an instruction writes its results -/

/-- What the flag table leaves alone (R162). -/
def FlagEffect.keeps : FlagEffect → Flags → Flags → Prop
  | .none, old, new => new = old
  | .nz, old, new => new.c = old.c ∧ new.v = old.v
  | .nzc, old, new => new.v = old.v
  | .all, _, _ => True

@[simp] theorem FlagEffect.keeps_refl (e : FlagEffect) (f : Flags) : e.keeps f f := by
  cases e <;> simp [FlagEffect.keeps]

/-- A register some number names in mode `m` or in User mode: all a load multiple or a result can reach. -/
def NamedIn (m : Mode) (p : PhysReg) : Prop := ∃ j, p = phys m j ∨ p = phys .user j

/-- `u` differs from `s` only where the tables let instruction `i` in mode `m` write, the pc and any exception it
takes left out. -/
structure WithinFrame (m : Mode) (i : Instr) (s u : State) : Prop where
  pc : u.pc = s.pc
  regs : ∀ p, u.get p ≠ s.get p → mayWrite m i p = true ∧ NamedIn m p
  flags : (flagEffect i).keeps s.flags u.flags
  low : ∀ k < 28, msrSelects m i k = false → u.cpsr.getLsbD k = s.cpsr.getLsbD k
  thumb : psrT u.cpsr = psrT s.cpsr
  spsr : ∀ b, writesSpsr m i b = false → u.spsr b = s.spsr b
  wf : s.mem.wf → u.mem.wf
  format : u.bigEndian = s.bigEndian
  pins : u.pins = s.pins

namespace WithinFrame

variable {m : Mode} {i : Instr} {s u : State}

theorem refl (m : Mode) (i : Instr) (s : State) : WithinFrame m i s s where
  pc := rfl
  regs _ h := absurd rfl h
  flags := FlagEffect.keeps_refl _ _
  low _ _ _ := rfl
  thumb := rfl
  spsr _ _ := rfl
  wf h := h
  format := rfl
  pins := rfl

/-- Writing a register the instruction may write, or putting back what it held. -/
theorem set (h : WithinFrame m i s u) {p : PhysReg} {v : Word} (hpc : p ≠ .pc)
    (hp : (mayWrite m i p = true ∧ NamedIn m p) ∨ v = s.get p) : WithinFrame m i s (u.set p v) where
  pc := by simpa [hpc] using h.pc
  regs q hq := by
    rw [State.get_set] at hq
    split at hq
    next hqp =>
      subst hqp
      exact hp.resolve_right hq
    next => exact h.regs q hq
  flags := h.flags
  low := h.low
  thumb := h.thumb
  spsr b hb := by simpa using h.spsr b hb
  wf := h.wf
  format := h.format
  pins := h.pins

theorem setX (h : WithinFrame m i s u) {r : Reg} (v : Word) (hr : r ≠ 15) (hw : mayWrite m i (phys m r) = true) :
    WithinFrame m i s (u.setX m r v) :=
  h.set (phys_ne_pc m r hr) (.inl ⟨hw, r, .inl rfl⟩)

theorem withFlags (h : WithinFrame m i s u) {f : Flags} (hf : (flagEffect i).keeps s.flags f) :
    WithinFrame m i s (u.withFlags f) where
  pc := h.pc
  regs := h.regs
  flags := by simpa [State.withFlags] using hf
  low k hk hs := by
    rw [State.cpsr_withFlags, getLsbD_psrWithFlags, if_pos hk]
    exact h.low k hk hs
  thumb := by simpa using h.thumb
  spsr b hb := by simpa using h.spsr b hb
  wf := h.wf
  format := h.format
  pins := h.pins

theorem setSpsr (h : WithinFrame m i s u) {b : Bank} (v : Word) (hb : writesSpsr m i b = true) :
    WithinFrame m i s (u.setSpsr b v) where
  pc := by simpa using h.pc
  regs p hp := h.regs p (by simpa using hp)
  flags := by simpa using h.flags
  low := by simpa using h.low
  thumb := by simpa using h.thumb
  spsr c hc := by
    have hcb : c ≠ b := by rintro rfl; simp [hb] at hc
    simpa [hcb] using h.spsr c hc
  wf := by simpa using h.wf
  format := by simpa using h.format
  pins := by simpa using h.pins

theorem drawn (h : WithinFrame m i s u) (k : Nat) : WithinFrame m i s (u.drawn k) :=
  { h with spsr := fun b hb => by simpa using h.spsr b hb }

/-- Accesses change memory and the bus alone. -/
theorem accessed (m : Mode) (i : Instr) (s : State) (k : Nat) : WithinFrame m i s (s.accessed k) :=
  { refl m i s with wf := fun h => State.memAfter_wf h k, spsr := fun b _ => by simp }

/-- Writing loaded words, each to a register the instruction may write. -/
theorem writeLoaded {n : Mode} (hn : n = m ∨ n = .user) {vals : List (Reg × Word)}
    (hw : ∀ j ∈ vals.map Prod.fst, j ≠ 15 → mayWrite m i (phys n j) = true) (h : WithinFrame m i s u) :
    WithinFrame m i s (Machine.writeLoaded (phys n) vals u) := by
  induction vals generalizing u with
  | nil => exact h
  | cons x rest ih =>
    obtain ⟨j, v⟩ := x
    simp only [List.map_cons, List.forall_mem_cons] at hw
    refine ih hw.2 ?_
    split
    next => exact h
    next hj => exact h.set (phys_ne_pc n j hj) (.inl ⟨hw.1 hj, j, by rcases hn with rfl | rfl <;> simp⟩)

theorem writeSome {n : Mode} (hn : n = m ∨ n = .user) {choice : Word} {vals : List (Reg × Word)}
    (hw : ∀ j ∈ vals.map Prod.fst, j ≠ 15 → mayWrite m i (phys n j) = true) (h : WithinFrame m i s u) :
    WithinFrame m i s (Machine.writeSome (phys n) choice vals u) := by
  induction vals generalizing u with
  | nil => exact h
  | cons x rest ih =>
    obtain ⟨j, v⟩ := x
    simp only [List.map_cons, List.forall_mem_cons] at hw
    refine ih hw.2 ?_
    split
    next hj => exact h.set (phys_ne_pc n j hj.1) (.inl ⟨hw.1 hj.1, j, by rcases hn with rfl | rfl <;> simp⟩)
    next => exact h

/-- MSR to the CPSR changes the bits its mask selects, and not T (R175). -/
theorem msrCpsr {fields : PsrFields} {v : Word}
    (hs : ∀ k, msrSelects m i k = (fields.c && decide (k < 8) && decide (m ≠ .user)))
    (hf : fields.f = true → flagEffect i = .all)
    (hT : psrT (mergeBits (cpsrMask m fields) s.cpsr v) = psrT s.cpsr) :
    WithinFrame m i s (s.withCpsr (mergeBits (cpsrMask m fields) s.cpsr v)) :=
  { refl m i s with
    flags := by
      cases hff : fields.f with
      | true => rw [hf hff]; trivial
      | false =>
        have hk : ∀ k, 28 ≤ k → (mergeBits (cpsrMask m fields) s.cpsr v).getLsbD k = s.cpsr.getLsbD k := by
          intro k hk
          rw [getLsbD_mergeBits, getLsbD_cpsrMask, hff]
          simp [show ¬ k < 8 by omega]
        have he : psrFlags (mergeBits (cpsrMask m fields) s.cpsr v) = psrFlags s.cpsr := by
          simp only [psrFlags, hk _ (by omega : 28 ≤ 28), hk _ (by omega : 28 ≤ 29), hk _ (by omega : 28 ≤ 30),
            hk _ (by omega : 28 ≤ 31)]
        rw [State.flags_withCpsr, he]
        exact FlagEffect.keeps_refl _ _
    low := fun k hk hsel => by
      rw [hs] at hsel
      have hmask : (cpsrMask m fields).getLsbD k = false := by
        rw [getLsbD_cpsrMask]
        simpa [show ¬ 28 ≤ k by omega] using hsel
      rw [State.cpsr_withCpsr, getLsbD_mergeBits, hmask]
      rfl
    thumb := hT
    spsr := fun b _ => by simp }

end WithinFrame

/-! ## The four things an instruction can do -/

/-- What instruction `i`, executed in mode `m`, can make of state `s`. -/
inductive Effect (m : Mode) (i : Instr) (s : State) : State → Prop where
  /-- It writes its results and moves the pc: an advance or a branch. -/
  | goes {u : State} {v : Word} (frame : WithinFrame m i s u)
      (aligned : s.pc.toNat % (fetchWidth i.isThumb).bytes = 0 → v.toNat % (fetchWidth i.isThumb).bytes = 0) :
      Effect m i s (u.withPc v)
  /-- BX (R132, R137). -/
  | exchanges {v : Word} (isBx : (∃ c rm, i = .bx c rm) ∨ ∃ a, i = .tBx a)
      (target : ¬ (v.getLsbD 0 = false ∧ v.getLsbD 1 = true)) :
      Effect m i s ((s.withCpsr (psrWithT s.cpsr (v.getLsbD 0))).withPc (v &&& 0xFFFFFFFE#32))
  /-- It writes its results and returns from an exception (R143, R182). -/
  | returns {u : State} {b : Bank} {v : Word} (frame : WithinFrame m i s u) (hb : m.bank? = some b)
      (isReturn : isExceptionReturn i = true) (aligned : v.toNat % (fetchWidth (psrT (u.spsr b))).bytes = 0) :
      Effect m i s ((u.withCpsr (u.spsr b)).withPc v)
  /-- It enters its exception (R193), after the reads before a data abort (R184). -/
  | raises {u : State} {e : ExcKind} {link : Word} (frame : WithinFrame m i s u) (hcpsr : u.cpsr = s.cpsr)
      (raised : mayRaise i = some e) : Effect m i s (u.takeException e link)

/-! ### Shared operations as effects -/

section Operations

variable {m : Mode} {i : Instr} {s u t : State}

theorem effect_of_advance {n : Nat} (h : u.advance n = .next t) (frame : WithinFrame m i s u)
    (hn : n = (fetchWidth i.isThumb).bytes) : Effect m i s t := by
  obtain ⟨hlt, rfl⟩ := advance_next.mp h
  refine .goes frame fun hpc => ?_
  rw [frame.pc] at hlt ⊢
  have hnat : (s.pc + BitVec.ofNat 32 n).toNat = s.pc.toNat + n := by
    simp only [Config.addressEnd] at hlt
    rw [BitVec.toNat_add, BitVec.toNat_ofNat]
    omega
  rw [hnat, hn, Nat.add_mod_right]
  exact hpc

theorem effect_of_jumpArm {v : Word} (h : u.jumpArm v = .next t) (frame : WithinFrame m i s u) : Effect m i s t := by
  obtain ⟨hv, rfl⟩ := jumpArm_next.mp h
  exact .goes frame fun _ => aligned_of_mod_four ((extractLsb_one_zero_eq_zero_iff v).mp hv) _

theorem effect_of_jumpThumb {v : Word} (h : u.jumpThumb v = .next t) (frame : WithinFrame m i s u)
    (hi : i.isThumb = true) : Effect m i s t := by
  obtain rfl := jumpThumb_next.mp h
  refine .goes frame fun _ => ?_
  rw [hi, toNat_and_halfwordMask, fetchWidth_bytes_thumb]
  omega

theorem effect_of_branchTo {target : Int} (h : u.branchTo target (fetchWidth i.isThumb).bytes = .next t)
    (frame : WithinFrame m i s u)
    (ha : s.pc.toNat % (fetchWidth i.isThumb).bytes = 0 → target % (fetchWidth i.isThumb).bytes = 0) :
    Effect m i s t := by
  obtain ⟨⟨h0, h1⟩, rfl⟩ := branchTo_next.mp h
  refine .goes frame fun hpc => ?_
  have hlen : 0 < (fetchWidth i.isThumb).bytes := by cases i.isThumb <;> decide
  have hnat := toNat_ofInt_target h0 h1 hlen
  have := ha hpc
  rw [← hnat] at this
  exact_mod_cast this

theorem effect_of_exceptionReturn {v : Word} (h : u.exceptionReturn m v = .next t) (frame : WithinFrame m i s u)
    (hi : isExceptionReturn i = true) : Effect m i s t := by
  obtain ⟨b, hb, ha, rfl⟩ := exceptionReturn_next.mp h
  exact .returns frame hb hi (exceptionReturn_target_aligned ha)

/-- The destination of an ARM data-processing instruction (R140 to R143). -/
theorem effect_of_writeResult {S : Bool} {rd : Reg} {v : Word} {f : Flags} (h : writeResult s m S rd v f = .next t)
    (hi : i.isThumb = false) (hw : mayWrite m i (phys m rd) = true)
    (hf : S = true → rd ≠ 15 → (flagEffect i).keeps s.flags f)
    (hr : S = true → rd = 15 → isExceptionReturn i = true) : Effect m i s t := by
  unfold writeResult at h
  split at h
  next hrd =>
    split at h
    next hS => exact effect_of_exceptionReturn h (.refl m i s) (hr hS hrd)
    next => exact effect_of_jumpArm h (.refl m i s)
  next hrd =>
    have frame : WithinFrame m i s (s.setX m rd v) := (WithinFrame.refl m i s).setX v hrd hw
    split at h
    next hS => exact effect_of_advance h (frame.withFlags (hf hS hrd)) (by rw [hi]; rfl)
    next => exact effect_of_advance h frame (by rw [hi]; rfl)

/-- MSR (R175). -/
theorem effect_of_writePsr {psr : PsrName} {fields : PsrFields} {v : Word}
    (h : writePsr s m psr fields v = .next t) (hi : i.isThumb = false)
    (hsel : ∀ k, msrSelects m i k = (psr == .cpsr && fields.c && decide (k < 8) && decide (m ≠ .user)))
    (hspsr : ∀ b, writesSpsr m i b = (psr == .spsr && m.bank? == some b))
    (hf : psr = .cpsr → fields.f = true → flagEffect i = .all) : Effect m i s t := by
  unfold writePsr at h
  split at h
  case h_1 =>
    split at h
    next => cases h
    next hT =>
      exact effect_of_advance h (.msrCpsr (fun k => by simp [hsel]) (hf rfl) (not_not.mp hT)) (by rw [hi]; rfl)
  case h_2 =>
    split at h
    case h_1 => cases h
    case h_2 b hb =>
      exact effect_of_advance h ((WithinFrame.refl m i s).setSpsr _ (by simp [hspsr, hb])) (by rw [hi]; rfl)

/-- A load multiple that answers finished with its registers written, or entered Data Abort (R180, R184). -/
theorem effect_of_loadMultiple {mode : AddrMode} {wb thumb : Bool} {rn : Reg} {regs : List Reg} {n : Mode}
    {finish : List (Reg × Word) → State → Out}
    (h : loadMultiple s m mode wb rn regs (phys n) thumb finish = .next t) (hn : n = m ∨ n = .user) (hrn : rn ≠ 15)
    (hlist : ∀ j ∈ regs, j ≠ 15 → mayWrite m i (phys n j) = true)
    (hbase : wb = true → mayWrite m i (phys m rn) = true)
    (hraise : mayRaise i = some .dabt)
    (hfinish : ∀ vals u, WithinFrame m i s (writeLoaded (phys n) vals u) → finish vals u = .next t →
      Effect m i s t) :
    Effect m i s t := by
  have hpc := phys_ne_pc m rn hrn
  rcases loadMultiple_next h with ⟨vals, hvals, hfin⟩ | ⟨k, vals, -, hvals, rfl⟩
  · refine hfinish vals _ (.writeLoaded hn (fun j hj => hlist j (hvals ▸ hj)) ?_) hfin
    split
    next hwb => exact (WithinFrame.accessed m i s _).set hpc (.inl ⟨hbase hwb, rn, .inl rfl⟩)
    next => exact .accessed m i s _
  · have hwrites : ∀ j ∈ vals.map Prod.fst, j ≠ 15 → mayWrite m i (phys n j) = true := fun j hj =>
      hlist j (List.mem_of_mem_take (hvals ▸ hj))
    have frame := WithinFrame.writeSome (choice := Config.freeWord (s.accessed (k + 1)).freeIndex) hn hwrites
      (WithinFrame.accessed m i s (k + 1))
    refine .raises ((frame.set hpc ?_).drawn 1) (by simp) hraise
    split
    next hwb => exact .inl ⟨hbase hwb, rn, .inl rfl⟩
    next => exact .inr rfl

/-- An ARM instruction skips, or does what its meaning does (R93). -/
theorem effect_of_armInstr {c : Cond} {body : Mode → Out} (h : armInstr c s body = .next t) (hm : s.mode? = some m)
    (hi : i.isThumb = false) (hbody : body m = .next t → Effect m i s t) : Effect m i s t := by
  cases hc : condPasses c s.flags with
  | true => exact hbody (armInstr_of hm hc body ▸ h)
  | false => exact effect_of_advance (armInstr_skip hm hc body ▸ h) (.refl m i s) (by rw [hi]; rfl)

theorem effect_of_inMode {body : Mode → Out} (h : inMode s body = .next t) (hm : s.mode? = some m)
    (hbody : body m = .next t → Effect m i s t) : Effect m i s t :=
  hbody (inMode_of hm body ▸ h)

end Operations

/-! ### The instructions -/

variable {m : Mode} {s t : State}

theorem execBx_effect {c : Cond} {rm : Reg} (hm : s.mode? = some m) (h : execBx c rm s = .next t) :
    Effect m (.bx c rm) s t := by
  refine effect_of_armInstr h hm rfl fun h => ?_
  split at h
  next => cases h
  next =>
    obtain ⟨hv, rfl⟩ := branchExchange_next.mp h
    exact .exchanges (.inl ⟨c, rm, rfl⟩) hv

theorem execTBx_effect {a : Reg} (hm : s.mode? = some m) (h : execTBx a s = .next t) : Effect m (.tBx a) s t := by
  refine effect_of_inMode h hm fun h => ?_
  obtain ⟨hv, rfl⟩ := branchExchange_next.mp h
  exact .exchanges (.inr ⟨a, rfl⟩) hv

theorem execMrs_effect {c : Cond} {psr : PsrName} {rd : Reg} (hm : s.mode? = some m)
    (h : execMrs c psr rd s = .next t) : Effect m (.mrs c psr rd) s t := by
  refine effect_of_armInstr h hm rfl fun h => ?_
  have frame {v : Word} (hrd : rd ≠ 15) : WithinFrame m (.mrs c psr rd) s (s.setX m rd v) :=
    (WithinFrame.refl m _ s).setX v hrd (by simp [mayWrite])
  split at h
  next => cases h
  next hrd =>
    split at h
    case h_1 => exact effect_of_advance h (frame hrd) rfl
    case h_2 =>
      split at h
      case h_1 => cases h
      case h_2 => exact effect_of_advance h (frame hrd) rfl

theorem execMsrReg_effect {c : Cond} {psr : PsrName} {fields : PsrFields} {rm : Reg} (hm : s.mode? = some m)
    (h : execMsrReg c psr fields rm s = .next t) : Effect m (.msrReg c psr fields rm) s t := by
  refine effect_of_armInstr h hm rfl fun h => ?_
  split at h
  next => cases h
  next => exact effect_of_writePsr h rfl (fun _ => rfl) (fun _ => rfl) fun hp hf => by simp [flagEffect, hp, hf]

theorem execMsrImm_effect {c : Cond} {psr : PsrName} {fields : PsrFields} {rot : BitVec 4} {imm8 : BitVec 8}
    (hm : s.mode? = some m) (h : execMsrImm c psr fields rot imm8 s = .next t) :
    Effect m (.msrImm c psr fields rot imm8) s t :=
  effect_of_armInstr h hm rfl fun h =>
    effect_of_writePsr h rfl (fun _ => rfl) (fun _ => rfl) fun hp hf => by simp [flagEffect, hp, hf]

/-- MOV: V stays (R141). -/
theorem effect_of_movOp {i : Instr} {S : Bool} {rd : Reg} {op2 : Word × Bool} (h : movOp s m S rd op2 = .next t)
    (hi : i.isThumb = false) (hw : mayWrite m i (phys m rd) = true)
    (hf : flagEffect i = if S then (if rd = 15 then .all else .nzc) else .none)
    (hr : isExceptionReturn i = (S && rd == 15)) : Effect m i s t :=
  effect_of_writeResult h hi hw (fun hS hrd => by rw [hf, if_pos hS, if_neg hrd]; rfl)
    fun hS hrd => by simp [hr, hS, hrd]

/-- ADD, SUB and any result that may write all four flags (R141). -/
theorem effect_of_allFlagsResult {i : Instr} {S : Bool} {rd : Reg} {v : Word} {f : Flags}
    (h : writeResult s m S rd v f = .next t) (hi : i.isThumb = false) (hw : mayWrite m i (phys m rd) = true)
    (hf : flagEffect i = if S then .all else .none) (hr : isExceptionReturn i = (S && rd == 15)) : Effect m i s t :=
  effect_of_writeResult h hi hw (fun hS _ => by rw [hf, if_pos hS]; trivial) fun hS hrd => by simp [hr, hS, hrd]

theorem effect_of_cmpOp {i : Instr} {a b : Word} (h : cmpOp s a b = .next t) (hi : i.isThumb = false)
    (hf : flagEffect i = .all) : Effect m i s t :=
  effect_of_advance h ((WithinFrame.refl m i s).withFlags (by rw [hf]; trivial)) (by rw [hi]; rfl)

theorem effect_of_thumbResult {i : Instr} {rd : LowReg} {r : Word × Flags} (h : thumbResult s m rd r = .next t)
    (hi : i.isThumb = true) (hw : mayWrite m i (phys m (low rd)) = true) (hf : (flagEffect i).keeps s.flags r.2) :
    Effect m i s t :=
  effect_of_advance h (((WithinFrame.refl m i s).setX _ (low_ne_fifteen rd) hw).withFlags hf) (by rw [hi]; rfl)

theorem effect_of_thumbCompare {i : Instr} {a b : Word} (h : thumbCompare s a b = .next t) (hi : i.isThumb = true)
    (hf : flagEffect i = .all) : Effect m i s t :=
  effect_of_advance h ((WithinFrame.refl m i s).withFlags (by rw [hf]; trivial)) (by rw [hi]; rfl)

theorem effect_of_thumbHighWrite {i : Instr} {d : Reg} {v : Word} (h : thumbHighWrite s m d v = .next t)
    (hi : i.isThumb = true) (hw : mayWrite m i (phys m d) = true) : Effect m i s t := by
  unfold thumbHighWrite at h
  split at h
  next => exact effect_of_jumpThumb h (.refl m i s) hi
  next hd => exact effect_of_advance h ((WithinFrame.refl m i s).setX v hd hw) (by rw [hi]; rfl)

/-- A Thumb result that writes no flag (R135, R156 to R158). -/
theorem effect_of_thumbRegister {i : Instr} {rd : Reg} {v : Word} (h : (s.setX m rd v).advance 2 = .next t)
    (hrd : rd ≠ 15) (hi : i.isThumb = true) (hw : mayWrite m i (phys m rd) = true) : Effect m i s t :=
  effect_of_advance h ((WithinFrame.refl m i s).setX v hrd hw) (by rw [hi]; rfl)

theorem effect_of_raise {i : Instr} {e : ExcKind} {thumb : Bool}
    (h : Host.Outcome.next (s.raise e thumb) = (.next t : Out)) (he : mayRaise i = some e) : Effect m i s t := by
  cases h
  exact .raises (.refl m i s) rfl he

/-! ### Branches -/

theorem execB_effect {c : Cond} {imm24 : BitVec 24} (hm : s.mode? = some m) (h : execB c imm24 s = .next t) :
    Effect m (.b c imm24) s t := by
  refine effect_of_armInstr h hm rfl fun h => effect_of_branchTo h (.refl m _ s) fun hpc => ?_
  have hoff : armBranchOffset imm24 % 4 = 0 := toInt_append_zero_emod imm24 2
  simp only [Instr.isThumb, fetchWidth_bytes_arm] at hpc ⊢
  omega

theorem execBl_effect {c : Cond} {imm24 : BitVec 24} (hm : s.mode? = some m) (h : execBl c imm24 s = .next t) :
    Effect m (.bl c imm24) s t := by
  refine effect_of_armInstr h hm rfl fun h =>
    effect_of_branchTo h ((WithinFrame.refl m _ s).setX _ (by decide) (by simp [mayWrite])) fun hpc => ?_
  have hoff : armBranchOffset imm24 % 4 = 0 := toInt_append_zero_emod imm24 2
  simp only [Instr.isThumb, fetchWidth_bytes_arm] at hpc ⊢
  omega

theorem execTB_effect {offset11 : BitVec 11} (hm : s.mode? = some m) (h : execTB offset11 s = .next t) :
    Effect m (.tB offset11) s t := by
  refine effect_of_inMode h hm fun h => effect_of_branchTo h (.refl m _ s) fun hpc => ?_
  have hoff : thumbBranchOffset offset11 % 2 = 0 := toInt_append_zero_emod offset11 1
  simp only [Instr.isThumb, fetchWidth_bytes_thumb] at hpc ⊢
  omega

theorem execTBcond_effect {c : Cond} {soffset8 : BitVec 8} (hm : s.mode? = some m)
    (h : execTBcond c soffset8 s = .next t) : Effect m (.tBcond c soffset8) s t := by
  refine effect_of_inMode h hm fun h => ?_
  split at h
  next =>
    refine effect_of_branchTo h (.refl m _ s) fun hpc => ?_
    have hoff : thumbCondOffset soffset8 % 2 = 0 := toInt_append_zero_emod soffset8 1
    simp only [Instr.isThumb, fetchWidth_bytes_thumb] at hpc ⊢
    omega
  next => exact effect_of_advance h (.refl m _ s) rfl

theorem execTBlHi_effect {offset11 : BitVec 11} (hm : s.mode? = some m) (h : execTBlHi offset11 s = .next t) :
    Effect m (.tBlHi offset11) s t :=
  effect_of_inMode h hm fun h => effect_of_thumbRegister h (by decide) rfl (by simp [mayWrite])

/-- The second half of a Thumb BL goes to an even R14 plus an even offset (R136). -/
theorem execTBlLo_effect {offset11 : BitVec 11} (hm : s.mode? = some m) (h : execTBlLo offset11 s = .next t) :
    Effect m (.tBlLo offset11) s t := by
  refine effect_of_inMode h hm fun h => ?_
  split at h
  next => cases h
  next hodd =>
    refine effect_of_branchTo h ((WithinFrame.refl m _ s).setX _ (by decide) (by simp [mayWrite])) fun _ => ?_
    have hbase : (s.x m thumbAhead 14).toNat % 2 = 0 := by
      rw [getLsbD_eq_div, decide_eq_true_iff] at hodd
      omega
    have hoff : (thumbBlLow offset11).toNat % 2 = 0 := by
      rw [thumbBlLow, BitVec.toNat_shiftLeft, Nat.shiftLeft_eq]
      omega
    simp only [Instr.isThumb, fetchWidth_bytes_thumb]
    omega

/-! ### Load multiple -/

/-- The loaded registers are among those the tables name. -/
theorem any_listed {w : Nat} {list : BitVec w} {j : Reg} (n : Mode) (h : list.getLsbD j.val = true) :
    allRegs.any (fun r => list.getLsbD r.val && phys n j == phys n r) = true :=
  List.any_eq_true.mpr ⟨j, mem_allRegs j, by simp [h]⟩

/-- Below R15 the list of an S form is its 15-bit field (R182, R183). -/
theorem getLsbD_of_mem_regsOf_append {x : BitVec 1} {list : BitVec 15} {j : Reg} (h : j ∈ regsOf (x ++ list))
    (hj : j ≠ 15) : list.getLsbD j.val = true := by
  have hlt : j.val < 15 := by
    have := j.isLt
    have : j.val ≠ 15 := fun h => hj (Fin.ext h)
    omega
  have := mem_regsOf.mp h
  rwa [BitVec.getLsbD_append, if_pos hlt] at this

theorem base_ne_fifteen_of_not_ldmRefused {wb : Bool} {rn : Reg} {list : BitVec 16}
    (h : ¬ ldmRefused wb rn list = true) : rn ≠ 15 := by
  rintro rfl
  simp [ldmRefused] at h

theorem execLdm_effect {c : Cond} {mode : AddrMode} {wb : Bool} {rn : Reg} {list : BitVec 16}
    (hm : s.mode? = some m) (h : execLdm c mode wb rn list s = .next t) : Effect m (.ldm c mode wb rn list) s t := by
  refine effect_of_armInstr h hm rfl fun h => ?_
  split at h
  next => cases h
  next href =>
    refine effect_of_loadMultiple h (.inl rfl) (base_ne_fifteen_of_not_ldmRefused href) ?list
      (fun hwb => by simp [mayWrite, hwb]) rfl ?finish
    case list =>
      intro j hj _
      simp only [mayWrite, any_listed m (mem_regsOf.mp hj), Bool.true_or]
    case finish =>
      intro vals u frame hfin
      split at hfin
      case h_1 => exact effect_of_advance hfin frame rfl
      case h_2 => exact effect_of_jumpArm hfin frame

theorem execLdmPcSpsr_effect {c : Cond} {mode : AddrMode} {wb : Bool} {rn : Reg} {list : BitVec 15}
    (hm : s.mode? = some m) (h : execLdmPcSpsr c mode wb rn list s = .next t) :
    Effect m (.ldmPcSpsr c mode wb rn list) s t := by
  refine effect_of_armInstr h hm rfl fun h => ?_
  split at h
  next => cases h
  next =>
    split at h
    next => cases h
    next href =>
      refine effect_of_loadMultiple h (.inl rfl) (base_ne_fifteen_of_not_ldmRefused href) ?list
        (fun hwb => by simp [mayWrite, hwb]) rfl ?finish
      case list =>
        intro j hj hj15
        simp only [mayWrite, any_listed m (getLsbD_of_mem_regsOf_append hj hj15), Bool.true_or]
      case finish =>
        intro vals u frame hfin
        split at hfin
        case h_1 => cases hfin
        case h_2 => exact effect_of_exceptionReturn hfin frame rfl

theorem execLdmUser_effect {c : Cond} {mode : AddrMode} {wb : Bool} {rn : Reg} {list : BitVec 15}
    (hm : s.mode? = some m) (h : execLdmUser c mode wb rn list s = .next t) :
    Effect m (.ldmUser c mode wb rn list) s t := by
  refine effect_of_armInstr h hm rfl fun h => ?_
  split at h
  next => cases h
  next href =>
    rw [Bool.or_eq_true, not_or] at href
    refine effect_of_loadMultiple h (.inr rfl) (base_ne_fifteen_of_not_ldmRefused href.2) ?list
      (fun hwb => by cases hwb) rfl fun _ _ frame hfin => effect_of_advance hfin frame rfl
    case list =>
      intro j hj hj15
      simp only [mayWrite, any_listed .user (getLsbD_of_mem_regsOf_append hj hj15), Bool.true_or]

theorem execTLdmia_effect {rb : LowReg} {list : BitVec 8} (hm : s.mode? = some m)
    (h : execTLdmia rb list s = .next t) : Effect m (.tLdmia rb list) s t := by
  refine effect_of_inMode h hm fun h => ?_
  split at h
  next => cases h
  next =>
    refine effect_of_loadMultiple h (.inl rfl) (low_ne_fifteen rb) ?list (fun _ => by simp [mayWrite]) rfl
      fun _ _ frame hfin => effect_of_advance hfin frame rfl
    case list =>
      intro j hj _
      have hlist : list.getLsbD j.val = true := by
        have := mem_regsOf.mp hj
        rw [BitVec.getLsbD_setWidth, Bool.and_eq_true] at this
        exact this.2
      simp only [mayWrite, any_listed m hlist, Bool.true_or]

/-! ### All instructions -/

/-- Every instruction has one of the four effects. -/
theorem exec_effect {i : Instr} (hm : s.mode? = some m) (h : exec i s = .next t) : Effect m i s t := by
  cases i with
  | bx => exact execBx_effect hm h
  | mrs => exact execMrs_effect hm h
  | msrReg => exact execMsrReg_effect hm h
  | msrImm => exact execMsrImm_effect hm h
  | movImm | movReg =>
    exact effect_of_armInstr h hm rfl fun h => effect_of_movOp h rfl (by simp [mayWrite]) rfl rfl
  | movRsr =>
    exact effect_of_armInstr h hm rfl fun h =>
      effect_of_movOp (unlessPcAmount_next.mp h).2 rfl (by simp [mayWrite]) rfl rfl
  | addImm | addReg | subImm | subReg =>
    exact effect_of_armInstr h hm rfl fun h => effect_of_allFlagsResult h rfl (by simp [mayWrite]) rfl rfl
  | addRsr | subRsr =>
    exact effect_of_armInstr h hm rfl fun h =>
      effect_of_allFlagsResult (unlessPcAmount_next.mp h).2 rfl (by simp [mayWrite]) rfl rfl
  | cmpImm | cmpReg => exact effect_of_armInstr h hm rfl fun h => effect_of_cmpOp h rfl rfl
  | cmpRsr => exact effect_of_armInstr h hm rfl fun h => effect_of_cmpOp (unlessPcAmount_next.mp h).2 rfl rfl
  | undefined | swi => exact effect_of_armInstr h hm rfl fun h => effect_of_raise h rfl
  | tUndefined | tSwi => exact effect_of_inMode h hm fun h => effect_of_raise h rfl
  | b => exact execB_effect hm h
  | bl => exact execBl_effect hm h
  | tB => exact execTB_effect hm h
  | tBcond => exact execTBcond_effect hm h
  | tBlHi => exact execTBlHi_effect hm h
  | tBlLo => exact execTBlLo_effect hm h
  | tBx => exact execTBx_effect hm h
  | ldm => exact execLdm_effect hm h
  | ldmPcSpsr => exact execLdmPcSpsr_effect hm h
  | ldmUser => exact execLdmUser_effect hm h
  | tLdmia => exact execTLdmia_effect hm h
  | tAddReg | tAddImm3 | tAddImm8 =>
    exact effect_of_inMode h hm fun h => effect_of_thumbResult h rfl (by simp [mayWrite]) trivial
  | tMovImm8 => exact effect_of_inMode h hm fun h => effect_of_thumbResult h rfl (by simp [mayWrite]) ⟨rfl, rfl⟩
  | tCmpImm8 | tCmpReg => exact effect_of_inMode h hm fun h => effect_of_thumbCompare h rfl rfl
  | tAddHi | tMovHi =>
    exact effect_of_inMode h hm fun h =>
      effect_of_thumbHighWrite (unlessLowPair_next.mp h).2 rfl (by simp [mayWrite])
  | tCmpHi =>
    refine effect_of_inMode h hm fun h => ?_
    have h := (unlessLowPair_next.mp h).2
    split at h
    next => cases h
    next => exact effect_of_thumbCompare h rfl rfl
  | tAddPc | tAddSp =>
    exact effect_of_inMode h hm fun h => effect_of_thumbRegister h (low_ne_fifteen _) rfl (by simp [mayWrite])
  | tAddSpImm7 => exact effect_of_inMode h hm fun h => effect_of_thumbRegister h (by decide) rfl (by simp [mayWrite])

end Sys2Proof.Machine
end

section
/-! The frame of an instruction and the invariants of a step, read off the four effects an instruction can have. -/

namespace Sys2Proof.Machine

/-! ## Where instructions run -/

/-- Every meaning runs in the mode of the CPSR (R34). -/
theorem exec_eq_inMode (i : Instr) (s : State) : ∃ body, exec i s = inMode s body := by
  cases i <;> exact ⟨_, rfl⟩

theorem mode_of_exec_next {i : Instr} {s t : State} (h : exec i s = .next t) : ∃ m, s.mode? = some m := by
  obtain ⟨body, hb⟩ := exec_eq_inMode i s
  obtain ⟨m, hm, -⟩ := inMode_next.mp (hb ▸ h)
  exact ⟨m, hm⟩

/-! ## The tables against each other -/

theorem flagEffect_of_isExceptionReturn {i : Instr} (h : isExceptionReturn i = true) : flagEffect i = .all := by
  cases i <;> simp_all [isExceptionReturn, flagEffect]

theorem mayWrite_lr_of_mayRaise {i : Instr} {e : ExcKind} (m : Mode) (h : mayRaise i = some e) :
    mayWrite m i e.bank.lr = true := by
  cases i <;> cases h <;> simp [mayWrite, ExcKind.bank, Bank.lr]

/-! ## The frame of an instruction -/

variable {m : Mode} {i : Instr} {s t u : State}

theorem WithinFrame.get_eq (h : WithinFrame m i s u) {p : PhysReg} (hp : mayWrite m i p = false) :
    u.get p = s.get p := by
  by_contra hne
  simp [(h.regs p hne).1] at hp

/-- A register a step changed is named in User mode or in the current one: another is hidden from the instruction. -/
theorem WithinFrame.get_eq_of_hidden (h : WithinFrame m i s u) {p : PhysReg} (hp : ¬ NamedIn m p) :
    u.get p = s.get p := by
  by_contra hne
  exact hp (h.regs p hne).2

/-- Settles O54: a register outside the table is outside the frame of every effect, and an exception writes one more
register, which the table names. -/
theorem registerFrame : Obligations.RegisterFrame := by
  intro i s t m p hm h hpc hp
  cases exec_effect hm h with
  | goes frame => simpa [hpc] using frame.get_eq hp
  | exchanges => simp [hpc]
  | returns frame => simpa [hpc] using frame.get_eq hp
  | @raises u e link frame _ raised =>
    have hlr : p ≠ e.bank.lr := by
      rintro rfl
      simp [mayWrite_lr_of_mayRaise m raised] at hp
    rw [(takeException_spec u e link).1 p, if_neg hpc, if_neg hlr]
    exact frame.get_eq hp

theorem psrFlags_entryPsr (e : ExcKind) (p : Word) : psrFlags (e.entryPsr p) = psrFlags p := by
  simp [ExcKind.entryPsr]

/-- What the table of R162 says of an instruction holds of what it does. -/
theorem Effect.flags_kept (h : Effect m i s t) : (flagEffect i).keeps s.flags t.flags := by
  cases h with
  | goes frame => exact frame.flags
  | exchanges => simp [State.flags]
  | returns _ _ isReturn => rw [flagEffect_of_isExceptionReturn isReturn]; trivial
  | @raises u e link frame =>
    have hf : (u.takeException e link).flags = u.flags := psrFlags_entryPsr e u.cpsr
    rw [hf]
    exact frame.flags

/-- Settles O55, case by case of the table. -/
theorem flagFrame : Obligations.FlagFrame := by
  intro i s t h
  obtain ⟨m, hm⟩ := mode_of_exec_next h
  have hk := (exec_effect hm h).flags_kept
  exact ⟨fun he => by rwa [he] at hk, fun he => by rwa [he] at hk, fun he => by rwa [he] at hk⟩

/-- Bit 5 is T: BX alone writes it besides the instructions that replace the control bits (R132). -/
theorem Effect.cpsr_low_kept (h : Effect m i s t) {k : Nat} (hk : k < 28) (hret : isExceptionReturn i = false)
    (hsel : msrSelects m i k = false) (hbx : k = 5 → (∀ c rm, i ≠ .bx c rm) ∧ ∀ a, i ≠ .tBx a)
    (hexc : 8 ≤ k ∨ ∀ e, mayRaise i = some e → t.pc ≠ e.vector) : t.cpsr.getLsbD k = s.cpsr.getLsbD k := by
  cases h with
  | goes frame => exact frame.low k hk hsel
  | exchanges isBx =>
    have h5 : k ≠ 5 := by
      intro h5
      obtain ⟨harm, hthumb⟩ := hbx h5
      rcases isBx with ⟨c, rm, hi⟩ | ⟨a, hi⟩
      · exact harm c rm hi
      · exact hthumb a hi
    rw [State.cpsr_withPc, State.cpsr_withCpsr, getLsbD_psrWithT, if_neg h5]
  | returns _ _ isReturn => simp [isReturn] at hret
  | @raises u e link frame hcpsr raised =>
    rcases hexc with h8 | hpc
    · rw [(takeException_spec u e link).2.2.1, getLsbD_entryPsr_high e _ k h8, hcpsr]
    · exact absurd rfl (hpc e raised)

theorem Effect.spsr_kept (h : Effect m i s t) {b : Bank} (hw : writesSpsr m i b = false)
    (hexc : ∀ e, mayRaise i = some e → e.bank ≠ b) : t.spsr b = s.spsr b := by
  cases h with
  | goes frame => simpa using frame.spsr b hw
  | exchanges => simp
  | returns frame => simpa using frame.spsr b hw
  | @raises u e link frame _ raised =>
    rw [(takeException_spec u e link).2.1 b, if_neg (Ne.symm (hexc e raised))]
    exact frame.spsr b hw

/-- Settles O56: the CPSR bits and the SPSRs of each effect. -/
theorem statusRegisterFrame : Obligations.StatusRegisterFrame := by
  intro i s t m hm h
  have he := exec_effect hm h
  exact ⟨fun _ hk hret hsel hbx hexc => he.cpsr_low_kept hk hret hsel hbx hexc,
    fun _ hw hexc => he.spsr_kept hw hexc⟩

/-- Settles O58: only three of the four effects change T, and each is one of the ways named. -/
theorem operatingStateChanges : Obligations.OperatingStateChanges := by
  intro i s t h hT
  obtain ⟨m, hm⟩ := mode_of_exec_next h
  cases exec_effect hm h with
  | goes frame => exact absurd frame.thumb hT
  | exchanges isBx =>
    rcases isBx with hbx | hbx
    · exact .inl hbx
    · exact .inr (.inl hbx)
  | returns _ _ isReturn => exact .inr (.inr (.inl isReturn))
  | @raises u e link _ _ raised =>
    exact .inr (.inr (.inr ⟨e, raised, rfl, entryPsr_T e u.cpsr, entryPsr_mode e u.cpsr⟩))

end Sys2Proof.Machine
end

section
/-! What one step can do (R11): a Reset, an exception taken in front of the instruction, or one instruction of the
operating state's own set. The invariant of every step and the confinement of User mode follow from the effects of
that instruction. -/

namespace Sys2Proof.Machine

/-! ## The decoder keeps to the operating state's instruction set -/

/-- A table of rows, tried one after the other, answers what one of its rows answers. -/
theorem forall_row {P : Instr → Prop} {c : Prop} [Decidable c] {row : Instr} {rest : Except DecodeError Instr}
    (hrow : P row) (hrest : ∀ i, rest = .ok i → P i) : ∀ i, (if c then .ok row else rest) = .ok i → P i := by
  intro i h
  split at h
  next => cases h; exact hrow
  next => exact hrest i h

theorem isThumb_of_decodeArmRow {c : Cond} {w : Word} : ∀ i, decodeArmRow c w = .ok i → i.isThumb = false := by
  unfold decodeArmRow
  iterate 23 refine forall_row rfl ?_
  intro i h
  cases h

theorem isThumb_of_decodeArm {w : Word} {i : Instr} (h : decodeArm w = .ok i) : i.isThumb = false := by
  unfold decodeArm at h
  split at h
  case h_1 => cases h
  case h_2 => exact isThumb_of_decodeArmRow i h

theorem isThumb_of_decodeThumb {w : Half} : ∀ i, decodeThumb w = .ok i → i.isThumb = true := by
  unfold decodeThumb
  iterate 16 refine forall_row rfl ?_
  intro i h
  split at h
  next =>
    split at h <;> cases h
    rfl
  next =>
    revert i
    iterate 3 refine forall_row rfl ?_
    intro i h
    cases h

/-- What decodes in an operating state is an instruction of its set (R91). -/
theorem isThumb_of_decode_fetched {thumb : Bool} {v : Word} {i : Instr} (h : decode (fetchedCode thumb v) = .ok i) :
    i.isThumb = thumb := by
  cases thumb with
  | false => exact isThumb_of_decodeArm h
  | true => exact isThumb_of_decodeThumb _ h

/-! ## What one step can do -/

theorem fetchDecode_ended_next {s t : State} (h : fetchDecode s = .ended (.next t)) :
    t = (s.accessed 1).raise .pabt (psrT s.cpsr) := by
  unfold fetchDecode at h
  simp only at h
  split at h
  case h_1 s1 habort =>
    cases h
    rw [memRead_abort_state habort]
  case h_2 => cases h
  case h_3 => cases h
  case h_4 => split at h <;> cases h

theorem fetchDecode_execute {s u : State} {i : Instr} (h : fetchDecode s = .execute i u) :
    u = s.accessed 1 ∧ i.isThumb = psrT s.cpsr := by
  unfold fetchDecode at h
  simp only at h
  split at h
  case h_1 => cases h
  case h_2 => cases h
  case h_3 => cases h
  case h_4 v s1 hread =>
    split at h
    case h_1 => cases h
    case h_2 hdec =>
      cases h
      exact ⟨memRead_value_state hread, isThumb_of_decode_fetched hdec⟩

/-- What makes a step of a state that answers a next state (R11). -/
inductive StepKind (s : State) : State → Prop where
  /-- A Reset (R230). -/
  | resets : StepKind s s.popPins.takeReset
  /-- An interrupt, or after one access a Prefetch Abort (R203, R205, R206). -/
  | interrupts {k : Nat} {e : ExcKind} (he : e ≠ .reset) : StepKind s ((s.popPins.accessed k).raise e (psrT s.cpsr))
  /-- An instruction of the operating state's set, in the state the fetch leaves. -/
  | executes {i : Instr} {m : Mode} {t : State} (hi : i.isThumb = psrT s.cpsr) (hm : s.mode? = some m)
      (effect : Effect m i (s.popPins.accessed 1) t) : StepKind s t

theorem step_next {s t : State} (h : step s = .next t) : StepKind s t := by
  unfold step at h
  split at h
  case h_1 o hfront =>
    subst h
    unfold stepFront frontOf at hfront
    split at hfront
    next => cases hfront; exact .resets
    split at hfront
    next => cases hfront
    split at hfront
    next => cases hfront; exact .interrupts (k := 0) (by decide)
    split at hfront
    next => cases hfront; exact .interrupts (k := 0) (by decide)
    next =>
      rw [fetchDecode_ended_next hfront]
      exact .interrupts (by decide)
  case h_2 i u hfront =>
    have hfetch : fetchDecode s.popPins = .execute i u := by
      unfold stepFront frontOf at hfront
      iterate 4
        split at hfront
        next => cases hfront
      exact hfront
    obtain ⟨rfl, hi⟩ := fetchDecode_execute hfetch
    obtain ⟨m, hm⟩ := mode_of_exec_next h
    exact .executes hi hm (exec_effect hm h)

/-! ## The invariant -/

/-- An instruction of the operating state's set keeps memory canonical and the pc aligned (R26, R61). -/
theorem Effect.inv {m : Mode} {i : Instr} {s t : State} (h : Effect m i s t) (hi : i.isThumb = psrT s.cpsr)
    (hs : s.Inv) : t.Inv := by
  obtain ⟨hwf, hpc⟩ := hs
  cases h with
  | goes frame aligned =>
    refine ⟨frame.wf hwf, ?_⟩
    have hT := frame.thumb
    simp only [State.pcAligned, State.pc_withPc, State.cpsr_withPc, hT] at hpc ⊢
    rw [hi] at aligned
    exact aligned hpc
  | exchanges _ target =>
    refine ⟨hwf, ?_⟩
    simpa only [State.pcAligned, State.pc_withPc, State.cpsr_withPc, State.cpsr_withCpsr, psrT_psrWithT] using
      branchExchange_target_aligned target
  | returns frame _ _ aligned => exact ⟨frame.wf hwf, aligned⟩
  | @raises u e link frame =>
    obtain ⟨-, -, -, hmem, -⟩ := takeException_spec u e link
    exact ⟨hmem ▸ frame.wf hwf, vector_aligned e _⟩

theorem Effect.outside {m : Mode} {i : Instr} {s t : State} (h : Effect m i s t) :
    t.bigEndian = s.bigEndian ∧ t.pins = s.pins := by
  cases h with
  | goes frame => exact ⟨frame.format, frame.pins⟩
  | exchanges => exact ⟨rfl, rfl⟩
  | returns frame => exact ⟨frame.format, frame.pins⟩
  | @raises u e link frame =>
    obtain ⟨-, -, -, -, hformat, hpins, -⟩ := takeException_spec u e link
    exact ⟨hformat.trans frame.format, hpins.trans frame.pins⟩

/-- Settles O59: the pc is at a vector after an exception, and aligned by each effect of an instruction. -/
theorem stepKeepsInvariant : Obligations.StepKeepsInvariant := by
  intro s t hs h
  have hfetched : (s.popPins.accessed 1).Inv := ⟨State.memAfter_wf hs.1 1, hs.2⟩
  cases step_next h with
  | resets =>
    refine ⟨⟨?_, vector_aligned .reset _⟩, ?_, ?_⟩
    · simpa [State.takeReset] using hs.1
    · simp [State.takeReset]
    · simp [State.takeReset]
  | @interrupts k e =>
    obtain ⟨-, -, -, hmem, hformat, hpins, -⟩ := takeException_spec (s.popPins.accessed k) e
      ((s.popPins.accessed k).pc + e.linkOffset (psrT s.cpsr))
    refine ⟨⟨?_, vector_aligned e _⟩, hformat, hpins⟩
    rw [State.raise, hmem]
    exact State.memAfter_wf hs.1 k
  | executes hi _ effect => exact ⟨effect.inv hi hfetched, effect.outside⟩

/-! ## User mode -/

theorem not_namedIn_user {p : PhysReg} (h : ∀ i : Reg, p ≠ phys .user i) : ¬ NamedIn .user p := by
  rintro ⟨j, hj | hj⟩ <;> exact h j hj

theorem ne_pc_of_hidden {p : PhysReg} (h : ∀ i : Reg, p ≠ phys .user i) : p ≠ .pc := h 15

theorem spsrs_eq_of_spsr {s t : State} (h : ∀ b, t.spsr b = s.spsr b) : t.spsrs = s.spsrs := by
  have := h .fiq; have := h .svc; have := h .abt; have := h .irq; have := h .und
  cases hs : s.spsrs; cases ht : t.spsrs
  simp_all [State.spsr]

/-- MSR selects no control bit in User mode, nor any SPSR (R175, R219). -/
theorem msrSelects_user (i : Instr) (k : Nat) : msrSelects .user i k = false := by cases i <;> simp [msrSelects]

theorem writesSpsr_user (i : Instr) (b : Bank) : writesSpsr .user i b = false := by
  cases i <;> simp [writesSpsr, Mode.bank?]

/-- `t` is in User mode, with the masks, the SPSRs and the registers User mode does not see as in `s`. -/
def StaysConfined (s t : State) : Prop :=
  t.mode? = some .user ∧ psrI t.cpsr = psrI s.cpsr ∧ psrF t.cpsr = psrF s.cpsr ∧ t.spsrs = s.spsrs ∧
    ∀ p, (∀ i : Reg, p ≠ phys .user i) → t.get p = s.get p

/-- `t` is `s` with an exception entered. -/
def EntersFrom (s t : State) (e : ExcKind) : Prop :=
  t.mode? = some e.bank.mode ∧ t.pc = e.vector ∧ psrT t.cpsr = false ∧ psrI t.cpsr = true ∧
    (e ≠ .reset → t.spsr e.bank = s.cpsr) ∧ (∀ b, b ≠ e.bank → t.spsr b = s.spsr b) ∧
    ∀ p, (∀ i : Reg, p ≠ phys .user i) → p ≠ e.bank.lr → t.get p = s.get p

theorem entersFrom_takeException {s u : State} (e : ExcKind) (link : Word) (hcpsr : u.cpsr = s.cpsr)
    (hspsr : ∀ b, u.spsr b = s.spsr b) (hregs : ∀ p, (∀ i : Reg, p ≠ phys .user i) → u.get p = s.get p) :
    EntersFrom s (u.takeException e link) e := by
  obtain ⟨hget, hsp, -⟩ := takeException_spec u e link
  refine ⟨entryPsr_mode e u.cpsr, rfl, entryPsr_T e u.cpsr, entryPsr_I e u.cpsr, fun _ => ?_, fun b hb => ?_,
    fun p hp hlr => ?_⟩
  · rw [hsp, if_pos rfl, hcpsr]
  · rw [hsp, if_neg hb, hspsr]
  · rw [hget, if_neg (ne_pc_of_hidden hp), if_neg hlr, hregs p hp]

theorem entersFrom_takeReset (s : State) : EntersFrom s s.takeReset .reset := by
  refine ⟨by simp [State.takeReset, ExcKind.bank, Bank.mode], rfl, by simp [State.takeReset],
    by simp [State.takeReset], fun h => absurd rfl h, fun b hb => ?_, fun p hp hlr => ?_⟩
  · simp [State.takeReset, show b ≠ .svc from hb]
  · simp [State.takeReset, ne_pc_of_hidden hp, show p ≠ Bank.svc.lr from hlr]

/-- Within its frame an instruction of User mode stays confined. -/
theorem WithinFrame.staysConfined {i : Instr} {s u : State} (h : WithinFrame .user i s u)
    (hm : s.mode? = some .user) : StaysConfined s u := by
  have hlow : ∀ k < 28, u.cpsr.getLsbD k = s.cpsr.getLsbD k := fun k hk => h.low k hk (msrSelects_user i k)
  have hmode : u.mode? = s.mode? := psrMode_congr fun k hk => hlow k (by omega)
  exact ⟨hmode.trans hm, hlow 7 (by decide), hlow 6 (by decide),
    spsrs_eq_of_spsr fun b => h.spsr b (writesSpsr_user i b),
    fun p hp => h.get_eq_of_hidden (not_namedIn_user hp)⟩

theorem StaysConfined.withPc {s u : State} (h : StaysConfined s u) (v : Word) : StaysConfined s (u.withPc v) := by
  obtain ⟨hmode, hI, hF, hspsrs, hregs⟩ := h
  exact ⟨hmode, hI, hF, hspsrs, fun p hp => by simpa [ne_pc_of_hidden hp] using hregs p hp⟩

/-- An instruction in User mode stays confined or enters its exception: it has no SPSR to return from (R36). -/
theorem Effect.confined {i : Instr} {s t : State} (h : Effect .user i s t) (hm : s.mode? = some .user) :
    StaysConfined s t ∨ ∃ e, EntersFrom s t e := by
  cases h with
  | goes frame => exact .inl ((frame.staysConfined hm).withPc _)
  | @exchanges v =>
    have hmode : psrMode (psrWithT s.cpsr (v.getLsbD 0)) = some .user := (psrMode_psrWithT _ _).trans hm
    have hu : StaysConfined s (s.withCpsr (psrWithT s.cpsr (v.getLsbD 0))) :=
      ⟨hmode, psrI_psrWithT _ _, psrF_psrWithT _ _, rfl, fun _ _ => rfl⟩
    exact .inl (hu.withPc _)
  | returns _ hb => cases hb
  | @raises u e link frame hcpsr =>
    exact .inr ⟨e, entersFrom_takeException e link hcpsr (fun b => frame.spsr b (writesSpsr_user i b))
      fun p hp => frame.get_eq_of_hidden (not_namedIn_user hp)⟩

/-- Settles O60: a step from User mode is a Reset, an exception, or an instruction, which stays confined or enters
its own exception. -/
theorem userModeConfinement : Obligations.UserModeConfinement := by
  intro s t hm h
  show StaysConfined s t ∨ ∃ e, EntersFrom s t e
  cases step_next h with
  | resets => exact .inr ⟨.reset, entersFrom_takeReset s.popPins⟩
  | interrupts =>
    exact .inr ⟨_, entersFrom_takeException _ _ rfl (fun b => by simp) fun _ _ => rfl⟩
  | @executes i m _ _ hm' effect =>
    obtain rfl : Mode.user = m := Option.some.inj (hm.symm.trans hm')
    exact effect.confined hm

end Sys2Proof.Machine
end

section
/-! The steps and instructions that do nothing or are refused: what the front of a step refuses or masks, failed
conditions and illegal modes (R26, R31, R34, R93, R105). -/

namespace Sys2Proof.Machine

/-! ## The front of a step -/

theorem memRead_of_misaligned {kind : AccessKind} {a : Word} {w : Width} {s : State} (h : a.toNat % w.bytes ≠ 0) :
    memRead kind a w s = .refused kind.misaligned := by
  rw [memRead, if_pos h]

theorem fetchDecode_of_misaligned {s : State} (h : ¬ s.pcAligned) :
    fetchDecode s = .ended (.refused .misalignedPc) := by
  simp only [fetchDecode, memRead_of_misaligned h]
  rfl

theorem fetchDecode_of_decode_error {s : State} {c : Code} {e : DecodeError} (hpc : s.pcAligned)
    (hq : s.abortsAt 0 = false) (hc : s.codeAtPc = some c) (hdec : decode c = .error e) :
    fetchDecode s = .ended (.refused (decodeRefusal e)) := by
  obtain ⟨v, hread, rfl⟩ := memRead_fetch_codeAtPc hpc hq hc
  simp only [fetchDecode, hread, hdec]

/-- A step whose front ends without an instruction answers what the front does. -/
theorem step_of_fetchDecode_ended {s : State} {o : Out} (h : s.undisturbed) (hm : s.mode?.isSome = true)
    (hf : fetchDecode s.popPins = .ended o) : step s = o := by
  rw [step, stepFront_of_undisturbed h hm, hf]

/-- Settles O17: the fetch refuses the pc, or the decoder the word. -/
theorem stepRefusesUnadmitted : Obligations.StepRefusesUnadmitted := by
  intro s hund hmode
  have hrefused : ∀ {c e}, s.pcAligned → s.abortsAt 0 = false → s.codeAtPc = some c → decode c = .error e →
      step s = .refused (decodeRefusal e) := fun hpc hq hc hdec =>
    step_of_fetchDecode_ended hund hmode (fetchDecode_of_decode_error (s := s.popPins) hpc hq hc hdec)
  exact ⟨fun hpc => step_of_fetchDecode_ended hund hmode (fetchDecode_of_misaligned (s := s.popPins) hpc),
    fun c hpc hq hc => ⟨hrefused hpc hq hc, hrefused hpc hq hc⟩⟩

theorem frontOf_irq_masked {s : State} (h : psrI s.cpsr = true) (reset fiq irq irq' : Bool) :
    frontOf { reset, fiq, irq } s = frontOf { reset, fiq, irq := irq' } s := by
  simp [frontOf, h]

theorem frontOf_fiq_masked {s : State} (h : psrF s.cpsr = true) (reset fiq fiq' irq : Bool) :
    frontOf { reset, fiq, irq } s = frontOf { reset, fiq := fiq', irq } s := by
  simp [frontOf, h]

theorem stepFront_withNow (s : State) (p : Pins) : stepFront (s.withNow p) = frontOf p s.popPins := rfl

/-- Settles O18: the front of the step looks at a request only where its mask is clear. -/
theorem disabledInterruptIgnored : Obligations.DisabledInterruptIgnored := by
  intro s reset other
  constructor
  · intro hI
    simp only [step, stepFront_withNow]
    rw [frontOf_irq_masked (s := s.popPins) hI reset other true false]
  · intro hF
    simp only [step, stepFront_withNow]
    rw [frontOf_fiq_masked (s := s.popPins) hF reset true false other]

/-! ## Failed conditions and illegal modes -/

theorem advance_refused {s : State} {n : Nat} (h : ¬ s.canAdvance n) : s.advance n = .refused .pcWrap := by
  rw [State.advance, if_neg h]

/-- Every ARM instruction tests its condition before anything else (R93). -/
theorem exec_eq_armInstr {i : Instr} {c : Cond} (h : i.armCond = some c) (s : State) :
    ∃ body, exec i s = armInstr c s body := by
  cases i <;> cases h <;> exact ⟨_, rfl⟩

/-- Settles O19: the instruction's own meaning is not reached. -/
theorem failedConditionOnlyAdvances : Obligations.FailedConditionOnlyAdvances := by
  intro i c s hi hmode hc
  obtain ⟨m, hm⟩ := Option.isSome_iff_exists.mp hmode
  obtain ⟨body, hbody⟩ := exec_eq_armInstr hi s
  have hskip : exec i s = s.advance 4 := hbody.trans (armInstr_skip hm hc body)
  exact ⟨fun h => hskip.trans (advance_of h), fun h => hskip.trans (advance_refused h)⟩

/-- Settles O20: no meaning runs without a mode, and the step tests for Reset alone before it tests the mode. -/
theorem illegalModeOnlyResets : Obligations.IllegalModeOnlyResets := by
  intro s hm
  refine ⟨fun i => ?_, fun hreset => ?_, fun hreset => ?_⟩
  · obtain ⟨body, hbody⟩ := exec_eq_inMode i s
    exact hbody.trans (inMode_illegal hm body)
  · simp [step, stepFront, frontOf, hreset, hm]
  · refine ⟨s.popPins.takeReset, ?_, by simp [State.takeReset]⟩
    simp [step, stepFront, frontOf, hreset]

end Sys2Proof.Machine
end

section
/-! The mode table, the register banks and the state after reset (R21, R22, R33, R41). -/

namespace Sys2Proof.Machine

/-- Settles O9: the 32 values of the mode bits, and the seven modes. -/
theorem modeEncodingTable : Obligations.ModeEncodingTable := by
  refine ⟨by decide, Mode.ofBits_bits, ?_, rfl, rfl, rfl, rfl, rfl, rfl, rfl⟩
  intro m
  cases m <;> decide

/-- The number a physical register goes by in every mode that has it (R21). -/
def PhysReg.number : PhysReg → Reg
  | .r0 => 0 | .r1 => 1 | .r2 => 2 | .r3 => 3 | .r4 => 4 | .r5 => 5 | .r6 => 6 | .r7 => 7
  | .r8 | .r8Fiq => 8
  | .r9 | .r9Fiq => 9
  | .r10 | .r10Fiq => 10
  | .r11 | .r11Fiq => 11
  | .r12 | .r12Fiq => 12
  | .r13 | .r13Fiq | .r13Svc | .r13Abt | .r13Irq | .r13Und => 13
  | .r14 | .r14Fiq | .r14Svc | .r14Abt | .r14Irq | .r14Und => 14
  | .pc => 15

theorem number_phys (m : Mode) (i : Reg) : (phys m i).number = i := by
  revert i; cases m <;> decide

/-- When one number is one register in two modes (R21, R22). -/
theorem phys_eq_phys_iff (m n : Mode) (i : Reg) : phys m i = phys n i ↔
    i.val ≤ 7 ∨ i.val = 15 ∨ (8 ≤ i.val ∧ i.val ≤ 12 ∧ (m = .fiq ↔ n = .fiq)) ∨
      ((i.val = 13 ∨ i.val = 14) ∧ m.bank? = n.bank?) := by
  revert i; cases m <;> cases n <;> decide

/-- What a register reads after a register of the same mode is written (R22). -/
theorem x_setX (s : State) (m : Mode) (ahead v : Word) {i : Reg} (j : Reg) (hi : i ≠ 15) :
    (s.setX m i v).x m ahead j = if j = i then v else s.x m ahead j := by
  by_cases hj : j = 15
  · subst hj
    simp [hi, Ne.symm hi]
  · simp [State.x_of_ne _ m ahead hj, phys_eq_iff]

/-- Settles O10: a physical register has one number, and the modes that share it are told number by number. -/
theorem bankingRule : Obligations.BankingRule := by
  refine ⟨fun m n i j => ?_, fun s m ahead v i j hi => x_setX s m ahead v j hi⟩
  constructor
  · intro h
    obtain rfl : i = j := by rw [← number_phys m i, h, number_phys n j]
    exact ⟨rfl, (phys_eq_phys_iff m n i).mp h⟩
  · rintro ⟨rfl, h⟩
    exact (phys_eq_phys_iff m n i).mpr h

/-- Settles O30: the reset state is a literal but for the memory format. -/
theorem resetStateValues : Obligations.ResetStateValues := by
  intro bigEndian
  obtain ⟨hT, hmode, hI, hF⟩ : psrT 0x000000D3#32 = false ∧ psrMode 0x000000D3#32 = some .supervisor ∧
      psrI 0x000000D3#32 = true ∧ psrF 0x000000D3#32 = true := by decide
  exact ⟨rfl, hT, hmode, hI, hF, resetWith_mem_wf bigEndian, rfl⟩

end Sys2Proof.Machine
end

section
/-! BX, the Thumb high-register operations, MRS and MSR: the next state and the refusals (R132, R137, R151, R155,
R161, R172 to R175). -/

namespace Sys2Proof.Machine

/-! ## BX -/

/-- The targets BX refuses are those off a word boundary with T clear (R132). -/
theorem branchExchange_refuses_iff (v : Word) :
    (v.getLsbD 0 = false ∧ v.getLsbD 1 = true) ↔ v.toNat % 4 = 2 := by
  simp only [getLsbD_eq_div, decide_eq_false_iff_not, decide_eq_true_iff]
  omega

theorem branchExchange_result (s : State) (v : Word) :
    (v.toNat % 4 ≠ 2 → s.branchExchange v =
      .next ((s.withCpsr (psrWithT s.cpsr (v.getLsbD 0))).withPc (v &&& 0xFFFFFFFE#32))) ∧
    (v.toNat % 4 = 2 → s.branchExchange v = .refused .misalignedPc) := by
  have hiff := branchExchange_refuses_iff v
  exact ⟨fun h => branchExchange_next.mpr ⟨mt hiff.mp h, rfl⟩, fun h => if_pos (hiff.mpr h)⟩

/-- Settles O41: both forms are one branch and exchange of the value their operand reads. -/
theorem branchExchangeResult : Obligations.BranchExchangeResult := by
  intro s m v t hm ht
  subst ht
  refine ⟨fun c rm hc hrm hv => ?_, fun c hc => ?_, fun a hv => ?_⟩
  · have hexec : exec (.bx c rm) s = s.branchExchange v := by
      refine (armInstr_of hm hc _).trans ?_
      rw [if_neg hrm, State.x_of_ne s m armAhead hrm, hv]
    rw [hexec]
    exact branchExchange_result s v
  · exact (armInstr_of hm hc _).trans (if_pos rfl)
  · have hexec : exec (.tBx a) s = s.branchExchange v := by
      refine (inMode_of hm _).trans ?_
      rw [← hv]
      rfl
    rw [hexec]
    exact branchExchange_result s v

/-! ## Thumb high registers -/

theorem unlessLowPair_of_high {a d : Reg} (h : 8 ≤ a.val ∨ 8 ≤ d.val) (body : Out) :
    unlessLowPair a d body = body :=
  if_pos (decide_eq_true h)

theorem unlessLowPair_of_low {a d : Reg} (ha : a.val < 8) (hd : d.val < 8) (body : Out) :
    unlessLowPair a d body = .refused .undefinedCombination :=
  if_neg (by simp [highPair]; omega)

/-- Settles O38: the pair of numbers says whether the operation has a meaning, the destination whether it
branches. -/
theorem thumbHighRegisterResult : Obligations.ThumbHighRegisterResult := by
  intro s m a d hm
  have hmov : exec (.tMovHi a d) s = unlessLowPair a d (thumbHighWrite s m d (s.x m thumbAhead a)) :=
    inMode_of hm _
  have hadd : exec (.tAddHi a d) s =
      unlessLowPair a d (thumbHighWrite s m d (s.x m thumbAhead d + s.x m thumbAhead a)) := inMode_of hm _
  have hcmp : exec (.tCmpHi a d) s = unlessLowPair a d
      (if d = 15 then .refused .unpredictable else thumbCompare s (s.x m thumbAhead d) (s.x m thumbAhead a)) :=
    inMode_of hm _
  refine ⟨fun hhigh => ?_, fun ha hd => ?_⟩
  · rw [unlessLowPair_of_high hhigh] at hmov hadd hcmp
    refine ⟨fun hd hadv => ⟨?_, ?_, ?_⟩, ?_⟩
    · exact hmov.trans (thumbHighWrite_next.mpr (.inr ⟨hd, hadv, rfl⟩))
    · exact hadd.trans (thumbHighWrite_next.mpr (.inr ⟨hd, hadv, rfl⟩))
    · exact hcmp.trans ((if_neg hd).trans (thumbCompare_next.mpr ⟨hadv, rfl⟩))
    · rintro rfl
      exact ⟨hmov.trans (thumbHighWrite_next.mpr (.inl ⟨rfl, rfl⟩)),
        hadd.trans (thumbHighWrite_next.mpr (.inl ⟨rfl, rfl⟩)), hcmp.trans (if_pos rfl)⟩
  · rw [unlessLowPair_of_low ha hd] at hmov hadd hcmp
    exact ⟨hmov, hadd, hcmp⟩

/-! ## MRS and MSR -/

theorem advance_setX {s : State} {n : Nat} {rd : Reg} (m : Mode) (v : Word) (hrd : rd ≠ 15) (h : s.canAdvance n) :
    (s.setX m rd v).advance n = .next ((s.setX m rd v).withPc (s.pc + BitVec.ofNat 32 n)) := by
  have hpc : (s.setX m rd v).pc = s.pc := by simp [hrd]
  rw [advance_of (hpc ▸ h), hpc]

/-- Settles O45: the refusals come first, then the PSR named is the result. -/
theorem mrsResult : Obligations.MrsResult := by
  intro s m c rd hm hc
  have hexec : ∀ psr, exec (.mrs c psr rd) s = _ := fun psr => armInstr_of hm hc _
  refine ⟨fun hrd hadv => ⟨?_, fun b hb => ?_⟩, fun hrd hb => ?_, fun hrd psr => ?_⟩
  · exact (hexec .cpsr).trans ((if_neg hrd).trans (advance_setX m _ hrd hadv))
  · rw [hexec, if_neg hrd]
    simp only [hb]
    exact advance_setX m _ hrd hadv
  · rw [hexec, if_neg hrd]
    simp only [hb]
  · rw [hexec, if_pos hrd]

/-- A PSR is its bits: the merge under a mask is the word whose bits are chosen by it (R175). -/
theorem mergeBits_eq {mask old v new : Word}
    (h : ∀ k, k < 32 → new.getLsbD k = if mask.getLsbD k = true then v.getLsbD k else old.getLsbD k) :
    mergeBits mask old v = new :=
  BitVec.eq_of_getLsbD_eq fun k hk => (getLsbD_mergeBits mask old v k).trans (h k hk).symm

/-- The bits an MSR to the CPSR takes from its operand, said of bits inside the word (R175). -/
theorem cpsrMask_selects {m : Mode} {fields : PsrFields} {k : Nat} (hk : k < 32) :
    (cpsrMask m fields).getLsbD k = true ↔
      (fields.f = true ∧ 28 ≤ k) ∨ (fields.c = true ∧ k < 8 ∧ m ≠ .user) := by
  rw [getLsbD_cpsrMask]
  simp [hk]

theorem msrMask_selects {fields : PsrFields} {k : Nat} (hk : k < 32) :
    (msrMask fields).getLsbD k = true ↔ (fields.f = true ∧ 28 ≤ k) ∨ (fields.c = true ∧ k < 8) := by
  rw [getLsbD_msrMask]
  simp [hk]

theorem writePsr_cpsr {s : State} {m : Mode} {fields : PsrFields} {v new : Word}
    (hnew : mergeBits (cpsrMask m fields) s.cpsr v = new) :
    (psrT new = psrT s.cpsr → s.canAdvance 4 →
      writePsr s m .cpsr fields v = .next ((s.withCpsr new).withPc (s.pc + 4#32))) ∧
    (psrT new ≠ psrT s.cpsr → writePsr s m .cpsr fields v = .refused .unpredictable) := by
  subst hnew
  exact ⟨fun hT hadv => writePsr_next.mpr ⟨hadv, .inl ⟨rfl, hT, rfl⟩⟩, fun hT => if_pos hT⟩

theorem writePsr_spsr {s : State} {m : Mode} {b : Bank} {fields : PsrFields} {v new : Word} (hb : m.bank? = some b)
    (hadv : s.canAdvance 4) (hnew : mergeBits (msrMask fields) (s.spsr b) v = new) :
    writePsr s m .spsr fields v = .next ((s.setSpsr b new).withPc (s.pc + 4#32)) := by
  subst hnew
  exact writePsr_next.mpr ⟨hadv, .inr ⟨rfl, b, hb, rfl⟩⟩

theorem writePsr_spsr_refused {s : State} {m : Mode} {fields : PsrFields} {v : Word} (hb : m.bank? = none) :
    writePsr s m .spsr fields v = .refused .noSpsr := by
  simp only [writePsr, hb]

theorem exec_msrReg {s : State} {m : Mode} {c : Cond} {rm : Reg} (psr : PsrName) (fields : PsrFields)
    (hm : s.mode? = some m) (hc : condPasses c s.flags = true) (hrm : rm ≠ 15) :
    exec (.msrReg c psr fields rm) s = writePsr s m psr fields (s.get (phys m rm)) := by
  refine (armInstr_of hm hc _).trans ?_
  rw [if_neg hrm, State.x_of_ne s m armAhead hrm]

/-- The operand of the immediate form is the rotated immediate, whatever the carry (R103). -/
theorem exec_msrImm {s : State} {m : Mode} {c : Cond} (psr : PsrName) (fields : PsrFields) (rot : BitVec 4)
    (imm8 : BitVec 8) (hm : s.mode? = some m) (hc : condPasses c s.flags = true) :
    exec (.msrImm c psr fields rot imm8) s = writePsr s m psr fields (operandImm rot imm8 false).1 :=
  armInstr_of hm hc _

/-- Settles O46: both forms write the merge of the operand under the mask of the mode. -/
theorem msrCpsrResult : Obligations.MsrCpsrResult := by
  intro s m c fields v new hm hc hbits
  have hnew : mergeBits (cpsrMask m fields) s.cpsr v = new :=
    mergeBits_eq fun k hk => (hbits k hk).trans (if_congr (cpsrMask_selects hk).symm rfl rfl)
  refine ⟨fun rm hrm hv => ?_, fun rot imm8 hv => ?_, fun psr => ?_⟩
  · rw [exec_msrReg _ _ hm hc hrm, hv]
    exact writePsr_cpsr hnew
  · rw [exec_msrImm _ _ _ _ hm hc, hv]
    exact writePsr_cpsr hnew
  · exact (armInstr_of hm hc _).trans (if_pos rfl)

/-- Settles O47: as for the CPSR, with the mask of the fields alone. -/
theorem msrSpsrResult : Obligations.MsrSpsrResult := by
  intro s m c fields v hm hc
  constructor
  · intro b new hb hadv hbits
    have hnew : mergeBits (msrMask fields) (s.spsr b) v = new :=
      mergeBits_eq fun k hk => (hbits k hk).trans (if_congr (msrMask_selects hk).symm rfl rfl)
    constructor
    · intro rm hrm hv
      rw [exec_msrReg _ _ hm hc hrm, hv]
      exact writePsr_spsr hb hadv hnew
    · intro rot imm8 hv
      rw [exec_msrImm _ _ _ _ hm hc, hv]
      exact writePsr_spsr hb hadv hnew
  · intro hb
    exact ⟨fun rm hrm => (exec_msrReg _ _ hm hc hrm).trans (writePsr_spsr_refused hb),
      fun rot imm8 => (exec_msrImm _ _ _ _ hm hc).trans (writePsr_spsr_refused hb)⟩

end Sys2Proof.Machine
end

section
/-! One access of memory: what an aligned read answers in either memory format, the reads that answer no value, and a
write that is done followed by a read of the same bytes (R64 to R68, R70, R75, R82). -/

namespace Sys2Proof.Machine

/-! ## Reads -/

/-- The state one access leaves, in the words the statements use. -/
theorem State.accessed_one (s : State) : s.accessed 1 = { s with bus := s.bus.tail, mem := s.memAfter 1 } := by
  rw [State.accessed, List.drop_one]

/-- An aligned access never passes the end of the address space (R61, R70). -/
theorem aligned_access_le_addressEnd {a : Word} {w : Width} (ha : a.toNat % w.bytes = 0) :
    a.toNat + w.bytes ≤ Config.addressEnd := by
  have := a.isLt
  cases w <;> simp only [Width.bytes, Config.addressEnd] at ha ⊢ <;> omega

/-- A byte read that answers. -/
theorem memRead_byte {kind : AccessKind} {a : Word} {s : State} {v : Byte} (hq : s.abortsAt 0 = false)
    (hv : (s.memAfter 1).read a.toNat = some v) : memRead kind a .byte s = .value (v.setWidth 32) (s.accessed 1) := by
  have ha : a.toNat % Width.byte.bytes = 0 := Nat.mod_one _
  have hbytes : (s.memAfter 1).readBytes a.toNat 1 = some [v] := by simp [Memory.readBytes, hv]
  have hword : v.setWidth 32 = BitVec.ofNat 32 (assembleBytes s.bigEndian [v]) := by
    apply BitVec.eq_of_toNat_eq
    cases s.bigEndian <;> simp [assembleBytes]
  exact memRead_value.mpr ⟨ha, aligned_access_le_addressEnd ha, s.busAccess_fst.trans hq, s.busAccess_snd.symm,
    [v], hbytes, hword⟩

/-- Settles O6: each width by its own read. -/
theorem readsFollowByteOrder : Obligations.ReadsFollowByteOrder := by
  intro kind a s hq
  rw [← s.accessed_one]
  exact ⟨fun _ ha hv => memRead_word ha hq hv, fun _ ha hv => memRead_half ha hq hv,
    fun _ hv => memRead_byte hq hv⟩

/-- Bytes are not read together where one of them is absent. -/
theorem Memory.readBytes_eq_none {mem : Memory} {a n k : Nat} (hk : k < n) (h : mem.read (a + k) = none) :
    mem.readBytes a n = none := by
  rw [Option.eq_none_iff_forall_ne_some]
  intro bs hbs
  obtain ⟨hlen, hread⟩ := Memory.readBytes_eq_some.mp hbs
  have hnone : bs[k]? = none := (hread k hk).symm.trans h
  rw [List.getElem?_eq_none_iff] at hnone
  omega

/-- An access that is admitted and not aborted faults where a byte is absent (R75, log entry 7). -/
theorem memRead_absent {kind : AccessKind} {a : Word} {w : Width} {s : State} {k : Nat} (ha : a.toNat % w.bytes = 0)
    (hq : s.abortsAt 0 = false) (hk : k < w.bytes) (hv : (s.memAfter 1).read (a.toNat + k) = none) :
    memRead kind a w s = .fault .absentMemory := by
  have hend : ¬ Config.addressEnd < a.toNat + w.bytes := not_lt.mpr (aligned_access_le_addressEnd ha)
  have hbytes : s.busAccess.2.mem.readBytes a.toNat w.bytes = none := by
    rw [s.busAccess_snd]
    exact Memory.readBytes_eq_none hk hv
  simp [memRead, ha, hend, s.busAccess_fst, hq, hbytes]

/-- Settles O7: the three tests of a read in their order. -/
theorem readsThatAnswerNoValue : Obligations.ReadsThatAnswerNoValue := by
  intro kind a w s
  rw [← s.accessed_one]
  refine ⟨fun ha => ?_, fun ha hq => ?_, fun k ha hq hk hv => memRead_absent ha hq hk hv⟩
  · rw [memRead_of_misaligned ha]
    cases kind <;> rfl
  · exact memRead_abort.mpr ⟨ha, aligned_access_le_addressEnd ha, s.busAccess_fst.trans hq, s.busAccess_snd.symm⟩

/-! ## Writes -/

/-- What a write that is done has done: one access, with the bytes laid out in memory (R68). -/
theorem memWrite_written {a : Word} {w : Width} {v : Word} {s t : State} (h : memWrite a w v s = .written t) :
    a.toNat % w.bytes = 0 ∧ t = { s.accessed 1 with
      mem := (s.memAfter 1).writeBytes a.toNat (layoutBytes s.bigEndian w.bytes v) } := by
  unfold memWrite at h
  split at h
  next => cases h
  next ha =>
    split at h
    next => cases h
    split at h
    next => cases h
    split at h
    next => cases h
    next =>
      cases h
      rw [s.busAccess_snd]
      exact ⟨not_not.mp ha, rfl⟩

@[simp] theorem length_layoutBytes (bigEndian : Bool) (n : Nat) (v : Word) :
    (layoutBytes bigEndian n v).length = n := by
  simp [layoutBytes]

/-- Reading bytes back where they were just written. -/
theorem Memory.readBytes_writeBytes {mem : Memory} {a : Nat} {bs : List Byte} (h : mem.wf)
    (ha : a + bs.length ≤ Config.addressEnd) : (mem.writeBytes a bs).readBytes a bs.length = some bs := by
  refine Memory.readBytes_eq_some.mpr ⟨rfl, fun k hk => ?_⟩
  rw [Memory.read_writeBytes h ha, if_pos ⟨by omega, by omega⟩, Nat.add_sub_cancel_left]

/-- Layout and assembly are inverse in either format: the low bytes of the value come back (R67, R68). -/
theorem assembleBytes_layoutBytes (bigEndian : Bool) (w : Width) (v : Word) :
    assembleBytes bigEndian (layoutBytes bigEndian w.bytes v) = v.toNat % 2 ^ (8 * w.bytes) := by
  cases w <;> cases bigEndian <;>
    simp [assembleBytes, layoutBytes, Width.bytes, List.range_succ, Nat.shiftRight_eq_div_pow] <;> omega

/-- A mask of the low bytes is a remainder. -/
theorem toNat_and_lowBytesMask (v : Word) (w : Width) :
    (v &&& BitVec.ofNat 32 (2 ^ (8 * w.bytes) - 1)).toNat = v.toNat % 2 ^ (8 * w.bytes) := by
  have hmask : (BitVec.ofNat 32 (2 ^ (8 * w.bytes) - 1)).toNat = 2 ^ (8 * w.bytes) - 1 := by cases w <;> rfl
  rw [BitVec.toNat_and, hmask, Nat.and_two_pow_sub_one_eq_mod]

/-- A read with nothing left on the bus changes nothing and finds memory as it stands. -/
theorem memRead_of_quiet_bus {kind : AccessKind} {a : Word} {w : Width} {s : State} {bs : List Byte}
    (hbus : s.bus = []) (ha : a.toNat % w.bytes = 0) (hbs : s.mem.readBytes a.toNat w.bytes = some bs) :
    memRead kind a w s = .value (BitVec.ofNat 32 (assembleBytes s.bigEndian bs)) s := by
  have hquiet : s.busAccess = (false, s) := by simp only [State.busAccess, hbus]
  exact memRead_value.mpr ⟨ha, aligned_access_le_addressEnd ha, by rw [hquiet], by rw [hquiet], bs, hbs, rfl⟩

/-- Settles O8: the write is one access and the layout of the value's low bytes; reading them assembles them. -/
theorem writeThenRead : Obligations.WriteThenRead := by
  intro a w v s t hwf h
  obtain ⟨ha, rfl⟩ := memWrite_written h
  have hmem : (s.memAfter 1).wf := State.memAfter_wf hwf 1
  have hlen := length_layoutBytes s.bigEndian w.bytes v
  have hend : a.toNat + (layoutBytes s.bigEndian w.bytes v).length ≤ Config.addressEnd :=
    hlen.symm ▸ aligned_access_le_addressEnd ha
  refine ⟨Memory.wf_writeBytes hmem hend, rfl, rfl, rfl, rfl, rfl, List.drop_one, rfl, fun k hk => ?other,
    fun kind => ?back⟩
  case other =>
    refine (Memory.read_writeBytes hmem hend k).trans (if_neg ?_)
    rw [hlen]
    omega
  case back =>
    have hread := Memory.readBytes_writeBytes hmem hend
    rw [hlen] at hread
    have hvalue : v &&& BitVec.ofNat 32 (2 ^ (8 * w.bytes) - 1) =
        BitVec.ofNat 32 (assembleBytes s.bigEndian (layoutBytes s.bigEndian w.bytes v)) := by
      apply BitVec.eq_of_toNat_eq
      rw [toNat_and_lowBytesMask, assembleBytes_layoutBytes, BitVec.toNat_ofNat]
      exact (Nat.mod_eq_of_lt ((Nat.mod_le _ _).trans_lt v.isLt)).symm
    rw [hvalue]
    exact memRead_of_quiet_bus rfl ha hread

end Sys2Proof.Machine
end

section
/-! An exception entry field by field, the return to the interrupted instruction, and from both the Prefetch Abort
(R193, R203, R210 to R212). -/

namespace Sys2Proof.Machine

/-! ## Entry -/

/-- The F bit is set on entry to Reset and FIQ alone (R195). -/
theorem setsF_eq (e : ExcKind) : e.setsF = decide (e = .reset ∨ e = .fiq) := by cases e <;> rfl

/-- TakeException makes exactly the entry of R193. -/
theorem enteredBy_takeException (s : State) (e : ExcKind) (link : Word) :
    EnteredBy e link s (s.takeException e link) := by
  obtain ⟨hget, hspsr, hcpsr, -⟩ := takeException_spec s e link
  refine ⟨rfl, ?_, fun p hpc hlr => ?_, ?_, fun b hb => ?_, entryPsr_mode e _, entryPsr_T e _, entryPsr_I e _, ?_,
    fun k hk => ?_⟩
  · rw [hget, if_neg e.bank.lr_ne_pc, if_pos rfl]
  · rw [hget, if_neg hpc, if_neg hlr]
  · rw [hspsr, if_pos rfl]
  · rw [hspsr, if_neg hb]
  · rw [hcpsr, entryPsr_F, setsF_eq, Bool.or_comm]
  · rw [hcpsr, getLsbD_entryPsr_high e _ k hk]

/-! ## Return -/

/-- Clearing bit 0 of a halfword address leaves it. -/
theorem and_halfwordMask_of_even {v : Word} (h : v.toNat % 2 = 0) : v &&& 0xFFFFFFFE#32 = v := by
  apply BitVec.eq_of_toNat_eq
  rw [toNat_and_halfwordMask]
  omega

/-- From the mode an exception entered, an exception return to the interrupted instruction restores its pc and CPSR
(R210). -/
theorem exceptionReturn_resumes {e : ExcKind} {link : Word} {s t : State} (h : EnteredBy e link s t)
    (hpc : s.pcAligned) : ∃ u, t.exceptionReturn e.bank.mode s.pc = .next u ∧ ResumedAt s t u := by
  obtain ⟨-, -, -, hspsr, -⟩ := h
  have htarget : (if psrT s.cpsr then s.pc &&& 0xFFFFFFFE#32 else s.pc) = s.pc := by
    unfold State.pcAligned at hpc
    cases hT : psrT s.cpsr with
    | false => rfl
    | true => rw [hT] at hpc; exact and_halfwordMask_of_even hpc
  have haligned : psrT s.cpsr = false → s.pc.extractLsb 1 0 = 0#2 := fun hT => by
    rw [State.pcAligned, hT] at hpc
    exact (extractLsb_one_zero_eq_zero_iff s.pc).mpr hpc
  refine ⟨(t.withCpsr s.cpsr).withPc s.pc, ?_, rfl, rfl, fun p hp => by simp [hp], rfl, rfl⟩
  refine exceptionReturn_next.mpr ⟨e.bank, Bank.bank_mode _, ?_, ?_⟩
  · rw [hspsr]; exact haligned
  · rw [hspsr, htarget]

/-- `SUBS PC, R14, #4` in the mode entered returns to R14 less 4 (R143, R212). -/
theorem exec_subs_pc_lr_four {b : Bank} {t : State} (hmode : t.mode? = some b.mode) :
    exec (.subImm .al true 14 15 0#4 4#8) t = t.exceptionReturn b.mode (t.get b.lr - 4#32) := by
  have himm : (t.op2Imm 0#4 4#8).1 = 4#32 := by
    show rotatedImm 0#4 4#8 = 4#32
    decide
  refine (armInstr_of hmode rfl _).trans ?_
  rw [State.x_of_ne t _ _ (by decide), phys_bank_lr, himm]
  rfl

/-- Where the link is `pc + 4`, `SUBS PC, R14, #4` goes back to the interrupted instruction (R212). -/
theorem subs_pc_lr_four_resumes {e : ExcKind} {s t : State} (h : EnteredBy e (s.pc + 4#32) s t) (hpc : s.pcAligned) :
    ∃ u, exec (.subImm .al true 14 15 0#4 4#8) t = .next u ∧ ResumedAt s t u := by
  have ⟨_, hlink, _, _, _, hmode, _⟩ := h
  rw [exec_subs_pc_lr_four hmode, hlink, BitVec.add_sub_cancel]
  exact exceptionReturn_resumes h hpc

/-! ## Prefetch Abort -/

/-- A fetch at an aligned pc that the memory system aborts takes Prefetch Abort after the access (R203). -/
theorem fetchDecode_of_abort {s : State} (hpc : s.pcAligned) (hq : s.abortsAt 0 = true) :
    fetchDecode s = .ended (.next ((s.accessed 1).takeException .pabt (s.pc + 4#32))) := by
  have hread : memRead .fetch s.pc (fetchWidth (psrT s.cpsr)) s = .abort (s.accessed 1) :=
    memRead_abort.mpr ⟨hpc, aligned_access_le_addressEnd hpc, s.busAccess_fst.trans hq, s.busAccess_snd.symm⟩
  simp only [fetchDecode, hread]
  rfl

/-- Settles O27: the step ends in the front with the entry, and the return undoes the link. -/
theorem prefetchAbortEntryAndReturn : Obligations.PrefetchAbortEntryAndReturn := by
  intro s m hm hund hpc hq
  have hstep : step s = .next ((s.popPins.accessed 1).takeException .pabt (s.pc + 4#32)) :=
    step_of_fetchDecode_ended hund (hm ▸ rfl) (fetchDecode_of_abort (s := s.popPins) hpc hq)
  have hentered : EnteredBy .pabt (s.pc + 4#32) s ((s.popPins.accessed 1).takeException .pabt (s.pc + 4#32)) :=
    enteredBy_takeException (s.popPins.accessed 1) .pabt (s.pc + 4#32)
  obtain ⟨-, -, -, hmem, hformat, hpins, hbus, hfree⟩ :=
    takeException_spec (s.popPins.accessed 1) .pabt (s.pc + 4#32)
  exact ⟨_, hstep, hentered, hmem, hbus.trans List.drop_one, hpins, hfree, hformat, entryPsr_mode .pabt _, rfl,
    subs_pc_lr_four_resumes hentered hpc⟩

end Sys2Proof.Machine
end

section
/-! Load multiple in the terms of its shape: the listed registers and their words, every load multiple as the one
operation they share, and what that operation answers (R180 to R186, R204). -/

namespace Sys2Proof.Machine

/-! ## Register lists -/

/-- An element that passes a filter stands after those before it that pass. -/
theorem getElem?_filter_countP_take {α : Type} {p : α → Bool} {xs : List α} {n : Nat} {x : α}
    (h : xs[n]? = some x) (hx : p x = true) : (xs.filter p)[(xs.take n).countP p]? = some x := by
  obtain ⟨hn, rfl⟩ := List.getElem?_eq_some_iff.mp h
  have hsplit : xs.filter p = (xs.take n).filter p ++ xs[n] :: (xs.drop (n + 1)).filter p := by
    rw [← List.filter_cons_of_pos hx, ← List.drop_eq_getElem_cons hn, ← List.filter_append, List.take_append_drop]
  rw [hsplit, List.countP_eq_length_filter, List.getElem?_append_right le_rfl, Nat.sub_self, List.getElem?_cons_zero]

theorem allRegs_map_val : allRegs.map Fin.val = List.range 16 := by decide

theorem take_allRegs_map_val (i : Reg) : (allRegs.take i.val).map Fin.val = List.range i.val := by
  revert i; decide

theorem getElem?_allRegs (i : Reg) : allRegs[i.val]? = some i := by revert i; decide

namespace LoadShape

variable {l : LoadShape} {s : State} {m : Mode} {i : Reg}

/-- One word for each listed register (R181). -/
theorem length_regsOf (l : LoadShape) : (regsOf l.list).length = l.count := by
  rw [regsOf, ← List.countP_eq_length_filter, count, ← allRegs_map_val, List.countP_map]
  rfl

/-- A listed register stands at its rank (R180). -/
theorem getElem?_regsOf_rank (h : l.list.getLsbD i.val = true) : (regsOf l.list)[l.rank i]? = some i := by
  have hrank : l.rank i = (allRegs.take i.val).countP fun j => l.list.getLsbD j.val := by
    rw [rank, ← take_allRegs_map_val i, List.countP_map]
    rfl
  rw [hrank]
  exact getElem?_filter_countP_take (p := fun j : Reg => l.list.getLsbD j.val) (getElem?_allRegs i) h

theorem rank_lt_count (h : l.list.getLsbD i.val = true) : l.rank i < l.count := by
  obtain ⟨hlt, -⟩ := List.getElem?_eq_some_iff.mp (getElem?_regsOf_rank h)
  rwa [length_regsOf] at hlt

/-- The first registers read are the listed ones of low rank. -/
theorem mem_take_regsOf {k : Nat} : i ∈ (regsOf l.list).take k ↔ l.list.getLsbD i.val = true ∧ l.rank i < k := by
  rw [List.mem_iff_getElem?]
  constructor
  · rintro ⟨n, hn⟩
    rw [List.getElem?_take] at hn
    split at hn
    case isFalse => cases hn
    case isTrue hnk =>
      have hlist : l.list.getLsbD i.val = true := mem_regsOf.mp (List.mem_of_getElem? hn)
      obtain ⟨hlt, -⟩ := List.getElem?_eq_some_iff.mp hn
      have hrank : n = l.rank i :=
        (List.getElem?_inj hlt (nodup_regsOf l.list)).mp (hn.trans (getElem?_regsOf_rank hlist).symm)
      exact ⟨hlist, hrank ▸ hnk⟩
  · rintro ⟨hlist, hk⟩
    exact ⟨l.rank i, by rw [List.getElem?_take, if_pos hk, getElem?_regsOf_rank hlist]⟩

theorem count_pos (h : l.list ≠ 0) : 0 < l.count := by
  by_contra hcount
  refine h (BitVec.eq_of_getLsbD_eq fun j hj => ?_)
  refine (Bool.eq_false_iff.mpr fun hlist => ?_).trans BitVec.getLsbD_zero.symm
  have := rank_lt_count (i := ⟨j, hj⟩) hlist
  omega

/-! ## Destinations -/

theorem dest_ne_pc (l : LoadShape) (m : Mode) (h : i ≠ 15) : l.dest m i ≠ .pc := by
  unfold dest
  split <;> exact phys_ne_pc _ i h

theorem dest_injective {j : Reg} (h : l.dest m i = l.dest m j) : i = j := by
  unfold dest at h
  split at h <;> exact phys_injective _ i j h

/-! ## The words -/

/-- Word number `j` of those read (R180). -/
def word (l : LoadShape) (s : State) (m : Mode) (j : Nat) : Word :=
  (wordAt (s.memAfter (j + 1)) s.bigEndian ((l.start s m).toNat + 4 * j)).getD 0

/-- The first `k` registers with their words. -/
def wordsRead (l : LoadShape) (s : State) (m : Mode) (k : Nat) : List (Reg × Word) :=
  pairWords (l.word s m) 0 ((regsOf l.list).take k)

theorem wordAt_eq_word {k j : Nat} (h : l.reads s m k) (hj : j < k) :
    wordAt (s.memAfter (j + 1)) s.bigEndian ((l.start s m).toNat + 4 * j) = some (l.word s m j) := by
  obtain ⟨-, hsome⟩ := h j hj
  obtain ⟨v, hv⟩ := Option.isSome_iff_exists.mp hsome
  rw [word, hv, Option.getD_some]

theorem wordFor_eq_word {k : Nat} (h : l.reads s m k) (hi : l.rank i < k) :
    l.wordFor s m i = some (l.word s m (l.rank i)) :=
  wordAt_eq_word h hi

theorem wordsRead_fst (l : LoadShape) (s : State) (m : Mode) (k : Nat) :
    (l.wordsRead s m k).map Prod.fst = (regsOf l.list).take k :=
  pairWords_fst _ _ _

theorem mem_wordsRead_fst {k : Nat} :
    i ∈ (l.wordsRead s m k).map Prod.fst ↔ l.list.getLsbD i.val = true ∧ l.rank i < k := by
  rw [wordsRead_fst, mem_take_regsOf]

theorem nodup_wordsRead_fst (l : LoadShape) (s : State) (m : Mode) (k : Nat) :
    ((l.wordsRead s m k).map Prod.fst).Nodup := by
  rw [wordsRead_fst]
  exact (nodup_regsOf l.list).sublist (List.take_sublist _ _)

end LoadShape

/-- The register at position `n` is paired with word `n`. -/
theorem mem_pairWords {f : Nat → Word} {regs : List Reg} {i : Reg} {n : Nat} (j : Nat) (h : regs[n]? = some i) :
    (i, f (j + n)) ∈ pairWords f j regs := by
  induction regs generalizing j n with
  | nil => simp at h
  | cons r rest ih =>
    cases n with
    | zero =>
      obtain rfl : r = i := by simpa using h
      exact List.mem_cons_self
    | succ n =>
      have := ih (j + 1) (by simpa using h)
      rw [Nat.add_right_comm] at this
      exact List.mem_cons_of_mem _ this

theorem LoadShape.mem_wordsRead {l : LoadShape} {k : Nat} {i : Reg} (s : State) (m : Mode)
    (hi : l.list.getLsbD i.val = true) (hk : l.rank i < k) : (i, l.word s m (l.rank i)) ∈ l.wordsRead s m k := by
  have hat : ((regsOf l.list).take k)[l.rank i]? = some i := by
    rw [List.getElem?_take, if_pos hk, getElem?_regsOf_rank hi]
  have := mem_pairWords (f := l.word s m) 0 hat
  rwa [Nat.zero_add] at this

/-! ## The word for R15 -/

theorem loadedPc_eq_none {vals : List (Reg × Word)} (h : 15 ∉ vals.map Prod.fst) : loadedPc vals = none := by
  induction vals with
  | nil => rfl
  | cons x rest ih =>
    simp only [List.map_cons, List.mem_cons, not_or] at h
    obtain ⟨hne, hrest⟩ := h
    rw [loadedPc, if_neg (Ne.symm hne), ih hrest]

theorem loadedPc_eq_some {vals : List (Reg × Word)} {v : Word} (hn : (vals.map Prod.fst).Nodup)
    (h : (15, v) ∈ vals) : loadedPc vals = some v := by
  induction vals with
  | nil => cases h
  | cons x rest ih =>
    obtain ⟨j, w⟩ := x
    obtain ⟨hj, hn⟩ := List.nodup_cons.mp hn
    rcases List.mem_cons.mp h with heq | hmem
    · cases heq
      rfl
    · have hne : j ≠ 15 := by
        rintro rfl
        exact hj (List.mem_map.mpr ⟨_, hmem, rfl⟩)
      rw [loadedPc, if_neg hne, ih hn hmem]

/-! ## Addresses -/

/-- Differences are taken modulo the width. -/
theorem ofInt_sub (w : Nat) (x y : Int) : BitVec.ofInt w (x - y) = BitVec.ofInt w x - BitVec.ofInt w y := by
  rw [Int.sub_eq_add_neg, BitVec.ofInt_add, BitVec.ofInt_neg, ← BitVec.sub_eq_add_neg]

namespace LoadShape

variable {l : LoadShape} {s : State} {m : Mode}

theorem ldmRange_fst (l : LoadShape) (s : State) (m : Mode) :
    (ldmRange l.mode (l.base s m) l.count).1 = l.start s m := by
  unfold ldmRange start
  cases l.mode <;> rfl

/-- The address written back is the unbounded one modulo 2^32 (log entry 12). -/
theorem ofInt_ldmRange_snd (l : LoadShape) (s : State) (m : Mode) :
    BitVec.ofInt 32 (ldmRange l.mode (l.base s m) l.count).2 = l.final s m := by
  have hlen : BitVec.ofInt 32 (4 * (l.count : Int)) = BitVec.ofNat 32 (4 * l.count) := by
    exact_mod_cast BitVec.ofInt_natCast 32 (4 * l.count)
  have hbase : BitVec.ofInt 32 ((l.base s m).toNat : Int) = l.base s m := by
    rw [BitVec.ofInt_natCast, BitVec.ofNat_toNat, BitVec.setWidth_eq]
  unfold ldmRange final
  cases l.mode with
  | ia | ib => exact (BitVec.ofInt_add _ _).trans (by rw [hbase, hlen])
  | da | db => exact (ofInt_sub _ _ _).trans (by rw [hbase, hlen])

/-- The address of the first read is the number the range speaks of. -/
theorem toNat_ofInt_start (h : l.inRange s m) (hn : 0 < l.count) :
    (BitVec.ofInt 32 (l.start s m)).toNat = (l.start s m).toNat := by
  obtain ⟨-, hlow, hhigh⟩ := h
  simp only [Config.addressEnd] at hhigh
  rw [BitVec.toNat_ofInt, Int.emod_eq_of_lt hlow (by omega)]

/-- The reads start on a word boundary and end inside the address space (R61, R70). -/
theorem reads_fit (h : l.inRange s m) :
    (l.start s m).toNat % 4 = 0 ∧ (l.start s m).toNat + 4 * (regsOf l.list).length ≤ Config.addressEnd := by
  obtain ⟨hbase, hlow, hhigh⟩ := h
  rw [l.length_regsOf]
  refine ⟨?_, by omega⟩
  unfold start at hlow ⊢
  split at hlow <;> omega

end LoadShape

/-! ## What a load multiple answers -/

section Answers

variable {l : LoadShape} {s s1 : State} {m : Mode} {dest : Reg → PhysReg} {thumb : Bool}
  {finish : List (Reg × Word) → State → Out} {vals : List (Reg × Word)} {k : Nat}

/-- A base off a word boundary is refused before any access (R70, R180). -/
theorem loadMultiple_of_misaligned (h : (l.base s m).toNat % 4 ≠ 0) :
    loadMultiple s m l.mode l.wb l.rn (regsOf l.list) dest thumb finish = .refused .misalignedAccess :=
  if_pos (mt (extractLsb_one_zero_eq_zero_iff (l.base s m)).mp h)

/-- Words past an end of the address space are refused before any access (R181). -/
theorem loadMultiple_of_wrap (ha : (l.base s m).toNat % 4 = 0)
    (h : l.start s m < 0 ∨ (Config.addressEnd : Int) < l.start s m + 4 * l.count) :
    loadMultiple s m l.mode l.wb l.rn (regsOf l.list) dest thumb finish = .refused .addressWrap := by
  rw [← l.ldmRange_fst s m, ← l.length_regsOf] at h
  exact (if_neg (not_not.mpr ((extractLsb_one_zero_eq_zero_iff (l.base s m)).mpr ha))).trans (if_pos h)

/-- What the reads of a load multiple in range make of it (R180, R184). -/
def LoadShape.answer (l : LoadShape) (s : State) (m : Mode) (dest : Reg → PhysReg) (thumb : Bool)
    (finish : List (Reg × Word) → State → Out) : LoadResult → Out
  | .loaded vals s1 => finish vals (if l.wb then s1.set (phys m l.rn) (l.final s m) else s1)
  | .aborted vals s1 => .next (ldmAbort s1 dest vals (phys m l.rn) (if l.wb then l.final s m else l.base s m) thumb)
  | .fault r => .fault r
  | .refused r => .refused r

theorem loadMultiple_of_inRange (h : l.inRange s m) :
    loadMultiple s m l.mode l.wb l.rn (regsOf l.list) dest thumb finish =
      l.answer s m dest thumb finish (loadWords (regsOf l.list) (BitVec.ofInt 32 (l.start s m)) s) := by
  obtain ⟨ha, hlow, hhigh⟩ := h
  have halign := not_not.mpr ((extractLsb_one_zero_eq_zero_iff (l.base s m)).mpr ha)
  have hends : ¬ (l.start s m < 0 ∨ (Config.addressEnd : Int) < l.start s m + 4 * l.count) := by omega
  have hfst := l.ldmRange_fst s m
  have hsnd := l.ofInt_ldmRange_snd s m
  rw [LoadShape.base] at halign hfst hsnd
  simp only [loadMultiple, LoadShape.length_regsOf, hfst, hsnd]
  rw [if_neg halign, if_neg hends]
  cases loadWords (regsOf l.list) (BitVec.ofInt 32 (l.start s m)) s <;> rfl

/-- The state all the reads leave, with the write-back done. -/
def LoadShape.afterReads (l : LoadShape) (s : State) (m : Mode) : State :=
  if l.wb then (s.accessed l.count).set (phys m l.rn) (l.final s m) else s.accessed l.count

/-- All reads answer: the operation finishes with the words and the write-back (R180). -/
theorem loadMultiple_of_reads (h : l.inRange s m) (hn : 0 < l.count) (hr : l.reads s m l.count) :
    loadMultiple s m l.mode l.wb l.rn (regsOf l.list) dest thumb finish =
      finish (l.wordsRead s m l.count) (l.afterReads s m) := by
  have haddr := l.toNat_ofInt_start h hn
  have hwords : loadWords (regsOf l.list) (BitVec.ofInt 32 (l.start s m)) s =
      .loaded (l.wordsRead s m l.count) (s.accessed l.count) := by
    obtain ⟨halign, hend⟩ := l.reads_fit h
    rw [loadWords_loaded (f := l.word s m) 0 (haddr ▸ halign) (haddr ▸ hend) ?_, LoadShape.wordsRead,
      l.length_regsOf, List.take_of_length_le l.length_regsOf.le]
    intro j hj
    rw [l.length_regsOf] at hj
    rw [haddr, Nat.zero_add]
    exact ⟨(hr j hj).1, LoadShape.wordAt_eq_word hr hj⟩
  rw [loadMultiple_of_inRange h, hwords]
  rfl

/-- Read number `k` is the first to abort: Data Abort after the words before it (R184, R204). -/
theorem loadMultiple_of_abort (h : l.inRange s m) (hk : k < l.count) (hr : l.reads s m k)
    (hab : s.abortsAt k = true) :
    loadMultiple s m l.mode l.wb l.rn (regsOf l.list) dest thumb finish =
      .next (ldmAbort (s.accessed (k + 1)) dest (l.wordsRead s m k) (phys m l.rn)
        (if l.wb then l.final s m else l.base s m) thumb) := by
  have haddr := l.toNat_ofInt_start h (Nat.zero_lt_of_lt hk)
  have hwords : loadWords (regsOf l.list) (BitVec.ofInt 32 (l.start s m)) s =
      .aborted (l.wordsRead s m k) (s.accessed (k + 1)) := by
    obtain ⟨halign, hend⟩ := l.reads_fit h
    refine loadWords_aborted (f := l.word s m) 0 (haddr ▸ halign) (haddr ▸ hend) (l.length_regsOf ▸ hk)
      (fun j hj => ?_) hab
    rw [haddr, Nat.zero_add]
    exact ⟨(hr j hj).1, LoadShape.wordAt_eq_word hr hj⟩
  rw [loadMultiple_of_inRange h, hwords]
  rfl

end Answers

/-! ## The load multiples -/

section Instructions

variable {i : Instr} {l : LoadShape} {s : State} {m : Mode}

/-- Register numbers below 15 read the 15-bit field of an S form (R182, R183). -/
theorem getLsbD_append_field {x : BitVec 1} {list : BitVec 15} {j : Reg} (hj : j ≠ 15) :
    (x ++ list).getLsbD j.val = list.getLsbD j.val := by
  have hlt : j.val < 15 := by
    have := j.isLt
    have : j.val ≠ 15 := fun h => hj (Fin.ext h)
    omega
  rw [BitVec.getLsbD_append, if_pos hlt]

theorem pc_listed (list : BitVec 15) : (1#1 ++ list).getLsbD 15 = true := by
  rw [BitVec.getLsbD_append, if_neg (by decide)]
  rfl

theorem append_pc_ne_zero (list : BitVec 15) : 1#1 ++ list ≠ 0 := fun h =>
  absurd (pc_listed list) (by rw [h]; decide)

theorem append_no_pc_ne_zero {list : BitVec 15} (h : list ≠ 0) : 0#1 ++ list ≠ 0 := by
  intro h0
  have hnat : 0 * 2 ^ 15 + list.toNat = 0 := (toNat_append_add 0#1 list).symm.trans (congrArg BitVec.toNat h0)
  exact h (BitVec.eq_of_toNat_eq ((Nat.zero_add _).symm.trans hnat))

theorem setWidth_ne_zero {list : BitVec 8} (h : list ≠ 0) : list.setWidth 16 ≠ 0 := by
  intro h0
  have hnat : list.toNat % 2 ^ 16 = 0 := (BitVec.toNat_setWidth 16 list).symm.trans (congrArg BitVec.toNat h0)
  rw [Nat.mod_eq_of_lt (list.isLt.trans (by decide))] at hnat
  exact h (BitVec.eq_of_toNat_eq hnat)

/-- An admitted form is not refused (R180, R185). -/
theorem ldmRefused_eq_false {wb : Bool} {rn : Reg} {list : BitVec 16} (hrn : rn ≠ 15) (hlist : list ≠ 0)
    (hwb : (wb && list.getLsbD rn.val) = false) : ldmRefused wb rn list = false := by
  rw [ldmRefused, hwb, beq_eq_false_iff_ne.mpr hlist, beq_eq_false_iff_ne.mpr hrn]
  rfl

/-- The constraints on LDM (R180, R185). -/
theorem ldm_predictable_iff {c : Cond} {mode : AddrMode} {wb : Bool} {rn : Reg} {list : BitVec 16} :
    (Instr.ldm c mode wb rn list).predictable = true ↔
      rn ≠ 15 ∧ (wb && list.getLsbD rn.val) = false ∧ list ≠ 0 := by
  simp only [Instr.predictable, Bool.and_eq_true, Bool.not_eq_true', decide_eq_true_eq, and_assoc]

/-- The constraints on LDM with S and the PC (R182, R185). -/
theorem ldmPcSpsr_predictable_iff {c : Cond} {mode : AddrMode} {wb : Bool} {rn : Reg} {list : BitVec 15} :
    (Instr.ldmPcSpsr c mode wb rn list).predictable = true ↔ rn ≠ 15 ∧ (wb && list.getLsbD rn.val) = false := by
  simp only [Instr.predictable, Bool.and_eq_true, Bool.not_eq_true', decide_eq_true_eq]

/-- The constraints on LDM of the User bank (R183, R185). -/
theorem ldmUser_predictable_iff {c : Cond} {mode : AddrMode} {wb : Bool} {rn : Reg} {list : BitVec 15} :
    (Instr.ldmUser c mode wb rn list).predictable = true ↔ rn ≠ 15 ∧ wb = false ∧ list ≠ 0 := by
  simp only [Instr.predictable, Bool.and_eq_true, Bool.not_eq_true', decide_eq_true_eq, and_assoc]

/-- The forms the opcode table admits have a base other than R15, a list, and no write-back with the User bank. -/
theorem loadShape_admitted (hl : loadShape i = some l) (hp : i.predictable = true) :
    l.rn ≠ 15 ∧ l.list ≠ 0 ∧ (l.userBank = true → l.wb = false) := by
  cases i <;> cases hl
  case ldm =>
    obtain ⟨hrn, -, hlist⟩ := ldm_predictable_iff.mp hp
    exact ⟨hrn, hlist, nofun⟩
  case ldmPcSpsr list =>
    obtain ⟨hrn, -⟩ := ldmPcSpsr_predictable_iff.mp hp
    exact ⟨hrn, append_pc_ne_zero list, nofun⟩
  case ldmUser =>
    obtain ⟨hrn, hwb, hlist⟩ := ldmUser_predictable_iff.mp hp
    exact ⟨hrn, append_no_pc_ne_zero hlist, fun _ => hwb⟩
  case tLdmia rb list => exact ⟨low_ne_fifteen rb, setWidth_ne_zero (of_decide_eq_true hp), nofun⟩

theorem ldmRefused_ldm {c : Cond} {mode : AddrMode} {wb : Bool} {rn : Reg} {list : BitVec 16}
    (hp : (Instr.ldm c mode wb rn list).predictable = true) : ¬ ldmRefused wb rn list = true := by
  obtain ⟨hrn, hwb, hlist⟩ := ldm_predictable_iff.mp hp
  simp [ldmRefused_eq_false hrn hlist hwb]

/-- Every admitted load multiple that runs is the one operation of its shape (R180, R182, R183, R186). -/
theorem exec_eq_loadMultiple (hl : loadShape i = some l) (hp : i.predictable = true) (hm : s.mode? = some m)
    (hc : ∀ c, i.armCond = some c → condPasses c s.flags = true)
    (hbank : l.userBank = true ∨ isExceptionReturn i = true → m.bank?.isSome = true) :
    ∃ finish, exec i s = loadMultiple s m l.mode l.wb l.rn (regsOf l.list) (l.dest m) i.isThumb finish := by
  cases i <;> cases hl
  case ldm => exact ⟨_, (armInstr_of hm (hc _ rfl) _).trans (if_neg (ldmRefused_ldm hp))⟩
  case ldmPcSpsr c mode wb rn list =>
    have hnone : ¬ m.bank?.isNone = true := by rw [← Option.not_isSome, hbank (.inr rfl)]; decide
    have href : ¬ ldmRefused wb rn (1#1 ++ list) = true := by
      obtain ⟨hrn, hwb⟩ := ldmPcSpsr_predictable_iff.mp hp
      rw [← getLsbD_append_field (x := 1#1) hrn] at hwb
      simp [ldmRefused_eq_false hrn (append_pc_ne_zero list) hwb]
    exact ⟨_, (armInstr_of hm (hc _ rfl) _).trans ((if_neg hnone).trans (if_neg href))⟩
  case ldmUser c mode wb rn list =>
    have hnone : m.bank?.isNone = false := by rw [← Option.not_isSome, hbank (.inl rfl)]; rfl
    obtain ⟨hrn, rfl, hlist⟩ := ldmUser_predictable_iff.mp hp
    have href := ldmRefused_eq_false (wb := false) hrn (append_no_pc_ne_zero hlist) rfl
    exact ⟨_, (armInstr_of hm (hc _ rfl) _).trans (if_neg (by simp [hnone, href]))⟩
  case tLdmia rb list => exact ⟨_, (inMode_of hm _).trans (if_neg (of_decide_eq_true hp))⟩

/-- Settles O52: both refusals are the first tests of the operation. -/
theorem loadMultipleAddressRefusals : Obligations.LoadMultipleAddressRefusals := by
  intro i l s m hl hp hm hc hbank
  obtain ⟨finish, hexec⟩ := exec_eq_loadMultiple hl hp hm hc hbank
  rw [hexec]
  exact ⟨loadMultiple_of_misaligned, loadMultiple_of_wrap⟩

/-! ## Data Abort -/

/-- A register read before the abort holds its old or its loaded value (R184). -/
theorem get_writeSome_wordsRead {choice : Word} {t : State} {k : Nat} {r : Reg} (hr : l.reads s m k)
    (hlist : l.list.getLsbD r.val = true) (hk : l.rank r < k) :
    (writeSome (l.dest m) choice (l.wordsRead s m k) t).get (l.dest m r) = t.get (l.dest m r) ∨
      some ((writeSome (l.dest m) choice (l.wordsRead s m k) t).get (l.dest m r)) = l.wordFor s m r := by
  rw [LoadShape.wordFor_eq_word hr hk, Option.some_inj]
  exact get_writeSome_mem (l.nodup_wordsRead_fst s m k) (l.mem_wordsRead s m hlist hk)
    fun _ _ _ => l.dest_injective

/-- Settles O28: the operation enters Data Abort, and every register is the handler's, the base, one that was read or
one that was not. -/
theorem dataAbortInLoadMultiple : Obligations.DataAbortInLoadMultiple := by
  intro i l s m k hl hp hm hc hbank hrange hk hr hab
  obtain ⟨finish, hexec⟩ := exec_eq_loadMultiple hl hp hm hc hbank
  obtain ⟨hrn, -, -⟩ := loadShape_admitted hl hp
  have hbase : phys m l.rn ≠ .pc := phys_ne_pc m l.rn hrn
  rw [hexec, loadMultiple_of_abort hrange hk hr hab]
  refine ⟨_, rfl, rfl, ?_⟩
  obtain ⟨hget, hspsr, hcpsr, hmem, hformat, hpins, hbus⟩ := ldmAbort_spec (s.accessed (k + 1)) (l.dest m)
    (l.wordsRead s m k) (phys m l.rn) (if l.wb then l.final s m else l.base s m) i.isThumb
  have hother : ∀ p, (∀ r : Reg, l.list.getLsbD r.val = true → r ≠ 15 → l.rank r < k → p ≠ l.dest m r) →
      (writeSome (l.dest m) (Config.freeWord (s.accessed (k + 1)).freeIndex) (l.wordsRead s m k)
        (s.accessed (k + 1))).get p = s.get p := fun p hp =>
    get_writeSome_other fun r hmem h15 => by
      obtain ⟨hlist, hrank⟩ := LoadShape.mem_wordsRead_fst.mp hmem
      exact hp r hlist h15 hrank
  refine ⟨?link, (hspsr .abt).trans (if_pos rfl), fun b hb => ?spsr,
    (congrArg psrMode hcpsr).trans (entryPsr_mode .dabt _), hcpsr ▸ entryPsr_T .dabt _,
    hcpsr ▸ entryPsr_I .dabt _, hcpsr ▸ entryPsr_F .dabt _,
    fun j hj => hcpsr ▸ getLsbD_entryPsr_high .dabt _ j hj, fun hlr => ?base, fun r hlist h15 hrank hnb hlr => ?read,
    fun p hpc hlr hpb hp => ?other, hmem, hbus, hpins, hformat⟩
  case link =>
    have hpc := hother .pc fun r _ h15 _ => (l.dest_ne_pc m h15).symm
    rw [hget, if_neg (by decide), if_pos rfl, State.pc_set, if_neg hbase]
    exact congrArg (· + 8#32) hpc
  case spsr => rw [hspsr, if_neg hb, State.accessed_spsr]
  case base => rw [hget, if_neg hbase, if_neg hlr, if_pos rfl]
  case read =>
    rw [hget, if_neg (l.dest_ne_pc m h15), if_neg hlr, if_neg hnb]
    exact get_writeSome_wordsRead hr hlist hrank
  case other => rw [hget, if_neg hpc, if_neg hlr, if_neg hpb, hother p hp]

/-! ## LDM -/

/-- The state with every listed register but R15 loaded, before the pc moves (R180). -/
def LoadShape.afterLoads (l : LoadShape) (s : State) (m : Mode) : State :=
  writeLoaded (l.dest m) (l.wordsRead s m l.count) (l.afterReads s m)

theorem LoadShape.get_afterReads (l : LoadShape) (s : State) (m : Mode) (p : PhysReg) :
    (l.afterReads s m).get p = if l.wb = true ∧ p = phys m l.rn then l.final s m else s.get p := by
  unfold afterReads
  by_cases hwb : l.wb = true <;> simp [hwb]

/-- The reads and the write-back change general registers, memory and the bus alone. -/
theorem LoadShape.afterReads_eq (l : LoadShape) (s : State) (m : Mode) :
    ∃ r, l.afterReads s m = { s.accessed l.count with regs := r } := by
  unfold afterReads
  split <;> exact ⟨_, rfl⟩

theorem LoadShape.afterLoads_eq (l : LoadShape) (s : State) (m : Mode) :
    ∃ r, l.afterLoads s m = { s.accessed l.count with regs := r } := by
  obtain ⟨r, hr⟩ := l.afterReads_eq s m
  obtain ⟨r', hr'⟩ := writeLoaded_regs (l.dest m) (l.wordsRead s m l.count) (l.afterReads s m)
  exact ⟨r', by rw [afterLoads, hr', hr]⟩

/-- A register no listed number loads is as the write-back left it. -/
theorem LoadShape.get_afterLoads_other {p : PhysReg}
    (h : ∀ r : Reg, l.list.getLsbD r.val = true → r ≠ 15 → p ≠ l.dest m r) :
    (l.afterLoads s m).get p = (l.afterReads s m).get p :=
  get_writeLoaded_other fun r hmem h15 => h r (mem_wordsRead_fst.mp hmem).1 h15

/-- A listed register holds its word. -/
theorem LoadShape.get_afterLoads_listed {r : Reg} (h : l.list.getLsbD r.val = true) (h15 : r ≠ 15) :
    (l.afterLoads s m).get (l.dest m r) = l.word s m (l.rank r) :=
  get_writeLoaded_mem (l.nodup_wordsRead_fst s m l.count) (l.mem_wordsRead s m h (rank_lt_count h)) h15
    fun _ _ _ => l.dest_injective

theorem LoadShape.cpsr_afterLoads (l : LoadShape) (s : State) (m : Mode) : (l.afterLoads s m).cpsr = s.cpsr := by
  obtain ⟨r, heq⟩ := l.afterLoads_eq s m
  rw [heq]
  rfl

theorem LoadShape.pc_afterLoads (hrn : l.rn ≠ 15) : (l.afterLoads s m).pc = s.pc := by
  have hpc : ¬ (l.wb = true ∧ PhysReg.pc = phys m l.rn) := fun h => phys_ne_pc m l.rn hrn h.2.symm
  have hget := get_afterLoads_other (s := s) (p := .pc) fun r _ h15 => (l.dest_ne_pc m h15).symm
  rw [get_afterReads, if_neg hpc] at hget
  exact hget

/-- Where all reads answered, the state after the loads is the one the statements describe, whatever its pc (R180,
R183, R186). -/
theorem LoadShape.loaded_afterLoads (hr : l.reads s m l.count) (hrn : l.rn ≠ 15)
    (huser : l.userBank = true → l.wb = false) (v : Word) : l.loaded s ((l.afterLoads s m).withPc v) m := by
  obtain ⟨r, heq⟩ := l.afterLoads_eq s m
  refine ⟨fun i hlist h15 => ?listed, fun hwb hlist => ?base, fun p hpc hp hb => ?other, ?_, ?_, ?_, ?_, ?_, ?_⟩
  case listed =>
    rw [State.get_withPc, if_neg (l.dest_ne_pc m h15), get_afterLoads_listed hlist h15,
      wordFor_eq_word hr (rank_lt_count hlist)]
  case base =>
    have hmode : ∀ i, l.dest m i = phys m i := by
      have : ¬ l.userBank = true := fun h => by simp [huser h] at hwb
      exact fun i => if_neg this
    have hnot : ∀ i : Reg, l.list.getLsbD i.val = true → i ≠ 15 → phys m l.rn ≠ l.dest m i := by
      intro i hi _ hsame
      rw [hmode] at hsame
      obtain rfl := phys_injective m _ _ hsame
      rw [hlist] at hi
      cases hi
    rw [State.get_withPc, if_neg (phys_ne_pc m l.rn hrn), get_afterLoads_other hnot, get_afterReads,
      if_pos ⟨hwb, rfl⟩]
  case other =>
    rw [State.get_withPc, if_neg hpc, get_afterLoads_other hp, get_afterReads, if_neg fun h => hb h.1 h.2]
  all_goals rw [heq]; rfl

theorem LoadShape.loadedPc_wordsRead_eq_none (h : l.list.getLsbD 15 = false) (k : Nat) :
    loadedPc (l.wordsRead s m k) = none :=
  loadedPc_eq_none fun hmem => Bool.eq_false_iff.mp h (mem_wordsRead_fst.mp hmem).1

theorem LoadShape.loadedPc_wordsRead_eq_some (h : l.list.getLsbD 15 = true) :
    loadedPc (l.wordsRead s m l.count) = some (l.word s m (l.rank 15)) :=
  loadedPc_eq_some (l.nodup_wordsRead_fst s m l.count) (l.mem_wordsRead s m h (rank_lt_count (i := 15) h))

/-- A value written to the PC in ARM state is a branch, or refused off a word boundary (R142). -/
theorem jumpArm_branchesTo (s : State) (v : Word) : BranchesTo (s.jumpArm v) s v :=
  ⟨fun h => jumpArm_next.mpr ⟨(extractLsb_one_zero_eq_zero_iff v).mpr h, rfl⟩,
    fun h => if_pos (mt (extractLsb_one_zero_eq_zero_iff v).mp h)⟩

/-- Settles O48: the operation finishes with the words, and R15's word is the branch. -/
theorem ldmResult : Obligations.LdmResult := by
  intro s m c mode wb rn list l hl hp hm hc hrange hr
  obtain ⟨hrn, hlist, huser⟩ := loadShape_admitted hl hp
  cases hl
  set l : LoadShape := { mode, wb, rn, list, userBank := false }
  have hexec : exec (.ldm c mode wb rn list) s = _ :=
    (armInstr_of hm hc _).trans ((if_neg (ldmRefused_ldm hp)).trans
      (loadMultiple_of_reads (dest := l.dest m) hrange (l.count_pos hlist) hr))
  have hloaded := l.loaded_afterLoads hr hrn huser
  have hcpsr := l.cpsr_afterLoads s m
  refine ⟨fun h15 hadv => ⟨_, ?_, hloaded (s.pc + 4#32), rfl, hcpsr⟩, fun v h15 hv => ?_⟩
  · have hpc : (l.afterLoads s m).pc = s.pc := LoadShape.pc_afterLoads hrn
    rw [hexec]
    simp only [l.loadedPc_wordsRead_eq_none h15]
    exact advance_next.mpr ⟨hpc ▸ hadv, by rw [← hpc]; rfl⟩
  · obtain rfl := Option.some.inj ((LoadShape.wordFor_eq_word hr (LoadShape.rank_lt_count h15)).symm.trans hv)
    have hjump : exec (.ldm c mode wb rn list) s = (l.afterLoads s m).jumpArm (l.word s m (l.rank 15)) := by
      rw [hexec]
      simp only [l.loadedPc_wordsRead_eq_some h15]
      rfl
    obtain ⟨hnext, hrefused⟩ := jumpArm_branchesTo (l.afterLoads s m) (l.word s m (l.rank 15))
    exact ⟨fun ha => ⟨_, hjump.trans (hnext ha), hloaded _, rfl, hcpsr⟩, fun ha => hjump.trans (hrefused ha)⟩

end Instructions

end Sys2Proof.Machine
end

section
/-! No instruction writes memory (R68, R73, R77): what one leaves is memory after the foreign writes of the accesses it
made. -/

namespace Sys2Proof.Machine

/-- Memory and what is left of the bus schedule are the same. -/
def SameMemory (s t : State) : Prop := t.mem = s.mem ∧ t.bus = s.bus

variable {m : Mode} {s u t : State}

theorem SameMemory.refl (s : State) : SameMemory s s := ⟨rfl, rfl⟩

theorem SameMemory.trans (hsu : SameMemory s u) (hut : SameMemory u t) : SameMemory s t :=
  ⟨hut.1.trans hsu.1, hut.2.trans hsu.2⟩

theorem SameMemory.setSpsr (h : SameMemory s u) (b : Bank) (v : Word) : SameMemory s (u.setSpsr b v) :=
  ⟨(u.mem_setSpsr b v).trans h.1, (u.bus_setSpsr b v).trans h.2⟩

/-! ## Shared operations -/

theorem sameMemory_of_advance {n : Nat} (h : u.advance n = .next t) (hu : SameMemory s u) : SameMemory s t := by
  obtain ⟨-, rfl⟩ := advance_next.mp h
  exact hu

theorem sameMemory_of_jumpArm {v : Word} (h : u.jumpArm v = .next t) (hu : SameMemory s u) : SameMemory s t := by
  obtain ⟨-, rfl⟩ := jumpArm_next.mp h
  exact hu

theorem sameMemory_of_branchTo {target : Int} {len : Nat} (h : u.branchTo target len = .next t)
    (hu : SameMemory s u) : SameMemory s t := by
  obtain ⟨-, rfl⟩ := branchTo_next.mp h
  exact hu

theorem sameMemory_of_branchExchange {v : Word} (h : s.branchExchange v = .next t) : SameMemory s t := by
  obtain ⟨-, rfl⟩ := branchExchange_next.mp h
  exact .refl s

theorem sameMemory_of_exceptionReturn {v : Word} (h : u.exceptionReturn m v = .next t) (hu : SameMemory s u) :
    SameMemory s t := by
  obtain ⟨b, -, -, rfl⟩ := exceptionReturn_next.mp h
  exact hu

theorem sameMemory_raise (s : State) (e : ExcKind) (thumb : Bool) : SameMemory s (s.raise e thumb) := by
  obtain ⟨-, -, -, hmem, -, -, hbus, -⟩ := takeException_spec s e (s.pc + e.linkOffset thumb)
  exact ⟨hmem, hbus⟩

theorem sameMemory_of_raise {e : ExcKind} {thumb : Bool}
    (h : Host.Outcome.next (s.raise e thumb) = (.next t : Out)) : SameMemory s t := by
  cases h
  exact sameMemory_raise s e thumb

theorem sameMemory_of_writeResult {S : Bool} {rd : Reg} {v : Word} {f : Flags}
    (h : writeResult s m S rd v f = .next t) : SameMemory s t := by
  unfold writeResult at h
  split at h
  next =>
    split at h
    next => exact sameMemory_of_exceptionReturn h (.refl s)
    next => exact sameMemory_of_jumpArm h (.refl s)
  next =>
    split at h
    next => exact sameMemory_of_advance h (.refl s)
    next => exact sameMemory_of_advance h (.refl s)

theorem sameMemory_of_writePsr {p : PsrName} {fields : PsrFields} {v : Word}
    (h : writePsr s m p fields v = .next t) : SameMemory s t := by
  obtain ⟨-, ⟨-, -, rfl⟩ | ⟨-, b, -, rfl⟩⟩ := writePsr_next.mp h
  · exact .refl s
  · exact (SameMemory.refl s).setSpsr b _

theorem sameMemory_of_thumbHighWrite {d : Reg} {v : Word} (h : thumbHighWrite s m d v = .next t) :
    SameMemory s t := by
  obtain ⟨-, rfl⟩ | ⟨-, -, rfl⟩ := thumbHighWrite_next.mp h <;> exact .refl s

theorem sameMemory_of_inMode {body : Mode → Out} (h : inMode s body = .next t)
    (hbody : ∀ m, body m = .next t → SameMemory s t) : SameMemory s t := by
  obtain ⟨m, -, h⟩ := inMode_next.mp h
  exact hbody m h

theorem sameMemory_of_armInstr {c : Cond} {body : Mode → Out} (h : armInstr c s body = .next t)
    (hbody : ∀ m, body m = .next t → SameMemory s t) : SameMemory s t := by
  obtain ⟨m, -, ⟨-, h⟩ | ⟨-, -, rfl⟩⟩ := armInstr_next.mp h
  · exact hbody m h
  · exact .refl s

/-! ## Instructions without an access -/

theorem execMrs_sameMemory {c : Cond} {p : PsrName} {rd : Reg} (h : execMrs c p rd s = .next t) : SameMemory s t := by
  refine sameMemory_of_armInstr h fun m h => ?_
  split at h
  next => cases h
  next =>
    split at h
    case h_1 => exact sameMemory_of_advance h (.refl s)
    case h_2 =>
      split at h
      case h_1 => cases h
      case h_2 => exact sameMemory_of_advance h (.refl s)

/-- An instruction other than a load multiple leaves memory as it was. -/
theorem exec_sameMemory {i : Instr} (hl : loadShape i = none) (h : exec i s = .next t) : SameMemory s t := by
  cases i with
  | ldm | ldmPcSpsr | ldmUser | tLdmia => cases hl
  | bx =>
    refine sameMemory_of_armInstr h fun m h => ?_
    split at h
    next => cases h
    next => exact sameMemory_of_branchExchange h
  | tBx => exact sameMemory_of_inMode h fun m h => sameMemory_of_branchExchange h
  | mrs => exact execMrs_sameMemory h
  | msrReg =>
    refine sameMemory_of_armInstr h fun m h => ?_
    split at h
    next => cases h
    next => exact sameMemory_of_writePsr h
  | msrImm => exact sameMemory_of_armInstr h fun m h => sameMemory_of_writePsr h
  | movImm | movReg | addImm | addReg | subImm | subReg =>
    exact sameMemory_of_armInstr h fun m h => sameMemory_of_writeResult h
  | movRsr | addRsr | subRsr =>
    exact sameMemory_of_armInstr h fun m h => sameMemory_of_writeResult (unlessPcAmount_next.mp h).2
  | cmpImm | cmpReg => exact sameMemory_of_armInstr h fun m h => sameMemory_of_advance h (.refl s)
  | cmpRsr =>
    exact sameMemory_of_armInstr h fun m h => sameMemory_of_advance (unlessPcAmount_next.mp h).2 (.refl s)
  | undefined | swi => exact sameMemory_of_armInstr h fun m h => sameMemory_of_raise h
  | tUndefined | tSwi => exact sameMemory_of_inMode h fun m h => sameMemory_of_raise h
  | b | bl => exact sameMemory_of_armInstr h fun m h => sameMemory_of_branchTo h (.refl s)
  | tB => exact sameMemory_of_inMode h fun m h => sameMemory_of_branchTo h (.refl s)
  | tBcond =>
    refine sameMemory_of_inMode h fun m h => ?_
    split at h
    next => exact sameMemory_of_branchTo h (.refl s)
    next => exact sameMemory_of_advance h (.refl s)
  | tBlLo =>
    refine sameMemory_of_inMode h fun m h => ?_
    split at h
    next => cases h
    next => exact sameMemory_of_branchTo h (.refl s)
  | tAddReg | tAddImm3 | tAddImm8 | tMovImm8 | tCmpImm8 | tCmpReg | tAddPc | tAddSp | tAddSpImm7 | tBlHi =>
    exact sameMemory_of_inMode h fun m h => sameMemory_of_advance h (.refl s)
  | tAddHi | tMovHi =>
    exact sameMemory_of_inMode h fun m h => sameMemory_of_thumbHighWrite (unlessLowPair_next.mp h).2
  | tCmpHi =>
    refine sameMemory_of_inMode h fun m h => ?_
    have h := (unlessLowPair_next.mp h).2
    split at h
    next => cases h
    next => exact sameMemory_of_advance h (.refl s)

/-! ## Load multiples -/

/-- What a load multiple of `n` registers leaves of memory and the bus: some of its accesses, `n` at most. -/
def MemoryWithin (n : Nat) (s t : State) : Prop := ∃ k ≤ n, SameMemory (s.accessed k) t

theorem SameMemory.within (h : SameMemory s t) (n : Nat) : MemoryWithin n s t := ⟨0, n.zero_le, h⟩

theorem sameMemory_writeLoaded (dest : Reg → PhysReg) (vals : List (Reg × Word)) (s : State) :
    SameMemory s (writeLoaded dest vals s) := by
  obtain ⟨r, hr⟩ := writeLoaded_regs dest vals s
  exact ⟨by rw [hr], by rw [hr]⟩

theorem memoryWithin_of_loadMultiple {mode : AddrMode} {wb thumb : Bool} {rn : Reg} {regs : List Reg}
    {dest : Reg → PhysReg} {finish : List (Reg × Word) → State → Out}
    (h : loadMultiple s m mode wb rn regs dest thumb finish = .next t)
    (hfinish : ∀ vals u, finish vals u = .next t → SameMemory (writeLoaded dest vals u) t) :
    MemoryWithin regs.length s t := by
  rcases loadMultiple_next h with ⟨vals, -, hfin⟩ | ⟨k, vals, hk, -, rfl⟩
  · refine ⟨regs.length, le_rfl, .trans (.trans ?_ (sameMemory_writeLoaded dest vals _)) (hfinish vals _ hfin)⟩
    split
    next => exact .refl _
    next => exact .refl _
  · obtain ⟨-, -, -, hmem, -, -, hbus⟩ := ldmAbort_spec (s.accessed (k + 1)) dest vals (phys m rn)
      (if wb then BitVec.ofInt 32 (ldmRange mode (s.get (phys m rn)) regs.length).2 else s.get (phys m rn)) thumb
    exact ⟨k + 1, hk, hmem, hbus⟩

theorem memoryWithin_of_armInstr {n : Nat} {c : Cond} {body : Mode → Out} (h : armInstr c s body = .next t)
    (hbody : ∀ m, body m = .next t → MemoryWithin n s t) : MemoryWithin n s t := by
  obtain ⟨m, -, ⟨-, h⟩ | ⟨-, -, rfl⟩⟩ := armInstr_next.mp h
  · exact hbody m h
  · exact SameMemory.within (.refl s) n

/-- A load multiple makes one access for each listed register at most (R180, R184). -/
theorem exec_memoryWithin {i : Instr} {l : LoadShape} (hl : loadShape i = some l) (h : exec i s = .next t) :
    MemoryWithin l.count s t := by
  rw [← l.length_regsOf]
  cases i <;> cases hl
  case ldm =>
    refine memoryWithin_of_armInstr h fun m h => ?_
    split at h
    next => cases h
    next =>
      refine memoryWithin_of_loadMultiple h fun vals u hfin => ?_
      split at hfin
      case h_1 => exact sameMemory_of_advance hfin (.refl _)
      case h_2 => exact sameMemory_of_jumpArm hfin (.refl _)
  case ldmPcSpsr =>
    refine memoryWithin_of_armInstr h fun m h => ?_
    split at h
    next => cases h
    split at h
    next => cases h
    next =>
      refine memoryWithin_of_loadMultiple h fun vals u hfin => ?_
      split at hfin
      case h_1 => cases hfin
      case h_2 => exact sameMemory_of_exceptionReturn hfin (.refl _)
  case ldmUser =>
    refine memoryWithin_of_armInstr h fun m h => ?_
    split at h
    next => cases h
    next => exact memoryWithin_of_loadMultiple h fun vals u hfin => sameMemory_of_advance hfin (.refl _)
  case tLdmia =>
    obtain ⟨m, -, h⟩ := inMode_next.mp h
    split at h
    next => cases h
    next => exact memoryWithin_of_loadMultiple h fun vals u hfin => sameMemory_of_advance hfin (.refl _)

/-- Settles O57: the accesses are those of a load multiple, or none. -/
theorem memoryFrame : Obligations.MemoryFrame := by
  intro i s t h
  have hread {k : Nat} (hmem : t.mem = s.memAfter k) : s.mem.wf → ∀ a,
      (∀ e ∈ s.bus.take k, ∀ w ∈ e.writes, w.1.toNat ≠ a) → t.mem.read a = s.mem.read a := fun hwf a ha =>
    hmem ▸ State.read_memAfter hwf k a ha
  cases hl : loadShape i with
  | none =>
    obtain ⟨hmem, hbus⟩ := exec_sameMemory hl h
    exact ⟨0, hmem, hbus, fun _ => rfl, nofun, hread hmem⟩
  | some l =>
    obtain ⟨k, hk, hmem, hbus⟩ := exec_memoryWithin hl h
    exact ⟨k, hmem, hbus, nofun, fun _ hl' => Option.some.inj hl' ▸ hk, hread hmem⟩

end Sys2Proof.Machine
end

section
/-! The decoder is the encoder read backwards (R94, R106, R123). Both are said of a word's number: a field is a
quotient's remainder, and a word is a concatenation exactly when its fields are the pieces. So each row's fields and
fixed fields are together the whole word, which is one direction; and an encoding's own digits contradict the fixed
fields of every row above its own, which is the other. -/

namespace Sys2Proof

/-! ## Fields as numbers -/

theorem toNat_extractLsb {w : Nat} (x : BitVec w) (hi lo : Nat) :
    (x.extractLsb hi lo).toNat = x.toNat / 2 ^ lo % 2 ^ (hi - lo + 1) := toNat_extract x lo _

theorem toNat_ofBool_getLsbD {w : Nat} (x : BitVec w) (k : Nat) :
    (BitVec.ofBool (x.getLsbD k)).toNat = x.toNat / 2 ^ k % 2 := by
  rw [toNat_ofBool_eq, BitVec.getLsbD, Nat.toNat_testBit]

theorem getLsbD_eq_iff {w : Nat} (x : BitVec w) (k : Nat) (b : Bool) :
    x.getLsbD k = b ↔ x.toNat / 2 ^ k % 2 = (BitVec.ofBool b).toNat := by
  rw [← toNat_ofBool_getLsbD, BitVec.toNat_inj]
  cases x.getLsbD k <;> cases b <;> decide

theorem toNat_ofBool_true : (BitVec.ofBool true).toNat = 1 := rfl

theorem toNat_ofBool_false : (BitVec.ofBool false).toNat = 0 := rfl

theorem regAt_eq_iff (w : Word) (lo : Nat) (r : Reg) :
    regAt w lo = r ↔ w.toNat / 2 ^ lo % 16 = (regBits r).toNat := by
  rw [← val_regAt, toNat_regBits, Fin.ext_iff]

theorem lowAt_eq_iff (h : Half) (lo : Nat) (r : LowReg) :
    lowAt h lo = r ↔ h.toNat / 2 ^ lo % 8 = (lowBits r).toNat := by
  rw [← val_lowAt, toNat_lowBits, Fin.ext_iff]

theorem hiSource_eq_iff (h : Half) (r : Reg) : hiSource h = r ↔ h.toNat / 8 % 16 = (regBits r).toNat := by
  rw [← val_hiSource, toNat_regBits, Fin.ext_iff]

theorem hiDest_eq_iff (h : Half) (r : Reg) :
    hiDest h = r ↔ h.toNat / 128 % 2 * 8 + h.toNat % 8 = (regBits r).toNat := by
  rw [← val_hiDest, toNat_regBits, Fin.ext_iff]

theorem ShiftType.ofBits_eq_iff (v : BitVec 2) (t : ShiftType) : ShiftType.ofBits v = t ↔ v = t.bits :=
  ⟨fun h => h ▸ (ShiftType.bits_ofBits v).symm, fun h => h ▸ t.ofBits_bits⟩

theorem AddrMode.ofBits_eq_iff (v : BitVec 2) (m : AddrMode) : AddrMode.ofBits v = m ↔ v = m.bits :=
  ⟨fun h => h ▸ (AddrMode.bits_ofBits v).symm, fun h => h ▸ m.ofBits_bits⟩

theorem PsrName.ofBit_eq_iff (b : Bool) (p : PsrName) : PsrName.ofBit b = p ↔ b = p.bit :=
  ⟨fun h => h ▸ (PsrName.bit_ofBit b).symm, fun h => h ▸ p.ofBit_bit⟩

theorem PsrFields.ofBits_eq_iff (v : BitVec 4) (p : PsrFields) : PsrFields.ofBits v = p ↔ v = p.bits :=
  ⟨fun h => h ▸ (PsrFields.bits_ofBits v).symm, fun h => h ▸ p.ofBits_bits⟩

/-- A word is a concatenation exactly when the pieces are its fields. -/
theorem toNat_append_eq_iff {m n : Nat} (x : BitVec m) (y : BitVec n) (k : Nat) :
    (x ++ y).toNat = k ↔ x.toNat = k / 2 ^ n ∧ y.toNat = k % 2 ^ n := by
  have hy := y.isLt
  rw [toNat_append_add]
  constructor
  · rintro rfl
    rw [Nat.add_comm, Nat.add_mul_div_right _ _ (by positivity), Nat.add_mul_mod_self_right, Nat.mod_eq_of_lt hy,
      Nat.div_eq_of_lt hy, Nat.zero_add]
    exact ⟨rfl, rfl⟩
  · rintro ⟨hx, hy⟩
    rw [hx, hy, Nat.div_add_mod']

theorem condField_eq_iff {w : Word} {c : Cond} :
    w.extractLsb 31 28 = c.bits ↔ w.toNat / 268435456 = c.bits.toNat := by
  have hlt := w.isLt
  rw [extractLsb_eq_iff]
  omega

theorem Cond.isThumbBranchCond_iff (c : Cond) : c.isThumbBranchCond = true ↔ c.bits.toNat < 14 := by
  cases c <;> decide

/-! ## Tables tried in order -/

/-- A table of rows answers what one of its rows answers for a word with that row's fixed fields, and without those
of the rows above. -/
theorem forall_matching_row {P : Instr → Prop} {c : Prop} [Decidable c] {row : Instr}
    {rest : Except DecodeError Instr} (hrest : ¬ c → ∀ i, rest = .ok i → P i) (hrow : c → P row) :
    ∀ i, (if c then .ok row else rest) = .ok i → P i := by
  intro i h
  split at h
  next hc => cases h; exact hrow hc
  next hc => exact hrest hc i h

theorem skip_row {c : Prop} [Decidable c] {row rest o : Except DecodeError Instr} (hc : ¬ c) (hrest : rest = o) :
    (if c then row else rest) = o := by
  rw [if_neg hc, hrest]

theorem take_row {c : Prop} [Decidable c] {row i : Instr} {rest : Except DecodeError Instr} (hc : c)
    (hrow : row = i) : (if c then .ok row else rest) = .ok i := by
  rw [if_pos hc, hrow]

theorem row_ne_error {c : Prop} [Decidable c] {row : Instr} {rest : Except DecodeError Instr} {e : DecodeError}
    (h : rest ≠ .error e) : (if c then .ok row else rest) ≠ .error e := by
  split
  · nofun
  · exact h

/-! ## ARM -/

/-- Each of the 23 rows' fields and fixed fields are together the whole word (R94). -/
theorem encode_of_decodeArmRow {c : Cond} {w : Word} (hc : w.extractLsb 31 28 = c.bits) :
    ∀ i, decodeArmRow c w = .ok i → encode i = .arm w := by
  have hcond : w.toNat / 268435456 = c.bits.toNat := condField_eq_iff.mp hc
  unfold decodeArmRow
  iterate 23
    refine forall_matching_row ?_ ?_
    intro _
  · intro i h
    cases h
  all_goals
    intro h
    simp only [encode, Code.arm.injEq, ← BitVec.toNat_inj, toNat_append_eq_iff, toNat_extractLsb, getLsbD_eq_iff,
      toNat_ofBool_getLsbD, toNat_ofBool_true, toNat_ofBool_false, toNat_regBits, val_regAt, ShiftType.bits_ofBits,
      AddrMode.bits_ofBits, PsrName.bit_ofBit, PsrFields.bits_ofBits, BitVec.toNat_ofNat,
      Nat.div_div_eq_div_mul] at h ⊢
    simp only [Nat.reducePow, Nat.reduceMod, Nat.reduceSub, Nat.reduceAdd, Nat.reduceMul, Nat.div_one] at h ⊢
    simp only [h, hcond, and_self]

/-- The encoding of an instruction skips the rows above the instruction's own, and is read back by that (R94). -/
theorem decodeArmRow_of_encode {c : Cond} {w : Word} {i : Instr} (hi : i.armCond = some c)
    (hw : encode i = .arm w) : decodeArmRow c w = .ok i := by
  unfold decodeArmRow
  simp only [extractLsb_eq_iff, getLsbD_eq_iff, toNat_ofBool_true, toNat_ofBool_false, BitVec.toNat_ofNat]
  simp only [Nat.reducePow, Nat.reduceMod, Nat.reduceSub, Nat.reduceAdd, Nat.div_one]
  cases i
  all_goals cases hi
  all_goals
    simp only [encode, Code.arm.injEq, ← BitVec.toNat_inj, toNat_append_eq_iff, BitVec.toNat_ofNat,
      Nat.div_div_eq_div_mul] at hw
    simp only [Nat.reducePow, Nat.reduceMod, Nat.reduceMul] at hw
    repeat refine skip_row (by omega) ?_
    refine take_row (by simp only [← hw, and_self]) ?_
    congr 1
    all_goals
      simp only [extractLsb_eq_iff, getLsbD_eq_iff, regAt_eq_iff, ShiftType.ofBits_eq_iff, AddrMode.ofBits_eq_iff,
        PsrName.ofBit_eq_iff, PsrFields.ofBits_eq_iff]
      simp only [Nat.reducePow, Nat.reduceSub, Nat.reduceAdd, Nat.div_one, ← hw]

/-- An ARM encoding begins with the instruction's condition (R92). -/
theorem condField_of_encode {i : Instr} {w : Word} (hw : encode i = .arm w) :
    ∃ c, i.armCond = some c ∧ w.extractLsb 31 28 = c.bits := by
  simp only [condField_eq_iff]
  cases i
  all_goals
    simp only [encode, reduceCtorEq, Code.arm.injEq, ← BitVec.toNat_inj, toNat_append_eq_iff,
      Nat.div_div_eq_div_mul] at hw
  all_goals
    refine ⟨_, rfl, ?_⟩
    simp only [hw, Nat.reducePow, Nat.reduceMul]

theorem decodeArm_eq_ok_iff {w : Word} {i : Instr} : decodeArm w = .ok i ↔ encode i = .arm w := by
  constructor
  · intro h
    unfold decodeArm at h
    split at h
    case h_1 => cases h
    case h_2 c hc => exact encode_of_decodeArmRow (Cond.bits_of_ofBits hc).symm i h
  · intro h
    obtain ⟨c, hi, hc⟩ := condField_of_encode h
    rw [decodeArm, hc, Cond.ofBits_bits]
    exact decodeArmRow_of_encode hi h

/-! ## Thumb -/

/-- The row of the conditional branch: its condition is not 1110, which is the undefined instruction (R114). -/
theorem encode_tBcond_of_row {h : Half} {c : Cond} (hund : h.extractLsb 15 8 ≠ 0b11011110#8)
    (hrow : h.extractLsb 15 12 = 0b1101#4) (hc : Cond.ofBits (h.extractLsb 11 8) = some c) :
    (Instr.tBcond c (h.extractLsb 7 0)).wellFormed = true ∧ encode (.tBcond c (h.extractLsb 7 0)) = .thumb h := by
  replace hc := congrArg BitVec.toNat (Cond.bits_of_ofBits hc)
  have hlt := c.bits_lt
  simp only [ne_eq, extractLsb_eq_iff, toNat_extractLsb, BitVec.toNat_ofNat] at hund hrow hc
  refine ⟨(Cond.isThumbBranchCond_iff c).mpr (by omega), ?_⟩
  simp only [encode, Code.thumb.injEq, ← BitVec.toNat_inj, toNat_append_eq_iff, toNat_extractLsb,
    BitVec.toNat_ofNat, Nat.div_div_eq_div_mul]
  omega

/-- Each of the 20 rows' fields and fixed fields are together the whole halfword (R106). -/
theorem encode_of_decodeThumb {h : Half} :
    ∀ i, decodeThumb h = .ok i → i.wellFormed = true ∧ encode i = .thumb h := by
  unfold decodeThumb
  iterate 14
    refine forall_matching_row ?_ ?_
    intro _
  refine forall_matching_row ?_ ?_
  intro hund
  refine forall_matching_row ?_ ?_
  intro _ i hi
  split at hi
  case isTrue hrow =>
    split at hi
    case h_1 => cases hi
    case h_2 c hc =>
      cases hi
      exact encode_tBcond_of_row hund hrow hc
  revert i
  iterate 3
    refine forall_matching_row ?_ ?_
    intro _
  · intro i hi
    cases hi
  all_goals
    intro hrow
    refine ⟨rfl, ?_⟩
    simp only [encode, Code.thumb.injEq, ← BitVec.toNat_inj, toNat_append_eq_iff, toNat_extractLsb,
      toNat_ofBool_getLsbD, toNat_regBits, toNat_lowBits, val_lowAt, val_hiSource, val_hiDest, BitVec.toNat_ofNat,
      Nat.div_div_eq_div_mul] at hrow ⊢
    omega

/-- The encoding of an instruction skips the rows above the instruction's own, and is read back by that (R106). -/
theorem decodeThumb_of_encode {h : Half} {i : Instr} (hwf : i.wellFormed = true) (hi : encode i = .thumb h) :
    decodeThumb h = .ok i := by
  unfold decodeThumb
  simp only [extractLsb_eq_iff, BitVec.toNat_ofNat]
  cases i
  all_goals
    simp only [encode, reduceCtorEq, Code.thumb.injEq, ← BitVec.toNat_inj, toNat_append_eq_iff, toNat_extractLsb,
      BitVec.toNat_ofNat, Nat.div_div_eq_div_mul] at hi
  case tBcond c off =>
    have hc := (Cond.isThumbBranchCond_iff c).mp hwf
    have hoff : h.extractLsb 7 0 = off := (extractLsb_eq_iff ..).mpr (by omega)
    iterate 16 refine skip_row (by omega) ?_
    rw [if_pos (by omega), Cond.ofBits_of_toNat (c := c) (by rw [toNat_extractLsb]; omega)]
    simp only [hoff]
  all_goals
    repeat refine skip_row (by omega) ?_
    refine take_row (by omega) ?_
    congr 1
    all_goals
      simp only [extractLsb_eq_iff, getLsbD_eq_iff, lowAt_eq_iff, hiSource_eq_iff, hiDest_eq_iff]
      omega

theorem decodeThumb_eq_ok_iff {h : Half} {i : Instr} :
    decodeThumb h = .ok i ↔ i.wellFormed = true ∧ encode i = .thumb h :=
  ⟨encode_of_decodeThumb i, fun ⟨hwf, hi⟩ => decodeThumb_of_encode hwf hi⟩

/-! ## The obligations on the encoding -/

/-- Only a Thumb conditional branch can have fields that do not fit (R114). -/
theorem wellFormed_of_encode_arm {i : Instr} {w : Word} (h : encode i = .arm w) : i.wellFormed = true := by
  cases i
  case tBcond => cases h
  all_goals rfl

theorem decode_eq_ok_iff {c : Code} {i : Instr} : decode c = .ok i ↔ i.wellFormed = true ∧ encode i = c := by
  cases c with
  | arm w => exact decodeArm_eq_ok_iff.trans ⟨fun h => ⟨wellFormed_of_encode_arm h, h⟩, And.right⟩
  | thumb h => exact decodeThumb_eq_ok_iff

theorem isThumb_iff_encode (i : Instr) : i.isThumb = true ↔ ∃ h, encode i = .thumb h := by
  cases i <;> simp [Instr.isThumb, encode]

/-- Settles O1: the decoder is the encoder read backwards. -/
theorem decodeEncodeAgree : Obligations.DecodeEncodeAgree :=
  fun _ hwf => decode_eq_ok_iff.mpr ⟨hwf, rfl⟩

/-- Settles O2: the same, from the word to the instruction. -/
theorem encodeDecodeAgree : Obligations.EncodeDecodeAgree := by
  intro c i h
  obtain ⟨hwf, rfl⟩ := decode_eq_ok_iff.mp h
  exact ⟨hwf, rfl, isThumb_iff_encode i⟩

/-- What no row matches is refused as unspecified, not for its condition (R105). -/
theorem decodeArmRow_ne_cond1111 (c : Cond) (w : Word) : decodeArmRow c w ≠ .error .cond1111 := by
  unfold decodeArmRow
  iterate 23 refine row_ne_error ?_
  nofun

/-- Settles O5: the field is matched first, no row refuses a condition, and an encoding begins with its own. -/
theorem condFieldDecidesFirst : Obligations.CondFieldDecidesFirst := by
  constructor
  · intro w
    rw [← Cond.ofBits_eq_none, decode, decodeArm]
    cases Cond.ofBits (w.extractLsb 31 28) with
    | none => simp
    | some c => simpa using decodeArmRow_ne_cond1111 c w
  · intro w i c h hi
    obtain ⟨c', hi', hc'⟩ := condField_of_encode (decodeArm_eq_ok_iff.mp h)
    obtain rfl := Option.some.inj (hi'.symm.trans hi)
    exact hc'.symm

/-- The words of the undefined instruction (R104). -/
theorem encode_undefined_eq_iff {c : Cond} {hi : BitVec 20} {lo : BitVec 4} {w : Word} :
    encode (.undefined c hi lo) = .arm w ↔
      (w.extractLsb 31 28 = c.bits ∧ w.extractLsb 27 25 = 0b011#3 ∧ w.getLsbD 4 = true) ∧
        hi = w.extractLsb 24 5 ∧ lo = w.extractLsb 3 0 := by
  simp only [encode, Code.arm.injEq, ← BitVec.toNat_inj, toNat_append_eq_iff, toNat_extractLsb, getLsbD_eq_iff,
    toNat_ofBool_true, BitVec.toNat_ofNat, Nat.div_div_eq_div_mul]
  omega

/-- The halfwords of the Thumb undefined instruction (R119). -/
theorem encode_tUndefined_eq_iff {imm8 : BitVec 8} {h : Half} :
    encode (.tUndefined imm8) = .thumb h ↔ h.extractLsb 15 8 = 0xDE#8 ∧ imm8 = h.extractLsb 7 0 := by
  simp only [encode, Code.thumb.injEq, ← BitVec.toNat_inj, toNat_append_eq_iff, toNat_extractLsb,
    BitVec.toNat_ofNat]
  omega

/-- Settles O4: these are the encoder's words. -/
theorem undefinedEncodingsExact : Obligations.UndefinedEncodingsExact := by
  simp only [Obligations.UndefinedEncodingsExact, decode_eq_ok_iff, Instr.wellFormed, true_and,
    encode_undefined_eq_iff, encode_tUndefined_eq_iff]
  refine ⟨fun w => ⟨?_, ?_⟩, fun h => ⟨?_, ?_⟩⟩
  · rintro ⟨c, -, -, ⟨hc, h27, h4⟩, -, -⟩
    refine ⟨h27, h4, ?_⟩
    rw [hc, ← BitVec.toNat_inj.ne]
    exact c.bits_lt.ne
  · rintro ⟨h27, h4, hne⟩
    obtain ⟨c, hc⟩ := Option.ne_none_iff_exists'.mp (mt Cond.ofBits_eq_none.mp hne)
    exact ⟨c, _, _, ⟨(Cond.bits_of_ofBits hc).symm, h27, h4⟩, rfl, rfl⟩
  · rintro ⟨_, hde, -⟩
    exact hde
  · exact fun hde => ⟨_, hde, rfl⟩

/-- Settles O3: closed words, each decoded. -/
theorem specWordsDecode : Obligations.SpecWordsDecode := by
  unfold Obligations.SpecWordsDecode
  simp only [List.forall_mem_cons, List.not_mem_nil, false_imp_iff, forall_const, and_true]
  iterate 16 refine ⟨by decide, ?_⟩
  exact ⟨by decide, by decide⟩

end Sys2Proof
end

section
/-! Operand 2 (R96 to R98): the four shifts of a word in arithmetic, and from them the rows of the immediate, the
register and the register-shifted form. -/

namespace Sys2Proof.Machine

/-! ## The shifts of a word -/

/-- Rotating right by `n` moves bit `k + n` to bit `k` (R8). -/
theorem getLsbD_ror32 (v : Word) (n : Nat) {k : Nat} (hk : k < 32) :
    (ror32 v n).getLsbD k = v.getLsbD ((k + n) % 32) := by
  rw [ror32, BitVec.getLsbD_rotateRight, Nat.mod_mod]
  by_cases h : k < 32 - n % 32
  · rw [decide_eq_true h, cond_true]
    congr 1
    omega
  · rw [decide_eq_false h, cond_false, decide_eq_true hk, Bool.true_and]
    congr 1
    omega

theorem toNat_shiftLeft_word (v : Word) (n : Nat) : (v <<< n).toNat = v.toNat * 2 ^ n % 2 ^ 32 := by
  rw [BitVec.toNat_shiftLeft, Nat.shiftLeft_eq]

theorem toNat_ushiftRight_word (v : Word) (n : Nat) : (v >>> n).toNat = v.toNat / 2 ^ n := by
  rw [BitVec.toNat_ushiftRight, Nat.shiftRight_eq_div_pow]

/-- An arithmetic shift right is the signed quotient, rounded down (R8). -/
theorem toInt_asr32 (v : Word) (n : Nat) : (asr32 v n).toInt = v.toInt / 2 ^ n := by
  rw [asr32, BitVec.toInt_sshiftRight, Int.shiftRight_eq_div_pow]
  norm_cast

/-- The rotate through carry: the carry above the upper 31 bits (R97). -/
theorem toNat_rotateThroughCarry (v : Word) (c : Bool) :
    (((BitVec.ofBool c).setWidth 32 <<< 31) ||| (v >>> 1)).toNat = c.toNat * 2 ^ 31 + v.toNat / 2 := by
  have hlow : v.toNat / 2 < 2 ^ 31 := by omega
  have hhigh : ((BitVec.ofBool c).setWidth 32 <<< 31).toNat = 2 ^ 31 * c.toNat := by cases c <;> rfl
  rw [BitVec.toNat_or, hhigh, toNat_ushiftRight_word, pow_one, ← Nat.two_pow_add_eq_or_of_lt hlow, Nat.mul_comm]

/-! ## The immediate form -/

/-- Settles O13: the byte, zero-extended, with every bit moved by the rotation. -/
theorem rotatedImmediateBits : Obligations.RotatedImmediateBits := by
  intro rot imm8 c
  refine ⟨fun k hk => ?_, fun h => ?_, fun h => ?_⟩
  · show (ror32 (imm8.setWidth 32) (2 * rot.toNat)).getLsbD k = _
    rw [getLsbD_ror32 _ _ hk, BitVec.getLsbD_setWidth, decide_eq_true (Nat.mod_lt _ (by decide)), Bool.true_and]
    by_cases hb : (k + 2 * rot.toNat) % 32 < 8
    · rw [decide_eq_true hb, Bool.true_and]
    · rw [decide_eq_false hb, Bool.false_and, BitVec.getLsbD_of_ge _ _ (by omega)]
  · exact if_pos (BitVec.eq_of_toNat_eq h)
  · exact if_neg fun h0 => h (congrArg BitVec.toNat h0)

/-! ## The register form -/

section ShiftByImmediate

variable {sh : BitVec 5} (v : Word) (c : Bool)

/-- The amount 0 stands for no shift, for 32, for 32 and for the rotate through carry (R97). -/
theorem operandShiftImm_zero (h : sh.toNat = 0) :
    operandShiftImm .lsl sh v c = (v, c) ∧
    operandShiftImm .lsr sh v c = (0#32, v.getLsbD 31) ∧
    operandShiftImm .asr sh v c = (signFill v, v.getLsbD 31) ∧
    operandShiftImm .ror sh v c = (((BitVec.ofBool c).setWidth 32 <<< 31) ||| (v >>> 1), v.getLsbD 0) :=
  ⟨if_pos h, if_pos h, if_pos h, if_pos h⟩

theorem operandShiftImm_pos (h : sh.toNat ≠ 0) :
    operandShiftImm .lsl sh v c = (v <<< sh.toNat, v.getLsbD (32 - sh.toNat)) ∧
    operandShiftImm .lsr sh v c = (v >>> sh.toNat, v.getLsbD (sh.toNat - 1)) ∧
    operandShiftImm .asr sh v c = (asr32 v sh.toNat, v.getLsbD (sh.toNat - 1)) ∧
    operandShiftImm .ror sh v c = (ror32 v sh.toNat, v.getLsbD (sh.toNat - 1)) :=
  ⟨if_neg h, if_neg h, if_neg h, if_neg h⟩

end ShiftByImmediate

/-- Settles O14: each row is one shift of the register, said in arithmetic. -/
theorem shiftByImmediateTable : Obligations.ShiftByImmediateTable := by
  intro s m rm sh v hv
  have hop : ∀ type, s.op2Reg m type sh rm = operandShiftImm type sh v s.flags.c := by
    subst hv
    exact fun _ => rfl
  simp only [hop]
  refine ⟨fun h => ?_, fun h => ?_⟩
  · obtain ⟨hlsl, hlsr, hasr, hror⟩ := operandShiftImm_zero v s.flags.c h
    rw [hror]
    exact ⟨hlsl, hlsr, hasr, toNat_rotateThroughCarry v s.flags.c, rfl⟩
  · obtain ⟨hlsl, hlsr, hasr, hror⟩ := operandShiftImm_pos v s.flags.c h
    rw [hlsl, hlsr, hasr, hror]
    exact ⟨toNat_shiftLeft_word v _, rfl, toNat_ushiftRight_word v _, rfl, toInt_asr32 v _, rfl,
      fun _ hk => getLsbD_ror32 v _ hk, rfl⟩

/-! ## The register-shifted form -/

/-- The shift amount is the low byte of the register (R98). -/
theorem toNat_lowByte (rs : Word) : (rs.extractLsb 7 0).toNat = rs.toNat % 256 := by
  rw [toNat_extractLsb]
  simp

section ShiftByRegister

variable {rs : Word} {n : Nat} (hn : n = rs.toNat % 256) (v : Word) (c : Bool)
include hn

theorem operandShiftReg_zero (h : n = 0) (type : ShiftType) : operandShiftReg type rs v c = (v, c) :=
  if_pos ((toNat_lowByte rs).trans (hn.symm.trans h))

/-- A shift by a positive amount is the row of its type (R98). -/
theorem operandShiftReg_pos (h : n ≠ 0) :
    operandShiftReg .lsl rs v c =
      (if n < 32 then (v <<< n, v.getLsbD (32 - n)) else if n = 32 then (0#32, v.getLsbD 0) else (0#32, false)) ∧
    operandShiftReg .lsr rs v c =
      (if n < 32 then (v >>> n, v.getLsbD (n - 1)) else if n = 32 then (0#32, v.getLsbD 31) else (0#32, false)) ∧
    operandShiftReg .asr rs v c =
      (if n < 32 then (asr32 v n, v.getLsbD (n - 1)) else (signFill v, v.getLsbD 31)) ∧
    operandShiftReg .ror rs v c =
      (if n % 32 = 0 then (v, v.getLsbD 31) else (ror32 v (n % 32), v.getLsbD (n % 32 - 1))) := by
  rw [hn, ← toNat_lowByte] at h ⊢
  exact ⟨if_neg h, if_neg h, if_neg h, if_neg h⟩

end ShiftByRegister

/-- Settles O15: each row is one branch of its type's shift, said in arithmetic. -/
theorem shiftByRegisterTable : Obligations.ShiftByRegisterTable := by
  intro s m rs rm v n hrs hv hn
  have hop : ∀ type, s.op2Rsr m type rs rm = operandShiftReg type (s.get (phys m rs)) v s.flags.c := by
    subst hv
    intro type
    rw [State.op2Rsr, State.x_of_ne s m armShiftAhead hrs]
    rfl
  simp only [hop]
  have hpos := operandShiftReg_pos hn v s.flags.c
  refine ⟨operandShiftReg_zero hn v s.flags.c, fun h1 h31 => ?_, fun h => ?_, fun h => ?_, fun h => ?_,
    fun h0 h => ?_, fun h => ?_⟩
  all_goals obtain ⟨hlsl, hlsr, hasr, hror⟩ := hpos (by omega)
  · rw [hlsl, hlsr, hasr, if_pos (by omega), if_pos (by omega), if_pos (by omega)]
    exact ⟨toNat_shiftLeft_word v n, rfl, toNat_ushiftRight_word v n, rfl, toInt_asr32 v n, rfl⟩
  · rw [hlsl, hlsr, if_neg (by omega), if_pos h, if_neg (by omega), if_pos h]
    exact ⟨rfl, rfl⟩
  · rw [hlsl, hlsr, if_neg (by omega), if_neg (by omega), if_neg (by omega), if_neg (by omega)]
    exact ⟨rfl, rfl⟩
  · rw [hasr, if_neg (by omega)]
    rfl
  · rw [hror, if_pos h]
  · rw [hror, if_neg h]
    refine ⟨fun k hk => ?_, rfl⟩
    rw [getLsbD_ror32 v _ hk, Nat.add_mod_mod]

end Sys2Proof.Machine
end

section
/-! The branches with an offset (R99, R114, R116, R117): their targets in arithmetic, the ends of the address space,
and the Thumb BL half by half and as a call (R130, R131, R133 to R136). -/

namespace Sys2Proof.Machine

/-! ## Offsets -/

theorem armBranchOffset_eq (imm24 : BitVec 24) : armBranchOffset imm24 = 4 * imm24.toInt :=
  BitVec.toInt_append_zero

theorem thumbCondOffset_eq (off : BitVec 8) : thumbCondOffset off = 2 * off.toInt := BitVec.toInt_append_zero

theorem thumbBranchOffset_eq (off : BitVec 11) : thumbBranchOffset off = 2 * off.toInt := BitVec.toInt_append_zero

/-- The first half of a Thumb BL holds the upper part of the signed offset (R117). -/
theorem thumbBlHigh_eq (off : BitVec 11) : thumbBlHigh off = BitVec.ofInt 32 (4096 * off.toInt) := by
  have hpow : BitVec.twoPow 32 12 = BitVec.ofInt 32 4096 := by decide
  rw [thumbBlHigh, BitVec.shiftLeft_eq_mul_twoPow, BitVec.ofInt_mul, BitVec.mul_comm, hpow, BitVec.signExtend]

theorem toNat_thumbBlLow (off : BitVec 11) : (thumbBlLow off).toNat = 2 * off.toNat := by
  have hlt := off.isLt
  rw [thumbBlLow, toNat_shiftLeft_word, BitVec.toNat_setWidth]
  omega

/-! ## Targets -/

/-- A target inside the address space is taken (R130). -/
theorem branchTo_of {s : State} {target : Int} {len : Nat} (h0 : 0 ≤ target)
    (h1 : target ≤ Config.addressEnd - len) :
    s.branchTo target len = .next (s.withPc (BitVec.ofInt 32 target)) := if_pos ⟨h0, h1⟩

/-- A target past an end of the address space is refused (R130). -/
theorem branchTo_refused {s : State} {target : Int} {len : Nat}
    (h : target < 0 ∨ (Config.addressEnd : Int) - len < target) : s.branchTo target len = .refused .pcWrap :=
  if_neg (by omega)

/-- Settles O40: both forms are one branch, BL in the state with the link written. -/
theorem armBranchTargets : Obligations.ArmBranchTargets := by
  intro s m c imm24 target hm hc ht
  have hb : exec (.b c imm24) s = s.branchTo target 4 := by
    rw [ht, ← armBranchOffset_eq]
    exact armInstr_of hm hc _
  have hbl : exec (.bl c imm24) s = (s.setX m 14 (s.pc + 4#32)).branchTo target 4 := by
    rw [ht, ← armBranchOffset_eq]
    exact armInstr_of hm hc _
  rw [hb, hbl]
  exact ⟨fun h0 h1 => ⟨branchTo_of h0 h1, branchTo_of h0 h1⟩, fun h => ⟨branchTo_refused h, branchTo_refused h⟩⟩

/-- Settles O42: a branch to the target, unless a condition fails. -/
theorem thumbBranchTargets : Obligations.ThumbBranchTargets := by
  intro s m hm
  refine ⟨fun off t ht => ?_, fun c off t ht => ?_⟩
  · have hexec : exec (.tB off) s = s.branchTo t 2 := by
      rw [ht, ← thumbBranchOffset_eq]
      exact inMode_of hm _
    rw [hexec]
    exact ⟨branchTo_of, branchTo_refused⟩
  · have hexec : exec (.tBcond c off) s = if condPasses c s.flags then s.branchTo t 2 else s.advance 2 := by
      rw [ht, ← thumbCondOffset_eq]
      exact inMode_of hm _
    rw [hexec]
    exact ⟨fun hc h0 h1 => (if_pos hc).trans (branchTo_of h0 h1),
      fun hc h => (if_pos hc).trans (branchTo_refused h),
      fun hc hadv => (if_neg (Bool.eq_false_iff.mp hc)).trans (advance_of hadv)⟩

/-! ## The Thumb BL -/

theorem exec_tBlHi {s : State} {m : Mode} (off : BitVec 11) (hm : s.mode? = some m) (hadv : s.canAdvance 2) :
    exec (.tBlHi off) s = .next
      ((s.setX m 14 (s.pc + 4#32 + BitVec.ofInt 32 (4096 * off.toInt))).withPc (s.pc + 2#32)) := by
  rw [← thumbBlHigh_eq]
  exact (inMode_of hm _).trans (advance_setX m _ (by decide) hadv)

/-- The second half is a branch from R14, refused where that is odd (R136). -/
theorem exec_tBlLo {s : State} {m : Mode} (off : BitVec 11) (hm : s.mode? = some m) :
    exec (.tBlLo off) s =
      if (s.get (phys m 14)).getLsbD 0 then .refused .misalignedPc
      else (s.setX m 14 ((s.pc + 2#32) ||| 1#32)).branchTo ((s.get (phys m 14)).toNat + 2 * off.toNat : Nat) 2 := by
  have hx : s.x m thumbAhead 14 = s.get (phys m 14) := State.x_of_ne s m thumbAhead (by decide)
  refine (inMode_of hm _).trans ?_
  rw [hx, toNat_thumbBlLow]
  norm_cast

/-- Settles O43: the parity of R14 and the ends of the address space decide the second half. -/
theorem thumbBlHalves : Obligations.ThumbBlHalves := by
  intro s m off hm
  refine ⟨exec_tBlHi off hm, fun target ht => ?_⟩
  rw [exec_tBlLo off hm, ← ht, getLsbD_eq_div, pow_zero, Nat.div_one]
  refine ⟨fun heven hle => ?_, fun heven hlt => ?_, fun hodd => if_pos (decide_eq_true hodd)⟩
  all_goals rw [if_neg (by simp [heven])]
  · refine (branchTo_of (Int.natCast_nonneg _) ?_).trans (by rw [BitVec.ofInt_natCast])
    simp only [Config.addressEnd]
    omega
  · refine branchTo_refused (.inr ?_)
    simp only [Config.addressEnd]
    omega

/-- A second write of a register, and of the pc, hides the first. -/
theorem Regs.set_withPc_set_withPc (r : Regs) (p : PhysReg) (u v a b : Word) :
    { ({ r.set p u with pc := a } : Regs).set p v with pc := b } = { r.set p v with pc := b } := by
  cases p <;> rfl

theorem setX_withPc_setX_withPc (s : State) (m : Mode) (i : Reg) (u v a b : Word) :
    (((s.setX m i u).withPc a).setX m i v).withPc b = (s.setX m i v).withPc b :=
  congrArg (fun r => { s with regs := r }) (Regs.set_withPc_set_withPc s.regs (phys m i) u v a b)

/-- Setting bit 0 of an even address adds one (decision D23). -/
theorem or_one_of_even {v : Word} (h : v.toNat % 2 = 0) : v ||| 1#32 = v + 1#32 := by
  have hv : v.toNat = 2 ^ 1 * (v.toNat / 2) := by omega
  have hor : v.toNat ||| 1 = v.toNat + 1 := by
    rw [hv]
    exact (Nat.two_pow_add_eq_or_of_lt (by decide) _).symm
  apply BitVec.eq_of_toNat_eq
  rw [BitVec.toNat_or, BitVec.toNat_add]
  show v.toNat ||| 1 = (v.toNat + 1) % 2 ^ 32
  omega

/-- What the first half leaves in R14 is the number it was computed as, where that lies in the address space. -/
theorem toNat_blHigh {pc : Word} {hi : BitVec 11} (h0 : 0 ≤ (pc.toNat : Int) + 4 + 4096 * hi.toInt)
    (h1 : (pc.toNat : Int) + 4 + 4096 * hi.toInt < 2 ^ 32) :
    ((pc + 4#32 + BitVec.ofInt 32 (4096 * hi.toInt)).toNat : Int) = pc.toNat + 4 + 4096 * hi.toInt := by
  rw [BitVec.toNat_add, BitVec.toNat_add, BitVec.toNat_ofInt, BitVec.toNat_ofNat]
  omega

theorem get_lr_setX_withPc (s : State) (m : Mode) (v a : Word) :
    ((s.setX m 14 v).withPc a).get (phys m 14) = v := by
  simp [phys_ne_pc m 14 (by decide)]

/-- The link value of the second half, from the address of the first (decision D23). -/
theorem link_after_pair {pc : Word} (h : pc.toNat % 2 = 0) : (pc + 2#32 + 2#32) ||| 1#32 = pc + 5#32 := by
  rw [or_one_of_even, BitVec.add_assoc, BitVec.add_assoc]
  · rfl
  · rw [BitVec.toNat_add, BitVec.toNat_add, BitVec.toNat_ofNat]
    omega

/-- Settles O44: the first half leaves an even R14 inside the address space, from which the second branches. -/
theorem thumbBlPairCalls : Obligations.ThumbBlPairCalls := by
  intro s m hi lo target hm heven hadv ht h0 h1
  have hadv2 : s.canAdvance 2 := by
    unfold State.canAdvance at hadv ⊢
    omega
  refine ⟨_, exec_tBlHi hi hm hadv2, ?_⟩
  have hlink := toNat_blHigh h0 (by omega)
  generalize s.pc + 4#32 + BitVec.ofInt 32 (4096 * hi.toInt) = link at hlink ⊢
  have htarget : BitVec.ofNat 32 (link.toNat + 2 * lo.toNat) = BitVec.ofInt 32 target := by
    rw [← BitVec.ofInt_natCast]
    congr 1
    omega
  obtain ⟨hcall, -, -⟩ := (thumbBlHalves ((s.setX m 14 link).withPc (s.pc + 2#32)) m lo hm).2 _ rfl
  rw [get_lr_setX_withPc, State.pc_withPc, link_after_pair heven, htarget, setX_withPc_setX_withPc] at hcall
  exact hcall (by omega) (by omega)

/-! ## Forms the constraints shut out -/

theorem reg_eq_of_not_ne {r : Reg} (h : decide (r ≠ 15) = false) : r = 15 := not_not.mp (of_decide_eq_false h)

theorem ldmRefused_iff {wb : Bool} {rn : Reg} {list : BitVec 16} :
    ldmRefused wb rn list = true ↔ list = 0 ∨ rn = 15 ∨ (wb && list.getLsbD rn.val) = true := by
  simp only [ldmRefused, Bool.or_eq_true, beq_iff_eq, or_assoc]

/-- A form the constraints shut out is one the load multiple refuses (R180, R185). -/
theorem ldmRefused_of_ldm {c : Cond} {mode : AddrMode} {wb : Bool} {rn : Reg} {list : BitVec 16}
    (h : (Instr.ldm c mode wb rn list).predictable = false) : ldmRefused wb rn list = true := by
  rw [← Bool.not_eq_true, ldm_predictable_iff, ← Bool.not_eq_true] at h
  rw [ldmRefused_iff]
  tauto

theorem ldmRefused_of_ldmPcSpsr {c : Cond} {mode : AddrMode} {wb : Bool} {rn : Reg} {list : BitVec 15}
    (h : (Instr.ldmPcSpsr c mode wb rn list).predictable = false) : ldmRefused wb rn (1#1 ++ list) = true := by
  rw [ldmRefused_iff]
  by_cases hrn : rn = 15
  · exact .inr (.inl hrn)
  · rw [← Bool.not_eq_true, ldmPcSpsr_predictable_iff, ← Bool.not_eq_true] at h
    rw [getLsbD_append_field hrn]
    tauto

theorem ldmRefused_of_ldmUser {c : Cond} {mode : AddrMode} {wb : Bool} {rn : Reg} {list : BitVec 15}
    (h : (Instr.ldmUser c mode wb rn list).predictable = false) :
    wb = true ∨ ldmRefused wb rn (0#1 ++ list) = true := by
  rw [← Bool.not_eq_true, ldmUser_predictable_iff, ← Bool.not_eq_true] at h
  rw [ldmRefused_iff]
  by_cases hlist : list = 0
  · subst hlist
    exact .inr (.inl rfl)
  · tauto

/-- Settles O53: each constrained form is refused by the first tests of its meaning, in the order of those tests. -/
theorem constrainedFormsRefused : Obligations.ConstrainedFormsRefused := by
  intro i s m hm hc hp
  have harm {c : Cond} (hi : i.armCond = some c) (body : Mode → Out) : armInstr c s body = body m :=
    armInstr_of hm (hc c hi) body
  have hthumb (body : Mode → Out) : inMode s body = body m := inMode_of hm body
  cases i with
  | bx c rm => exact (harm rfl _).trans (if_pos (reg_eq_of_not_ne hp))
  | mrs c psr rd => exact (harm rfl _).trans (if_pos (reg_eq_of_not_ne hp))
  | msrReg c psr fields rm => exact (harm rfl _).trans (if_pos (reg_eq_of_not_ne hp))
  | movRsr c S rd rs type rm => exact (harm rfl _).trans (if_pos (reg_eq_of_not_ne hp))
  | addRsr c S rn rd rs type rm => exact (harm rfl _).trans (if_pos (reg_eq_of_not_ne hp))
  | subRsr c S rn rd rs type rm => exact (harm rfl _).trans (if_pos (reg_eq_of_not_ne hp))
  | cmpRsr c rn rs type rm => exact (harm rfl _).trans (if_pos (reg_eq_of_not_ne hp))
  | ldm c mode wb rn list => exact (harm rfl _).trans (if_pos (ldmRefused_of_ldm hp))
  | ldmPcSpsr c mode wb rn list =>
    refine (harm rfl _).trans ?_
    cases hb : m.bank? with
    | none => rfl
    | some b => exact if_pos (ldmRefused_of_ldmPcSpsr hp)
  | ldmUser c mode wb rn list =>
    refine (harm rfl _).trans (if_pos ?_)
    rw [Bool.or_assoc, Bool.or_eq_true, Bool.or_eq_true]
    exact .inr (ldmRefused_of_ldmUser hp)
  | tAddHi a d => exact (hthumb _).trans (if_neg (Bool.eq_false_iff.mp hp))
  | tMovHi a d => exact (hthumb _).trans (if_neg (Bool.eq_false_iff.mp hp))
  | tCmpHi a d =>
    refine (hthumb _).trans ?_
    by_cases hlow : a.val < 8 ∧ d.val < 8
    · rw [unlessLowPair_of_low hlow.1 hlow.2]
      exact congrArg _ (if_pos hlow).symm
    · have hhigh : highPair a d = true := decide_eq_true (by omega)
      have hd : decide (d ≠ 15) = false := by
        rw [← hp, Instr.predictable, hhigh, Bool.true_and]
      rw [unlessLowPair_of_high (by omega)]
      exact (if_pos (reg_eq_of_not_ne hd)).trans (congrArg _ (if_neg hlow).symm)
  | tLdmia rb list => exact (hthumb _).trans (if_pos (not_not.mp (of_decide_eq_false hp)))
  | _ => cases hp

end Sys2Proof.Machine
end

section
/-! A destination R15 with S clear is a branch in ARM state (R142), of each data-processing operation and then of each
instruction that runs it (R144 to R146). -/

namespace Sys2Proof.Machine

/-! ## Operations -/

section Operations

variable (s : State) (m : Mode)

/-- A result for R15 with S clear is written to the PC in ARM state (R142). -/
theorem writeResult_pc_branchesTo (v : Word) (f : Flags) : BranchesTo (writeResult s m false 15 v f) s v := by
  rw [writeResult, if_pos rfl, if_neg Bool.false_ne_true]
  exact jumpArm_branchesTo s v

theorem movOp_pc_branchesTo (op2 : Word × Bool) : BranchesTo (movOp s m false 15 op2) s op2.1 :=
  writeResult_pc_branchesTo s m op2.1 _

theorem addOp_pc_branchesTo (a op2 : Word) : BranchesTo (addOp s m false 15 a op2) s (a + op2) :=
  writeResult_pc_branchesTo s m (a + op2) _

theorem subOp_pc_branchesTo (a op2 : Word) : BranchesTo (subOp s m false 15 a op2) s (a - op2) :=
  writeResult_pc_branchesTo s m (a - op2) _

/-! ## The register-shifted form -/

theorem unlessPcAmount_of {rs : Reg} (h : rs ≠ 15) (body : Out) : unlessPcAmount rs body = body := if_neg h

/-- The amount register is read as it stands, R15 being refused there (R98). -/
theorem op2Rsr_of_ne {rs : Reg} (h : rs ≠ 15) (type : ShiftType) (rm : Reg) :
    s.op2Rsr m type rs rm = operandShiftReg type (s.get (phys m rs)) (s.x m 12#32 rm) s.flags.c := by
  rw [State.op2Rsr, State.x_of_ne s m armShiftAhead h]
  rfl

end Operations

/-! ## The obligation on destination R15 -/

/-- Settles O35: each instruction is its operation on the operands it reads, which branches to its result. -/
theorem pcDestinationBranches : Obligations.PcDestinationBranches := by
  intro s m c hm hc
  have harm {body : Mode → Out} {v : Word} (h : BranchesTo (body m) s v) : BranchesTo (armInstr c s body) s v := by
    rwa [armInstr_of hm hc]
  have harmRsr {body : Mode → Out} {rs : Reg} {v : Word} (hrs : rs ≠ 15) (h : BranchesTo (body m) s v) :
      BranchesTo (armInstr c s fun m => unlessPcAmount rs (body m)) s v := by
    simpa only [unlessPcAmount_of hrs] using harm h
  refine ⟨fun _ _ => harm (movOp_pc_branchesTo s m _), fun _ _ _ => harm (movOp_pc_branchesTo s m _), ?movRsr,
    fun _ _ _ => harm (addOp_pc_branchesTo s m _ _), fun _ _ _ _ => harm (addOp_pc_branchesTo s m _ _), ?addRsr,
    fun _ _ _ => harm (subOp_pc_branchesTo s m _ _), fun _ _ _ _ => harm (subOp_pc_branchesTo s m _ _), ?subRsr⟩
  case movRsr =>
    intro rs type rm hrs
    rw [← op2Rsr_of_ne s m hrs]
    exact harmRsr hrs (movOp_pc_branchesTo s m _)
  case addRsr =>
    intro rn rs type rm hrs
    rw [← op2Rsr_of_ne s m hrs]
    exact harmRsr hrs (addOp_pc_branchesTo s m _ _)
  case subRsr =>
    intro rn rs type rm hrs
    rw [← op2Rsr_of_ne s m hrs]
    exact harmRsr hrs (subOp_pc_branchesTo s m _ _)

end Sys2Proof.Machine
end

section
/-! ARM data processing: each instruction is its operation on the operands it reads, and from what the operations
answer the next states and the exception returns (R140, R141, R143 to R147). -/

namespace Sys2Proof.Machine

/-! ## Instructions as operations -/

section Instructions

variable {s : State} {m : Mode} {c : Cond} (hm : s.mode? = some m) (hc : condPasses c s.flags = true)
include hm hc

theorem exec_movImm (S : Bool) (rd : Reg) (rot : BitVec 4) (imm8 : BitVec 8) :
    exec (.movImm c S rd rot imm8) s = movOp s m S rd (operandImm rot imm8 s.flags.c) :=
  armInstr_of hm hc _

theorem exec_movReg (S : Bool) (rd : Reg) (n : BitVec 5) (type : ShiftType) (rm : Reg) :
    exec (.movReg c S rd n type rm) s = movOp s m S rd (operandShiftImm type n (s.x m 8#32 rm) s.flags.c) :=
  armInstr_of hm hc _

theorem exec_addImm (S : Bool) (rn rd : Reg) (rot : BitVec 4) (imm8 : BitVec 8) :
    exec (.addImm c S rn rd rot imm8) s = addOp s m S rd (s.x m 8#32 rn) (operandImm rot imm8 s.flags.c).1 :=
  armInstr_of hm hc _

theorem exec_addReg (S : Bool) (rn rd : Reg) (n : BitVec 5) (type : ShiftType) (rm : Reg) :
    exec (.addReg c S rn rd n type rm) s =
      addOp s m S rd (s.x m 8#32 rn) (operandShiftImm type n (s.x m 8#32 rm) s.flags.c).1 :=
  armInstr_of hm hc _

theorem exec_subImm (S : Bool) (rn rd : Reg) (rot : BitVec 4) (imm8 : BitVec 8) :
    exec (.subImm c S rn rd rot imm8) s = subOp s m S rd (s.x m 8#32 rn) (operandImm rot imm8 s.flags.c).1 :=
  armInstr_of hm hc _

theorem exec_subReg (S : Bool) (rn rd : Reg) (n : BitVec 5) (type : ShiftType) (rm : Reg) :
    exec (.subReg c S rn rd n type rm) s =
      subOp s m S rd (s.x m 8#32 rn) (operandShiftImm type n (s.x m 8#32 rm) s.flags.c).1 :=
  armInstr_of hm hc _

theorem exec_cmpImm (rn : Reg) (rot : BitVec 4) (imm8 : BitVec 8) :
    exec (.cmpImm c rn rot imm8) s = cmpOp s (s.x m 8#32 rn) (operandImm rot imm8 s.flags.c).1 :=
  armInstr_of hm hc _

theorem exec_cmpReg (rn : Reg) (n : BitVec 5) (type : ShiftType) (rm : Reg) :
    exec (.cmpReg c rn n type rm) s =
      cmpOp s (s.x m 8#32 rn) (operandShiftImm type n (s.x m 8#32 rm) s.flags.c).1 :=
  armInstr_of hm hc _

/-- A register-shifted form whose amount register is not R15 runs its operation (R98). -/
theorem armInstr_unlessPcAmount {rs : Reg} (hrs : rs ≠ 15) (body : Mode → Out) :
    armInstr c s (fun m => unlessPcAmount rs (body m)) = body m :=
  (armInstr_of hm hc _).trans (unlessPcAmount_of hrs _)

theorem exec_movRsr {rs : Reg} (hrs : rs ≠ 15) (S : Bool) (rd : Reg) (type : ShiftType) (rm : Reg) :
    exec (.movRsr c S rd rs type rm) s =
      movOp s m S rd (operandShiftReg type (s.get (phys m rs)) (s.x m 12#32 rm) s.flags.c) := by
  rw [← op2Rsr_of_ne s m hrs]
  exact armInstr_unlessPcAmount hm hc hrs _

theorem exec_addRsr {rs : Reg} (hrs : rs ≠ 15) (S : Bool) (rn rd : Reg) (type : ShiftType) (rm : Reg) :
    exec (.addRsr c S rn rd rs type rm) s = addOp s m S rd (s.x m 12#32 rn)
      (operandShiftReg type (s.get (phys m rs)) (s.x m 12#32 rm) s.flags.c).1 := by
  rw [← op2Rsr_of_ne s m hrs]
  exact armInstr_unlessPcAmount hm hc hrs _

theorem exec_subRsr {rs : Reg} (hrs : rs ≠ 15) (S : Bool) (rn rd : Reg) (type : ShiftType) (rm : Reg) :
    exec (.subRsr c S rn rd rs type rm) s = subOp s m S rd (s.x m 12#32 rn)
      (operandShiftReg type (s.get (phys m rs)) (s.x m 12#32 rm) s.flags.c).1 := by
  rw [← op2Rsr_of_ne s m hrs]
  exact armInstr_unlessPcAmount hm hc hrs _

theorem exec_cmpRsr {rs : Reg} (hrs : rs ≠ 15) (rn : Reg) (type : ShiftType) (rm : Reg) :
    exec (.cmpRsr c rn rs type rm) s = cmpOp s (s.x m 12#32 rn)
      (operandShiftReg type (s.get (phys m rs)) (s.x m 12#32 rm) s.flags.c).1 := by
  rw [← op2Rsr_of_ne s m hrs]
  exact armInstr_unlessPcAmount hm hc hrs _

end Instructions

/-! ## A register other than R15 -/

section Results

variable {s : State} (m : Mode) (S : Bool) {rd : Reg} (hrd : rd ≠ 15) (hadv : s.canAdvance 4)
include hrd hadv

theorem movOp_of (op2 : Word × Bool) :
    movOp s m S rd op2 = .next (afterResult s m S rd op2.1 (moveFlags op2.1 op2.2 s.flags)) :=
  writeResult_of hrd hadv

theorem addOp_of (a op2 : Word) :
    addOp s m S rd a op2 = .next (afterResult s m S rd (a + op2) (addWithFlags a op2).2) :=
  writeResult_of hrd hadv

theorem subOp_of (a op2 : Word) :
    subOp s m S rd a op2 = .next (afterResult s m S rd (a - op2) (subWithFlags a op2).2) :=
  writeResult_of hrd hadv

end Results

/-- Settles O31: the three forms are one move of the operand each reads. -/
theorem armMoveResult : Obligations.ArmMoveResult := by
  intro s m c S rd hm hc hrd hadv
  refine ⟨fun rot imm8 v k hop => ?_, fun n type rm v k hop => ?_, fun rs type rm v k hrs hop => ?_⟩
  · rw [exec_movImm hm hc, hop]
    exact movOp_of m S hrd hadv (v, k)
  · rw [exec_movReg hm hc, hop]
    exact movOp_of m S hrd hadv (v, k)
  · rw [exec_movRsr hm hc hrs, hop]
    exact movOp_of m S hrd hadv (v, k)

/-- Settles O32: the three forms are one addition, the register-shifted one reading R15 four bytes further on. -/
theorem armAddResult : Obligations.ArmAddResult := by
  rintro s m c S rn rd a8 a12 hm hc hrd hadv rfl rfl
  refine ⟨fun rot imm8 v hop => ?_, fun n type rm v hop => ?_, fun rs type rm v hrs hop => ?_⟩
  · rw [exec_addImm hm hc, hop, addOp_of m S hrd hadv]
  · rw [exec_addReg hm hc, hop, addOp_of m S hrd hadv]
  · rw [exec_addRsr hm hc hrs, hop, addOp_of m S hrd hadv]

/-- Settles O33: as for ADD, with the difference. -/
theorem armSubResult : Obligations.ArmSubResult := by
  rintro s m c S rn rd a8 a12 hm hc hrd hadv rfl rfl
  refine ⟨fun rot imm8 v hop => ?_, fun n type rm v hop => ?_, fun rs type rm v hrs hop => ?_⟩
  · rw [exec_subImm hm hc, hop, subOp_of m S hrd hadv]
  · rw [exec_subReg hm hc, hop, subOp_of m S hrd hadv]
  · rw [exec_subRsr hm hc hrs, hop, subOp_of m S hrd hadv]

/-- Settles O34: a comparison writes the flags of the difference and no register. -/
theorem armCompareResult : Obligations.ArmCompareResult := by
  rintro s m c rn a8 a12 hm hc hadv rfl rfl
  refine ⟨fun rot imm8 v hop => ?_, fun n type rm v hop => ?_, fun rs type rm v hrs hop => ?_⟩
  · rw [exec_cmpImm hm hc, hop, cmpOp_next.mpr ⟨hadv, rfl⟩]
  · rw [exec_cmpReg hm hc, hop, cmpOp_next.mpr ⟨hadv, rfl⟩]
  · rw [exec_cmpRsr hm hc hrs, hop, cmpOp_next.mpr ⟨hadv, rfl⟩]

/-! ## R15 with S set -/

section Returns

variable (s : State) (m : Mode)

/-- The SPSR of the mode decides between the two targets and the refusal (R143, R210). -/
theorem exceptionReturn_returnsTo (v : Word) : ReturnsTo (s.exceptionReturn m v) s m v := by
  refine ⟨fun hb => ?_, fun b hb => ⟨fun hT => ?_, fun hT ha => ?_, fun hT ha => ?_⟩⟩
  · rw [State.exceptionReturn, hb]
  · exact exceptionReturn_next.mpr ⟨b, hb, fun hF => by simp [hT] at hF, by rw [if_pos hT]⟩
  · exact exceptionReturn_next.mpr
      ⟨b, hb, fun _ => (extractLsb_one_zero_eq_zero_iff v).mpr ha, by rw [if_neg (Bool.eq_false_iff.mp hT)]⟩
  · simp only [State.exceptionReturn, hb]
    rw [if_neg (Bool.eq_false_iff.mp hT), if_pos (mt (extractLsb_one_zero_eq_zero_iff v).mp ha)]

/-- A result for R15 with S set is an exception return, whatever the flags computed (R143). -/
theorem writeResult_pc_returnsTo (v : Word) (f : Flags) : ReturnsTo (writeResult s m true 15 v f) s m v := by
  rw [writeResult, if_pos rfl, if_pos rfl]
  exact exceptionReturn_returnsTo s m v

theorem movOp_pc_returnsTo (op2 : Word × Bool) : ReturnsTo (movOp s m true 15 op2) s m op2.1 :=
  writeResult_pc_returnsTo s m op2.1 _

theorem addOp_pc_returnsTo (a op2 : Word) : ReturnsTo (addOp s m true 15 a op2) s m (a + op2) :=
  writeResult_pc_returnsTo s m (a + op2) _

theorem subOp_pc_returnsTo (a op2 : Word) : ReturnsTo (subOp s m true 15 a op2) s m (a - op2) :=
  writeResult_pc_returnsTo s m (a - op2) _

end Returns

/-- Settles O36: each instruction is its operation on the operands it reads, which returns to its result. -/
theorem exceptionReturnForms : Obligations.ExceptionReturnForms := by
  intro s m c hm hc
  refine ⟨fun _ _ => ?movImm, fun _ _ _ => ?movReg, fun _ _ _ hrs => ?movRsr, fun _ _ _ => ?addImm,
    fun _ _ _ _ => ?addReg, fun _ _ _ _ hrs => ?addRsr, fun _ _ _ => ?subImm, fun _ _ _ _ => ?subReg,
    fun _ _ _ _ hrs => ?subRsr⟩
  case movImm => exact exec_movImm hm hc .. ▸ movOp_pc_returnsTo s m _
  case movReg => exact exec_movReg hm hc .. ▸ movOp_pc_returnsTo s m _
  case movRsr => exact exec_movRsr hm hc hrs .. ▸ movOp_pc_returnsTo s m _
  case addImm => exact exec_addImm hm hc .. ▸ addOp_pc_returnsTo s m _ _
  case addReg => exact exec_addReg hm hc .. ▸ addOp_pc_returnsTo s m _ _
  case addRsr => exact exec_addRsr hm hc hrs .. ▸ addOp_pc_returnsTo s m _ _
  case subImm => exact exec_subImm hm hc .. ▸ subOp_pc_returnsTo s m _ _
  case subReg => exact exec_subReg hm hc .. ▸ subOp_pc_returnsTo s m _ _
  case subRsr => exact exec_subRsr hm hc hrs .. ▸ subOp_pc_returnsTo s m _ _

end Sys2Proof.Machine
end

section
/-! LDM with S and R15: the loads of any load multiple, then the exception return of R143 to the word for R15
(R182). -/

namespace Sys2Proof.Machine

variable {s : State} {m : Mode} {c : Cond} {mode : AddrMode} {wb : Bool} {rn : Reg} {list : BitVec 15}

theorem ldmRefused_ldmPcSpsr (hp : (Instr.ldmPcSpsr c mode wb rn list).predictable = true) :
    ¬ ldmRefused wb rn (1#1 ++ list) = true := by
  obtain ⟨hrn, hwb⟩ := ldmPcSpsr_predictable_iff.mp hp
  rw [← getLsbD_append_field (x := 1#1) hrn] at hwb
  simp [ldmRefused_eq_false hrn (append_pc_ne_zero list) hwb]

theorem LoadShape.spsr_afterLoads (l : LoadShape) (s : State) (m : Mode) (b : Bank) :
    (l.afterLoads s m).spsr b = s.spsr b := by
  obtain ⟨r, heq⟩ := l.afterLoads_eq s m
  rw [heq]
  cases b <;> rfl

/-- What a load multiple leaves is said without the CPSR. -/
theorem LoadShape.loaded_withCpsr_withPc {l : LoadShape} {t : State} {p v : Word}
    (h : l.loaded s (t.withPc v) m) : l.loaded s ((t.withCpsr p).withPc v) m := h

/-- Where all reads answer, the instruction returns from the state with its registers loaded to the word for R15
(R182). -/
theorem exec_ldmPcSpsr_of_reads {l : LoadShape} {b : Bank} {v : Word}
    (hl : loadShape (.ldmPcSpsr c mode wb rn list) = some l)
    (hp : (Instr.ldmPcSpsr c mode wb rn list).predictable = true) (hm : s.mode? = some m)
    (hc : condPasses c s.flags = true) (hb : m.bank? = some b) (hrange : l.inRange s m) (hr : l.reads s m l.count)
    (hv : l.wordFor s m 15 = some v) :
    exec (.ldmPcSpsr c mode wb rn list) s = (l.afterLoads s m).exceptionReturn m v := by
  obtain ⟨-, hlist, -⟩ := loadShape_admitted hl hp
  cases hl
  set l : LoadShape := { mode, wb, rn, list := 1#1 ++ list, userBank := false }
  have h15 : l.list.getLsbD 15 = true := pc_listed list
  obtain rfl := Option.some.inj ((LoadShape.wordFor_eq_word hr (LoadShape.rank_lt_count h15)).symm.trans hv)
  have hexec : exec (.ldmPcSpsr c mode wb rn list) s = _ :=
    (armInstr_of hm hc _).trans ((if_neg (by simp [hb])).trans ((if_neg (ldmRefused_ldmPcSpsr hp)).trans
      (loadMultiple_of_reads (dest := l.dest m) hrange (l.count_pos hlist) hr)))
  rw [hexec]
  simp only [l.loadedPc_wordsRead_eq_some h15]
  rfl

/-- Settles O49: the mode's SPSR is tested for first, then the loads are done and the return is taken from them. -/
theorem ldmReturnResult : Obligations.LdmReturnResult := by
  intro s m c mode wb rn list l hl hm hc
  refine ⟨fun hb => ?_, fun b v hb hp hrange hr hv => ?_⟩
  · exact (armInstr_of hm hc _).trans (if_pos (by rw [hb]; rfl))
  obtain ⟨hrn, -, huser⟩ := loadShape_admitted hl hp
  have hspsr := l.spsr_afterLoads s m b
  rw [exec_ldmPcSpsr_of_reads hl hp hm hc hb hrange hr hv]
  constructor
  · intro hT
    refine ⟨_, exceptionReturn_next.mpr ⟨b, hb, fun hF => ?_, rfl⟩,
      LoadShape.loaded_withCpsr_withPc (l.loaded_afterLoads hr hrn huser _), hspsr, by rw [hspsr]; rfl⟩
    rw [hspsr] at hF
    exact (extractLsb_one_zero_eq_zero_iff v).mpr (hT.resolve_left (Bool.eq_false_iff.mp hF))
  · intro hT ha
    obtain ⟨-, hreturn⟩ := exceptionReturn_returnsTo (l.afterLoads s m) m v
    obtain ⟨-, -, hrefused⟩ := hreturn b hb
    exact hrefused (hspsr ▸ hT) ha

end Sys2Proof.Machine
end

section
/-! Thumb data processing on low registers, the PC and the SP (R150, R152 to R154, R156 to R160). -/

namespace Sys2Proof.Machine

/-! ## Low registers -/

/-- Settles O37: each form writes its result and flags, or the flags of its comparison, and advances. -/
theorem thumbLowRegisterResult : Obligations.ThumbLowRegisterResult := by
  rintro s m rd rs rn imm3 imm8 d a b hm hadv rfl rfl rfl
  have hresult (rd : LowReg) (r : Word × Flags) : thumbResult s m rd r =
      .next (((s.setX m (low rd) r.1).withFlags r.2).withPc (s.pc + 2#32)) := thumbResult_next.mpr ⟨hadv, rfl⟩
  have hcompare (a b : Word) : thumbCompare s a b =
      .next ((s.withFlags (subWithFlags a b).2).withPc (s.pc + 2#32)) := thumbCompare_next.mpr ⟨hadv, rfl⟩
  simp only [← State.x_low s m thumbAhead]
  exact ⟨(inMode_of hm _).trans (hresult rd _), (inMode_of hm _).trans (hresult rd _),
    (inMode_of hm _).trans (hresult rd _), (inMode_of hm _).trans (hresult rd _),
    (inMode_of hm _).trans (hcompare _ _), (inMode_of hm _).trans (hcompare _ _)⟩

/-! ## Addresses -/

/-- Clearing bits 1 and 0 rounds down to a word (R156). -/
theorem toNat_and_wordMask (v : Word) : (v &&& 0xFFFFFFFC#32).toNat = v.toNat / 4 * 4 := by
  have hmask : 0xFFFFFFFC#32 = BitVec.allOnes 32 <<< 2 := by decide
  rw [hmask, ← BitVec.shiftLeft_ushiftRight, BitVec.toNat_shiftLeft, BitVec.toNat_ushiftRight,
    Nat.shiftRight_eq_div_pow, Nat.shiftLeft_eq]
  have := v.isLt
  omega

/-- A word offset is four times its field (R111, R112). -/
theorem setWidth_append_two_zeros {w : Nat} (x : BitVec w) :
    (x ++ 0#2).setWidth 32 = BitVec.ofNat 32 (4 * x.toNat) := by
  apply BitVec.eq_of_toNat_eq
  rw [BitVec.toNat_setWidth, toNat_append_add, BitVec.toNat_ofNat, BitVec.toNat_ofNat]
  congr 1
  omega

theorem wordImm8_eq (imm8 : BitVec 8) : wordImm8 imm8 = BitVec.ofNat 32 (4 * imm8.toNat) :=
  setWidth_append_two_zeros imm8

theorem wordImm7_eq (imm7 : BitVec 7) : wordImm7 imm7 = BitVec.ofNat 32 (4 * imm7.toNat) :=
  setWidth_append_two_zeros imm7

/-- The address of T_ADD_pc as a number (R156). -/
theorem toNat_thumbPcAddress (pc : Word) (imm8 : BitVec 8) :
    (((pc + thumbAhead) &&& 0xFFFFFFFC#32) + wordImm8 imm8).toNat =
      ((pc.toNat + 4) % 2 ^ 32 / 4 * 4 + 4 * imm8.toNat) % 2 ^ 32 := by
  rw [wordImm8_eq, BitVec.toNat_add, toNat_and_wordMask, thumbAhead, BitVec.toNat_add, BitVec.toNat_ofNat,
    BitVec.toNat_ofNat, Nat.add_mod_mod]

/-- Settles O39: each form writes one sum or difference, the PC's read from a word boundary, and advances. -/
theorem thumbAddressResult : Obligations.ThumbAddressResult := by
  intro s m rd imm8 imm7 hm hadv
  have hsp : s.x m thumbAhead 13 = s.get (phys m 13) := State.x_of_ne s m thumbAhead (by decide)
  have hwrite {i : Reg} (hi : i ≠ 15) (v : Word) :
      (s.setX m i v).advance 2 = .next ((s.setX m i v).withPc (s.pc + 2#32)) := advance_setX m v hi hadv
  rw [← hsp, ← wordImm8_eq, ← wordImm7_eq]
  refine ⟨fun v hv => ?_, ?_, ?_, ?_⟩
  · obtain rfl := BitVec.eq_of_toNat_eq (hv.trans (toNat_thumbPcAddress s.pc imm8).symm)
    exact (inMode_of hm _).trans (hwrite (low_ne_fifteen rd) _)
  · exact (inMode_of hm _).trans (hwrite (low_ne_fifteen rd) _)
  · exact (inMode_of hm _).trans (hwrite (by decide) _)
  · exact (inMode_of hm _).trans (hwrite (by decide) _)

end Sys2Proof.Machine
end

section
/-! The trapping instructions: SWI and the undefined instruction of either state enter their exception with the address
after them in R14, and `MOVS PC, R14` goes back there (R170, R171, R176, R177, R201, R202, R212). -/

namespace Sys2Proof.Machine

/-! ## Entry -/

/-- An exception entry touches nothing outside the registers and the PSRs (R193). -/
theorem sameOutside_takeException (s : State) (e : ExcKind) (link : Word) : SameOutside s (s.takeException e link) := by
  obtain ⟨-, -, -, hmem, hformat, hpins, hbus, hfree⟩ := takeException_spec s e link
  exact ⟨hmem, hformat, hpins, hbus, hfree⟩

/-- An entry does not depend on the pc it leaves, the link apart (R193). -/
theorem EnteredBy.withPc {e : ExcKind} {link : Word} {s t : State} (h : EnteredBy e link s t) (v : Word) :
    EnteredBy e link (s.withPc v) t := by
  obtain ⟨hpc, hlink, hregs, hspsr⟩ := h
  exact ⟨hpc, hlink, fun p hp hlr => by rw [hregs p hp hlr, State.get_withPc, if_neg hp], hspsr⟩

/-! ## Return -/

/-- `MOVS PC, R14` in the mode entered returns to R14 (R143, R212). -/
theorem exec_movs_pc_lr {b : Bank} {t : State} (hmode : t.mode? = some b.mode) :
    exec (.movReg .al true 15 0#5 .lsl 14) t = t.exceptionReturn b.mode (t.get b.lr) := by
  obtain ⟨hunshifted, -⟩ := operandShiftImm_zero (sh := 0#5) (t.get b.lr) t.flags.c rfl
  rw [exec_movReg hmode rfl, State.x_of_ne t _ _ (by decide), phys_bank_lr, hunshifted]
  rfl

/-- Where the link is an aligned address, `MOVS PC, R14` resumes there in the state interrupted (R210, R212). -/
theorem movs_pc_lr_resumes {e : ExcKind} {link : Word} {s t : State} (h : EnteredBy e link s t)
    (hlink : (s.withPc link).pcAligned) :
    ∃ u, exec (.movReg .al true 15 0#5 .lsl 14) t = .next u ∧ ResumedAt (s.withPc link) t u := by
  have ⟨_, hlr, _, _, _, hmode, _⟩ := h
  rw [exec_movs_pc_lr hmode, hlr]
  exact exceptionReturn_resumes (h.withPc link) hlink

/-- The instruction after an aligned one is aligned, also where its address wraps (R26). -/
theorem pcAligned_withPc_add {s : State} {thumb : Bool} (hT : psrT s.cpsr = thumb) (hpc : s.pcAligned) :
    (s.withPc (s.pc + BitVec.ofNat 32 (fetchWidth thumb).bytes)).pcAligned := by
  have hdvd : (fetchWidth thumb).bytes ∣ 2 ^ 32 := by cases thumb <;> decide
  rw [State.pcAligned, hT] at hpc
  rw [State.pcAligned, State.pc_withPc, State.cpsr_withPc, hT, BitVec.toNat_add, BitVec.toNat_ofNat, Nat.add_mod_mod,
    Nat.mod_mod_of_dvd _ hdvd, Nat.add_mod_right, hpc]

/-! ## The trapping instructions -/

/-- An instruction that raises an exception whose link is the address after it, and the return from it. -/
theorem raise_entry_and_return {i : Instr} {s : State} {e : ExcKind} {thumb : Bool}
    (hexec : exec i s = .next (s.raise e thumb))
    (hoffset : e.linkOffset thumb = BitVec.ofNat 32 (fetchWidth thumb).bytes) :
    ∃ t, exec i s = .next t ∧ EnteredBy e (s.pc + e.linkOffset thumb) s t ∧ SameOutside s t ∧
      t.mode? = some e.bank.mode ∧ t.pc = e.vector ∧
      (psrT s.cpsr = thumb → s.pcAligned → ∃ u, exec (.movReg .al true 15 0#5 .lsl 14) t = .next u ∧
        ResumedAt (s.withPc (s.pc + e.linkOffset thumb)) t u) := by
  have hentered : EnteredBy e (s.pc + e.linkOffset thumb) s (s.raise e thumb) := enteredBy_takeException s e _
  refine ⟨_, hexec, hentered, sameOutside_takeException s e _, entryPsr_mode e _, rfl, fun hT hpc => ?_⟩
  exact movs_pc_lr_resumes hentered (hoffset ▸ pcAligned_withPc_add hT hpc)

/-- Settles O23: a SWI raises its exception, whose link is the address after it in either state. -/
theorem swiEntryAndReturn : Obligations.SwiEntryAndReturn :=
  ⟨fun _ _ _ _ hm hc => raise_entry_and_return (e := .swi) (thumb := false) (armInstr_of hm hc _) rfl,
    fun _ _ _ hm => raise_entry_and_return (e := .swi) (thumb := true) (inMode_of hm _) rfl, rfl⟩

/-- Settles O24: an undefined instruction raises its exception whatever its free bits, with the link of a SWI. -/
theorem undefinedEntryAndReturn : Obligations.UndefinedEntryAndReturn :=
  ⟨fun _ _ _ _ _ hm hc => raise_entry_and_return (e := .undef) (thumb := false) (armInstr_of hm hc _) rfl,
    fun _ _ _ hm => raise_entry_and_return (e := .undef) (thumb := true) (inMode_of hm _) rfl⟩

end Sys2Proof.Machine
end

section
/-! LDM of the User bank and Thumb LDMIA: the loads of any load multiple, after which the pc moves on (R183, R186). -/

namespace Sys2Proof.Machine

variable {s : State} {m : Mode} {c : Cond} {mode : AddrMode} {wb : Bool} {rn : Reg} {list : BitVec 15}

/-- The pc moves on from the loads as from the state before them: neither the loads nor a write-back to a base other
than R15 changed it (R28). -/
theorem LoadShape.advance_afterLoads {l : LoadShape} {n : Nat} (hrn : l.rn ≠ 15) (hadv : s.canAdvance n) :
    (l.afterLoads s m).advance n = .next ((l.afterLoads s m).withPc (s.pc + BitVec.ofNat 32 n)) := by
  have hpc : (l.afterLoads s m).pc = s.pc := pc_afterLoads hrn
  rw [advance_of (hpc ▸ hadv), hpc]

theorem not_refused_of_ldmUser (hp : (Instr.ldmUser c mode wb rn list).predictable = true)
    (hb : m.bank?.isSome = true) : ¬ (m.bank?.isNone || wb || ldmRefused wb rn (0#1 ++ list)) = true := by
  obtain ⟨hrn, rfl, hlist⟩ := ldmUser_predictable_iff.mp hp
  rw [ldmRefused_eq_false hrn (append_no_pc_ne_zero hlist) rfl, ← Option.not_isSome, hb]
  decide

/-- Where all reads answer, the instruction moves on from the state with the User bank loaded (R183). -/
theorem exec_ldmUser_of_reads {l : LoadShape} (hl : loadShape (.ldmUser c mode wb rn list) = some l)
    (hp : (Instr.ldmUser c mode wb rn list).predictable = true) (hm : s.mode? = some m)
    (hc : condPasses c s.flags = true) (hb : m.bank?.isSome = true) (hrange : l.inRange s m)
    (hr : l.reads s m l.count) : exec (.ldmUser c mode wb rn list) s = (l.afterLoads s m).advance 4 := by
  obtain ⟨-, hlist, huser⟩ := loadShape_admitted hl hp
  cases hl
  obtain rfl : wb = false := huser rfl
  set l : LoadShape := { mode, wb := false, rn, list := 0#1 ++ list, userBank := true }
  exact (armInstr_of hm hc _).trans ((if_neg (not_refused_of_ldmUser hp hb)).trans
    (loadMultiple_of_reads (dest := l.dest m) hrange (l.count_pos hlist) hr))

/-- Where all reads answer, the instruction moves on from the state with its registers loaded (R186). -/
theorem exec_tLdmia_of_reads {l : LoadShape} {rb : LowReg} {list : BitVec 8}
    (hl : loadShape (.tLdmia rb list) = some l) (hp : (Instr.tLdmia rb list).predictable = true)
    (hm : s.mode? = some m) (hrange : l.inRange s m) (hr : l.reads s m l.count) :
    exec (.tLdmia rb list) s = (l.afterLoads s m).advance 2 := by
  obtain ⟨-, hlist, -⟩ := loadShape_admitted hl hp
  cases hl
  set l : LoadShape := { mode := .ia, wb := true, rn := low rb, list := list.setWidth 16, userBank := false }
  exact (inMode_of hm _).trans ((if_neg (of_decide_eq_true hp)).trans
    (loadMultiple_of_reads (dest := l.dest m) hrange (l.count_pos hlist) hr))

/-- Settles O50: a mode without an SPSR fails the first test, and elsewhere the pc moves on from the loads. -/
theorem ldmUserBankResult : Obligations.LdmUserBankResult := by
  intro s m c mode wb rn list l hl hm hc
  refine ⟨fun hb => ?_, fun hb hp hrange hr hadv => ?_⟩
  · exact (armInstr_of hm hc _).trans (if_pos (by rw [hb]; rfl))
  · obtain ⟨hrn, -, huser⟩ := loadShape_admitted hl hp
    exact ⟨_, (exec_ldmUser_of_reads hl hp hm hc hb hrange hr).trans (LoadShape.advance_afterLoads hrn hadv),
      l.loaded_afterLoads hr hrn huser _, rfl, l.cpsr_afterLoads s m⟩

/-- Settles O51: the pc moves on from the loads, in which a listed base keeps its word over the write-back. -/
theorem thumbLdmiaResult : Obligations.ThumbLdmiaResult := by
  intro s m rb list l hl hp hm hrange hr hadv
  obtain ⟨hrn, -, huser⟩ := loadShape_admitted hl hp
  exact ⟨_, (exec_tLdmia_of_reads hl hp hm hrange hr).trans (LoadShape.advance_afterLoads hrn hadv),
    l.loaded_afterLoads hr hrn huser _, rfl, l.cpsr_afterLoads s m⟩

end Sys2Proof.Machine
end

section
/-! The requests of a step (R11): the front takes a Reset from any state, an enabled FIQ before an IRQ, and an
interrupt before the instruction. From what each leaves, the vector table, Reset, and the interrupts with their return
(R191, R193, R205, R206, R230). -/

namespace Sys2Proof.Machine

/-! ## The entries -/

/-- What TakeReset leaves in every register and every PSR, the values R230 leaves unspecified apart. -/
theorem takeReset_spec (s : State) :
    s.takeReset.pc = ExcKind.reset.vector ∧ s.takeReset.mode? = some .supervisor ∧ psrT s.takeReset.cpsr = false ∧
      psrI s.takeReset.cpsr = true ∧ psrF s.takeReset.cpsr = true ∧
      (∀ p, p ≠ .pc → p ≠ .r14Svc → s.takeReset.get p = s.get p) ∧
      (∀ b, b ≠ .svc → s.takeReset.spsr b = s.spsr b) ∧ s.takeReset.mem = s.mem ∧ s.takeReset.bus = s.bus ∧
      s.takeReset.bigEndian = s.bigEndian ∧ s.takeReset.pins = s.pins := by
  refine ⟨rfl, psrMode_psrWithControl .., psrT_psrWithControl .., psrI_psrWithControl .., psrF_psrWithControl ..,
    fun p hpc hlr => ?_, fun b hb => ?_, rfl, rfl, rfl, rfl⟩
  · simp [State.takeReset, hpc, show p ≠ Bank.svc.lr from hlr]
  · simp [State.takeReset, hb]

/-- Settles O21: an entry clears T in the CPSR and keeps it in the SPSR, and Reset enters as R230 says. -/
theorem vectorTable : Obligations.VectorTable := by
  refine ⟨⟨rfl, rfl, rfl, rfl, rfl, rfl, rfl, fun e => ?_⟩, fun s e link => ?_, fun s => ?_⟩
  · cases e <;> decide
  · obtain ⟨hpc, -, -, hspsr, -, -, hT, -⟩ := enteredBy_takeException s e link
    exact ⟨hpc, hT, congrArg psrT hspsr⟩
  · obtain ⟨hpc, -, hT, -⟩ := takeReset_spec s
    exact ⟨hpc, hT⟩

/-- Settles O22: TakeException makes the entry of R193, inside the registers and the PSRs. -/
theorem exceptionEntryState : Obligations.ExceptionEntryState :=
  fun s e link => ⟨enteredBy_takeException s e link, sameOutside_takeException s e link⟩

/-! ## The front of a step with a request -/

section Requests

variable {s : State}

/-- A Reset is taken before the mode is looked at (R200). -/
theorem step_of_reset (hreset : s.now.reset = true) : step s = .next s.popPins.takeReset := by
  rw [step, stepFront, frontOf, if_pos hreset]

variable {m : Mode} (hm : s.mode? = some m) (hreset : s.now.reset = false)
include hm hreset

/-- Where no Reset is requested and the mode is legal, the front tests for an enabled FIQ, then for an enabled IRQ. -/
theorem stepFront_of_legal :
    stepFront s =
      if s.now.fiq && !psrF s.cpsr then .ended (.next (s.popPins.raise .fiq (psrT s.cpsr)))
      else if s.now.irq && !psrI s.cpsr then .ended (.next (s.popPins.raise .irq (psrT s.cpsr)))
      else fetchDecode s.popPins := by
  rw [stepFront, frontOf, hreset, State.mode?_popPins, hm]
  rfl

/-- An enabled FIQ is taken whether an IRQ is requested or not (R206). -/
theorem step_of_fiq (hfiq : s.now.fiq = true) (hF : psrF s.cpsr = false) :
    step s = .next (s.popPins.raise .fiq (psrT s.cpsr)) := by
  rw [step, stepFront_of_legal hm hreset, if_pos (by rw [hfiq, hF]; rfl)]

/-- An enabled IRQ is taken where no FIQ is (R205). -/
theorem step_of_irq (hfiq : s.now.fiq = true → psrF s.cpsr = true) (hirq : s.now.irq = true)
    (hI : psrI s.cpsr = false) : step s = .next (s.popPins.raise .irq (psrT s.cpsr)) := by
  rw [step, stepFront_of_legal hm hreset, if_neg (by simpa using hfiq), if_pos (by rw [hirq, hI]; rfl)]

end Requests

/-- Settles O29: the step is TakeReset once the requests are taken off the schedule. -/
theorem resetFromAnyState : Obligations.ResetFromAnyState := by
  intro s hreset
  obtain ⟨hpc, hmode, hT, hI, hF, hregs, hspsr, hmem, hbus, hformat, hpins⟩ := takeReset_spec s.popPins
  exact ⟨_, step_of_reset hreset, hpc, hT, hmode, hI, hF, hregs,
    fun b hb => (hspsr b hb).trans (State.spsr_popPins s b), hmem, hbus, hformat, hpins⟩

/-! ## Interrupts -/

/-- A step that raises an exception in front of the instruction, with the link 4 past it in either operating state
(R194), and the return to that instruction. -/
theorem interrupt_entry_and_return {s : State} {e : ExcKind}
    (hstep : step s = .next (s.popPins.raise e (psrT s.cpsr))) (hoffset : e.linkOffset (psrT s.cpsr) = 4#32) :
    ∃ t, step s = .next t ∧ EnteredBy e (s.pc + 4#32) s t ∧ t.mem = s.mem ∧ t.bus = s.bus ∧
      t.pins = s.pins.tail ∧ t.freeIndex = s.freeIndex ∧ t.bigEndian = s.bigEndian ∧
      t.mode? = some e.bank.mode ∧ t.pc = e.vector ∧
      (s.pcAligned → ∃ u, exec (.subImm .al true 14 15 0#4 4#8) t = .next u ∧ ResumedAt s t u) := by
  rw [State.raise, hoffset] at hstep
  have hentered : EnteredBy e (s.pc + 4#32) s (s.popPins.takeException e (s.pc + 4#32)) :=
    enteredBy_takeException s.popPins e (s.pc + 4#32)
  obtain ⟨hmem, hformat, hpins, hbus, hfree⟩ := sameOutside_takeException s.popPins e (s.pc + 4#32)
  exact ⟨_, hstep, hentered, hmem, hbus, hpins, hfree, hformat, entryPsr_mode e _, rfl,
    subs_pc_lr_four_resumes hentered⟩

/-- FIQ mode shares none of R8 to R14 with another mode (R21, R206). -/
theorem phys_fiq_ne {i j : Reg} {m : Mode} (hlo : 8 ≤ i.val) (hhi : i.val ≤ 14) (hm : m ≠ .fiq) :
    phys .fiq i ≠ phys m j := by
  intro h
  obtain ⟨rfl, hshared⟩ := (bankingRule.1 .fiq m i j).mp h
  rcases hshared with hlow | hpc | ⟨-, -, hfiq⟩ | ⟨-, hbank⟩
  · omega
  · omega
  · exact hm (hfiq.mp rfl)
  · exact hm (Mode.mode_of_bank hbank.symm).symm

/-- Settles O25: the front raises the IRQ, whose link does not depend on the operating state. -/
theorem irqEntryAndReturn : Obligations.IrqEntryAndReturn :=
  fun _ _ hm hreset hfiq hirq hI =>
    ⟨interrupt_entry_and_return (step_of_irq hm hreset hfiq hirq hI) rfl, rfl⟩

/-- Settles O26: the front raises the FIQ before it looks at the IRQ, and the bank of FIQ mode is its own. -/
theorem fiqEntryAndReturn : Obligations.FiqEntryAndReturn :=
  ⟨fun _ _ hm hreset hfiq hF => interrupt_entry_and_return (step_of_fiq hm hreset hfiq hF) rfl, rfl,
    fun _ _ _ => phys_fiq_ne⟩

end Sys2Proof.Machine
end
